-- ==== Sys2Proof/Word.lean ====
section
/-! DEFINITION. The word types of FNV1A-ACC (spec/00_scope.md R9, R10): everything is unsigned, bit 0 is the least significant. -/

namespace Sys2Proof

/-- An 8-bit byte of the buffer memory, and STEP's operand (R60, R82). -/
abbrev Byte := BitVec 8

/-- A 32-bit register or command word of the host window (R21, R80). -/
abbrev Word32 := BitVec 32

/-- A 64-bit register: PTR, LEN, ACC, COUNT (R22, R36, R37, R39). -/
abbrev Word64 := BitVec 64

end Sys2Proof
end

