-- ==== Sys2Proof/Syntax.lean ====
section
/-! DEFINITION. The six commands of the opcode map (spec/30_encoding.md R81), the fields of a command word (R80) and what decoding a word answers (R84). -/

namespace Sys2Proof

/-- One constructor per row of spec/opcode_table.json (R81). Only STEP has an operand in its word (R87). -/
inductive Instr where
  /-- NOP (43_control.md R170). -/
  | nop
  /-- INIT (40_accumulation_core.md R107). -/
  | init
  /-- STEP b, b = IMM8 (40_accumulation_core.md R108, 30_encoding.md R82). -/
  | step (b : Byte)
  /-- HASH_N (42_buffer_processor.md R141). -/
  | hashN
  /-- HASH_Z (42_buffer_processor.md R146). -/
  | hashZ
  /-- CLR (43_control.md R171). -/
  | clr
  deriving DecidableEq, Repr

/-- The four fields of a command word (R80). -/
structure CmdFields where
  /-- bits [3:0] -/
  op : BitVec 4
  /-- bits [7:4], must be 0 -/
  rsv0 : BitVec 4
  /-- bits [15:8] -/
  imm8 : Byte
  /-- bits [31:16], must be 0 -/
  rsv1 : BitVec 16
  deriving DecidableEq, Repr

/-- What decoding a 32-bit word answers (R84): a command, or ILLEGAL(w), the rejection by name. -/
inductive Decoded where
  | cmd (i : Instr)
  | illegal (w : Word32)
  deriving DecidableEq, Repr

/-- The fields of a command's word (R80, R81). -/
def Instr.fields : Instr → CmdFields
  | .nop => ⟨0, 0, 0, 0⟩
  | .init => ⟨1, 0, 0, 0⟩
  | .step b => ⟨2, 0, b, 0⟩
  | .hashN => ⟨3, 0, 0, 0⟩
  | .hashZ => ⟨4, 0, 0, 0⟩
  | .clr => ⟨5, 0, 0, 0⟩

end Sys2Proof
end

