-- ==== Sys2Proof/WellFormed.lean ====
section
/-! DEFINITION. When the fields of a command word are legal (spec/30_encoding.md R81, R82, R83, R85), one check a rule, and the well-formed commands. -/

namespace Sys2Proof

/-- OP names a row of the opcode map; 0x6..0xF are reserved (R81). -/
def CmdFields.opDefined (f : CmdFields) : Bool := f.op.toNat ≤ 5

/-- RSV0 must be 0 (R83). -/
def CmdFields.rsv0Zero (f : CmdFields) : Bool := f.rsv0 == 0

/-- IMM8 must be 0 for every OP other than STEP (R82). -/
def CmdFields.imm8Allowed (f : CmdFields) : Bool := f.op == 2 || f.imm8 == 0

/-- RSV1 must be 0 (R83). -/
def CmdFields.rsv1Zero (f : CmdFields) : Bool := f.rsv1 == 0

/-- A legal command word's fields: every word that fails a check is ILLEGAL (R85). -/
def CmdFields.wf (f : CmdFields) : Bool :=
  f.opDefined && f.rsv0Zero && f.imm8Allowed && f.rsv1Zero

/-- A well-formed command: its word's fields are legal. The type of STEP's operand carries R82's range 0x00..0xFF. -/
def Instr.wf (i : Instr) : Bool := i.fields.wf

end Sys2Proof
end

