-- ==== Sys2Proof/Decode.lean ====
section
/-! DEFINITION. Decoding a command word (spec/30_encoding.md R84), total on every 32-bit word and rejecting by name, then the encoder (R80, R81). -/

namespace Sys2Proof

/-- R84's decoder, row for row. -/
def decode (w : Word32) : Decoded :=
  if w = 0x00000000#32 then .cmd .nop
  else if w = 0x00000001#32 then .cmd .init
  else if w &&& 0xFFFF00FF#32 = 0x00000002#32 then .cmd (.step (w.extractLsb' 8 8))
  else if w = 0x00000003#32 then .cmd .hashN
  else if w = 0x00000004#32 then .cmd .hashZ
  else if w = 0x00000005#32 then .cmd .clr
  else .illegal w

/-- The fields of a word (R80). -/
def CmdFields.ofWord (w : Word32) : CmdFields :=
  ⟨w.extractLsb' 0 4, w.extractLsb' 4 4, w.extractLsb' 8 8, w.extractLsb' 16 16⟩

/-- The word of four fields: RSV1, IMM8, RSV0, OP from the high end (R80). -/
def CmdFields.toWord (f : CmdFields) : Word32 := f.rsv1 ++ f.imm8 ++ f.rsv0 ++ f.op

/-- The command word of a command (R81). -/
def encode (i : Instr) : Word32 := i.fields.toWord

/-- The decoder on a word numbered as spec/opcode_table.json numbers it: a command is exactly one 32-bit word (R86). -/
def decodeTableWord (nbits w : Nat) : Option Instr :=
  match decode (BitVec.ofNat 32 (w % 2 ^ nbits)) with
  | .cmd i => some i
  | .illegal _ => none

/-! Each constructor's decoding, shown by the word the opcode map writes for it (R81). -/

theorem decode_word_nop : decode 0x00000000#32 = .cmd .nop := by decide
theorem decode_word_init : decode 0x00000001#32 = .cmd .init := by decide
theorem decode_word_step : decode 0x00006102#32 = .cmd (.step 0x61#8) := by decide
theorem decode_word_hashN : decode 0x00000003#32 = .cmd .hashN := by decide
theorem decode_word_hashZ : decode 0x00000004#32 = .cmd .hashZ := by decide
theorem decode_word_clr : decode 0x00000005#32 = .cmd .clr := by decide

end Sys2Proof
end

