-- ==== Sys2Proof/Config.lean ====
section
/-! DEFINITION. What an instance of FNV1A-ACC fixes (spec/00_scope.md R8) and the free values of the model: constants with no body, of which nothing can be proved (R14 `any`). -/

namespace Sys2Proof

/-- The hash width W, selected by CFG.WSEL (R8, R25): 0 is 32 bits, 1 is 64 bits. No other width exists (R112). -/
inductive Width where
  | w32
  | w64
  deriving DecidableEq, Repr

/-- W as a number of bits. -/
def Width.bits : Width → Nat
  | .w32 => 32
  | .w64 => 64

/-- CFG.PSEL (R25, R27): the three policies and the reserved value 3, which CFG holds when written. -/
inductive Policy where
  | identity
  | foldCompat
  | foldGuarded
  | reserved
  deriving DecidableEq, Repr

/-- WIDTH_MODE (R8): whether CFG.WSEL is writable or hardwired. -/
inductive WidthMode where
  | both
  | only32
  | only64
  deriving DecidableEq, Repr

/-- A range of buffer byte addresses: base, base+1, ..., base+size-1. -/
structure Region where
  base : Nat
  size : Nat
  deriving DecidableEq, Repr

/-- The address lies in the range. -/
def Region.covers (r : Region) (a : Nat) : Bool := r.base ≤ a && a < r.base + r.size

/-- The implementation parameters (R8), fixed per instance. -/
structure Params where
  /-- NATIVE_W: the platform's native word width, 32 or 64. -/
  native : Width
  /-- WIDTH_MODE. -/
  widthMode : WidthMode
  /-- CHUNK, K: 0..255. -/
  chunk : BitVec 8
  /-- ADDR_W: 1..64 (`Params.wf`). -/
  addrW : Nat
  /-- BASE: the platform address of the 64-byte window. -/
  base : Nat
  /-- `admit` as plain data: the ranges of buffer bytes the memory answers (R61). DESIGN CHOICE, safe (log entry 8). -/
  answered : List Region
  /-- Ranges whose reads have side effects; a read there has no meaning (R220, D42). DESIGN CHOICE, safe (log entry 10). -/
  devices : List Region
  deriving DecidableEq, Repr

/-- R8's bound on ADDR_W. -/
def Params.wf (p : Params) : Bool := 1 ≤ p.addrW && p.addrW ≤ 64

/-- R8's defaults for a native width: WIDTH_MODE = BOTH, CHUNK = NATIVE_W / 8, ADDR_W = NATIVE_W. -/
def Params.withDefaults (native : Width) (base : Nat) (answered devices : List Region) : Params :=
  { native := native, widthMode := .both, chunk := BitVec.ofNat 8 (native.bits / 8),
    addrW := native.bits, base := base, answered := answered, devices := devices }

/-- The instance of State.reset (log entry 1): NATIVE_W and BASE are OPEN in the spec and `admit` is a launch
parameter. DESIGN CHOICE, unsafe: NATIVE_W = 64, the defaults, BASE = 0, every buffer byte answered, no device. -/
def Params.launch : Params := .withDefaults .w64 0 [⟨0, 2 ^ 64⟩] []

/-! Free values (log entries 5 to 7): each is applied to a counter the step advances. -/

/-- ACC after a run-time error (R207, I8). -/
opaque Config.freeAcc : Nat → Word64
/-- COUNT after a run-time error (R207, I8). -/
opaque Config.freeCount : Nat → Word64
/-- CUR after an operation has ended (R145, R207, I20). -/
opaque Config.freeCur : Nat → Word64
/-- REM after an operation has ended (R145, R207, I20). -/
opaque Config.freeRem : Nat → Word64
/-- A RESULT or COUNT half read while BUSY (R176, I9). -/
opaque Config.freeRead : Nat → Word32
/-- What an operation's one read of a byte returns when the host wrote that byte while it was borrowed (R71, I11): of the operation's draw and the address. -/
opaque Config.freeByte : Nat → Nat → Byte
/-- How many host moves come before the sequencer's next micro-step (R239, I21): any finite number. -/
opaque Config.freeTurns : Nat → Nat
/-- T_3, undefined, which no command evaluates (R120). -/
opaque Config.reservedTransform : Byte → Byte

end Sys2Proof
end

