-- ==== Sys2Proof/Machine/Constants.lean ====
section
/-! DEFINITION. The constants of the accumulation core (spec/40_accumulation_core.md R100-R103), the codes of the fields of CFG and PARAMS, and the reset width (spec/10_state.md R44). -/

namespace Sys2Proof.Machine

/-- The seed mux, zero-extended to 64 bits (R100, R102). -/
def seed : Width → Word64
  | .w32 => 0x00000000811C9DC5#64
  | .w64 => 0xCBF29CE484222325#64

/-- The prime mux (R101, R103), on the same select as the seed mux. -/
def prime : Width → Word64
  | .w32 => 0x0000000001000193#64
  | .w64 => 0x00000100000001B3#64

/-- CFG.WSEL's bit for a width (R25). -/
def wselBit : Width → BitVec 1
  | .w32 => 0
  | .w64 => 1

/-- The width a WSEL bit selects (R25). -/
def wselOfBit (b : Bool) : Width := if b then .w64 else .w32

/-- CFG.PSEL's code (R25). -/
def pselBits : Policy → BitVec 2
  | .identity => 0
  | .foldCompat => 1
  | .foldGuarded => 2
  | .reserved => 3

/-- The policy a PSEL code selects; every code is held as written (R27). -/
def pselOfBits (v : BitVec 2) : Policy :=
  if v = 0 then .identity else if v = 1 then .foldCompat else if v = 2 then .foldGuarded else .reserved

/-- WIDTH_MODE's code in PARAMS (R40). -/
def widthModeBits : WidthMode → BitVec 2
  | .both => 0
  | .only32 => 1
  | .only64 => 2

/-- CFG.WSEL after reset (R44): hardwired in ONLY32 and ONLY64, else the native width (R179). -/
def resetWidth (p : Params) : Width :=
  match p.widthMode with
  | .only32 => .w32
  | .only64 => .w64
  | .both => p.native

end Sys2Proof.Machine
end

