-- ==== Sys2Proof/Machine/State.lean ====
section
/-! DEFINITION. The machine's state as plain data: every register of spec/10_state.md R21, R42 and R44, the buffer memory (spec/20_memory.md R60), the instance's parameters (spec/00_scope.md R8), and the model's own fields for the outside world and the free values. -/

namespace Sys2Proof.Machine

/-- PHASE (R42). -/
inductive Phase where
  | idle
  | runN
  | runZ
  deriving DecidableEq, Repr

/-- STATUS.ECODE (R201); 6..15 are never produced, so they have no constructor. -/
inductive ErrCode where
  | none
  | badCmd
  | badCfg
  | nullPtr
  | range
  | bus
  deriving DecidableEq, Repr

/-- The direction of a host transaction, with the data of a write (R88). -/
inductive Dir where
  | write (v : Word32)
  | read
  deriving DecidableEq, Repr

/-- A host bus access at a platform address, `size` bytes wide. Only 4 bytes at BASE + a multiple of 4 inside the window is a transaction of the block (R65, R88, R178). -/
structure Access where
  dir : Dir
  addr : Nat
  size : Nat
  deriving DecidableEq, Repr

/-- One move of the outside world (log entry 3). -/
inductive Input where
  /-- A host access to the register window (R88). -/
  | access (a : Access)
  /-- MemWrite: the host writes buffer bytes by its own means, ascending from an address (R13, R60). -/
  | memWrite (addr : Nat) (bytes : List Byte)
  /-- `wait`: read STATUS until a read returns BUSY = 0 (R90). -/
  | awaitIdle
  /-- The reset input `rst` (R230). -/
  | rst
  deriving DecidableEq, Repr

/-- The state of one instance. -/
structure State where
  /-- The parameters of R8; no step changes them. -/
  params : Params
  /-- CFG.WSEL (R25, R26). -/
  wsel : Width
  /-- CFG.PSEL (R25, R27). -/
  psel : Policy
  /-- CFG.IE (R25, R28). -/
  ie : Bool
  /-- PTR (R36). -/
  ptr : Word64
  /-- LEN (R37). -/
  len : Word64
  /-- ACC (R22), read as RESULT_LO and RESULT_HI (R38). -/
  acc : Word64
  /-- COUNT (R39). -/
  count : Word64
  /-- STATUS.DONE (R32). -/
  done : Bool
  /-- STATUS.ERR (R33). -/
  err : Bool
  /-- STATUS.OVR (R34). -/
  ovr : Bool
  /-- STATUS.ECODE (R33, R201). -/
  ecode : ErrCode
  /-- PHASE, hidden (R42); STATUS.BUSY is PHASE ≠ IDLE (R31). -/
  phase : Phase
  /-- CUR, hidden, ADDR_W bits (R42). -/
  cur : Word64
  /-- REM, hidden, ADDR_W bits (R42). -/
  rem : Word64
  /-- The BUS fault mark, model only, never cleared (R206, R207). -/
  busMark : Bool
  /-- The buffer memory: (address, byte) pairs, addresses strictly rising, no byte equal to what an unlisted address reads as (R60, R61). -/
  mem : List Host.Cell
  /-- The model's own: addresses the host wrote while the running operation borrows its buffer (R71). -/
  raced : List Nat
  /-- The model's own: the draw taken when the operation was accepted, to which Config.freeByte is applied (R71; log entry 7). -/
  borrow : Nat
  /-- The model's own: the outside world's moves still to come, first first (R74, R88). -/
  inputs : List Input
  /-- The model's own: the data the host's reads returned, newest first (R88). -/
  returned : List Word32
  /-- The model's own: an operation was started and no STATUS read since has returned BUSY = 0 (R240; log entry 24). -/
  awaitsIdle : Bool
  /-- The model's own: host moves before the sequencer must move (R239). -/
  turns : Nat
  /-- The model's own: the counter that the free values of Config are applied to. -/
  draws : Nat
  deriving DecidableEq, Repr

/-- Why the machine stops with a fault. -/
inductive Fault where
  /-- Raised by a host memory write that leaves byte addresses 0..2^ADDR_W - 1 (R60: no such address). Safe. -/
  | outsideBufferSpace
  deriving DecidableEq, Repr

/-- Why a step has no meaning. -/
inductive Refusal where
  /-- Raised by exec for a command without a meaning (there is none). Safe. -/
  | notModelled (mnemonic : String)
  /-- Raised by a host access that is not 32 bits wide at a multiple of 4 inside the window (R65, R178: "the model refuses such an access"). Safe. -/
  | badHostAccess
  /-- Raised by a micro-step whose read covers a side-effecting address (R220, D42: "refused: no meaning"). Safe. -/
  | sideEffectingRead
  deriving DecidableEq, Repr

/-- Every register at its value after reset (R44) for an instance, with nothing listed in memory and the model's own fields at the values log entries 2 to 5, 7, 13, 14 and 24 name. -/
def State.resetOf (p : Params) : State :=
  { params := p, wsel := resetWidth p, psel := .identity, ie := false
    ptr := 0, len := 0, acc := seed (resetWidth p), count := 0
    done := false, err := false, ovr := false, ecode := .none
    phase := .idle, cur := 0, rem := 0
    busMark := false, mem := [], raced := [], borrow := 0, inputs := [], returned := [], awaitsIdle := false
    turns := 0, draws := 0 }

/-- The machine right after reset (R44, R231), as the instance log entry 1 names. -/
def State.reset : State := .resetOf .launch

end Sys2Proof.Machine
end

