-- ==== Sys2Proof/Machine/Flags.lean ====
section
/-! DEFINITION. STATUS: its flags, who sets and clears them, the word the host reads, and the `irq` output (spec/10_state.md R30-R35, R45; spec/60_exceptions.md R201, R210). -/

namespace Sys2Proof.Machine

/-- STATUS.BUSY (R31). -/
def State.busy (s : State) : Bool := s.phase != .idle

/-- The `irq` output and STATUS.IRQ (R35, R210). -/
def State.irq (s : State) : Bool := s.ie && (s.done || s.err)

/-- ECODE's 4 bits (R201). -/
def errCodeBits : ErrCode → BitVec 4
  | .none => 0
  | .badCmd => 1
  | .badCfg => 2
  | .nullPtr => 3
  | .range => 4
  | .bus => 5

/-- The STATUS word (R30). -/
def statusWord (s : State) : Word32 :=
  0#19 ++ BitVec.ofBool s.irq ++ errCodeBits s.ecode ++ 0#4 ++ BitVec.ofBool s.ovr ++
    BitVec.ofBool s.err ++ BitVec.ofBool s.done ++ BitVec.ofBool s.busy

/-- Acceptance of any command other than NOP clears DONE, ERR and ECODE (R32, R33, R172). -/
def clearOutcome (s : State) : State := { s with done := false, err := false, ecode := .none }

/-- A command or operation completed without error (R32). -/
def setDone (s : State) : State := { s with done := true }

/-- A host write dropped because BUSY = 1: only OVR is set (R34, R208). -/
def dropWrite (s : State) : State := { s with ovr := true }

/-- An accepted CLR clears OVR (R34, R171). -/
def clearOvr (s : State) : State := { s with ovr := false }

end Sys2Proof.Machine
end

