-- ==== Sys2Proof/Machine/Operands.lean ====
section
/-! DEFINITION. The datapath (byte transforms, modular multiplier, step function; spec/40_accumulation_core.md R104, R105, R110, spec/41_byte_transform.md R120) and the operand registers' forms: halves of 64-bit registers, ADDR_W bits, the CFG and PARAMS words, the register map (spec/10_state.md R21, R25, R36-R40). -/

namespace Sys2Proof.Machine

/-! The datapath. -/

/-- The policy mux T_p (R120): T_1 wraps mod 256, T_2 adds 0x20 only in 0x41..0x5A, T_3 is a free value. -/
def transform : Policy → Byte → Byte
  | .identity, b => b
  | .foldCompat, b => b + 0x20#8
  | .foldGuarded, b => if 0x41#8 ≤ b ∧ b ≤ 0x5A#8 then b + 0x20#8 else b
  | .reserved, b => Config.reservedTransform b

/-- zext_64 of the low W bits. -/
def truncTo : Width → Word64 → Word64
  | .w32, x => (x.setWidth 32).setWidth 64
  | .w64, x => x

/-- The modular multiplier, wrapping mod 2^W (R104). -/
def mulTo (w : Width) (a b : Word64) : Word64 := truncTo w (a * b)

/-- step_W(a[W-1:0], b, p), zero-extended to 64 bits: the XOR first, then the multiply (R105, R109). -/
def stepHash (w : Width) (p : Policy) (a : Word64) (b : Byte) : Word64 :=
  mulTo w (truncTo w a ^^^ (transform p b).setWidth 64) (prime w)

/-- The reference hash FNV1a_W,p of a list of bytes (R110). -/
def fnv1a (w : Width) (p : Policy) (bs : List Byte) : Word64 := bs.foldl (stepHash w p) (seed w)

/-- `fold(b)`: one step into ACC and one more byte in COUNT (42_buffer_processor.md, intro; R39). -/
def foldByte (s : State) (b : Byte) : State :=
  { s with acc := stepHash s.wsel s.psel s.acc b, count := s.count + 1 }

/-! Operand registers. -/

/-- Keep bits [ADDR_W-1:0]; those above are read-only 0 (R36, R37, R42). -/
def addrBits (p : Params) (x : Word64) : Word64 := BitVec.ofNat 64 (x.toNat % 2 ^ p.addrW)

/-- X[31:0], which X_LO shows (R64). -/
def lowHalf (x : Word64) : Word32 := x.extractLsb' 0 32

/-- X[63:32], which X_HI shows (R64). -/
def highHalf (x : Word64) : Word32 := x.extractLsb' 32 32

/-- X with X[31:0] <- v (R175). -/
def setLowHalf (x : Word64) (v : Word32) : Word64 := highHalf x ++ v

/-- X with X[63:32] <- v (R175). -/
def setHighHalf (x : Word64) (v : Word32) : Word64 := v ++ lowHalf x

/-- The CFG word (R25); bits [31:4] read 0 (R29). -/
def cfgWord (s : State) : Word32 := 0#28 ++ BitVec.ofBool s.ie ++ pselBits s.psel ++ wselBit s.wsel

/-- The PARAMS word (R40). -/
def paramsWord (p : Params) : Word32 :=
  0#9 ++ BitVec.ofNat 7 p.addrW ++ 0#5 ++ widthModeBits p.widthMode ++ wselBit p.native ++ p.chunk

/-- The registers of the host window (R21). -/
inductive Reg where
  | cmd
  | status
  | cfg
  | params
  | ptrLo
  | ptrHi
  | lenLo
  | lenHi
  | resultLo
  | resultHi
  | countLo
  | countHi
  | reserved30
  | reserved34
  | reserved38
  | reserved3C
  deriving DecidableEq, Repr

/-- A register's offset from BASE (R21). -/
def regOffset : Reg → Nat
  | .cmd => 0x00
  | .status => 0x04
  | .cfg => 0x08
  | .params => 0x0C
  | .ptrLo => 0x10
  | .ptrHi => 0x14
  | .lenLo => 0x18
  | .lenHi => 0x1C
  | .resultLo => 0x20
  | .resultHi => 0x24
  | .countLo => 0x28
  | .countHi => 0x2C
  | .reserved30 => 0x30
  | .reserved34 => 0x34
  | .reserved38 => 0x38
  | .reserved3C => 0x3C

/-- The register at an offset; none where the offset is no multiple of 4 inside the window (R21, R65). -/
def regAt : Nat → Option Reg
  | 0x00 => some .cmd
  | 0x04 => some .status
  | 0x08 => some .cfg
  | 0x0C => some .params
  | 0x10 => some .ptrLo
  | 0x14 => some .ptrHi
  | 0x18 => some .lenLo
  | 0x1C => some .lenHi
  | 0x20 => some .resultLo
  | 0x24 => some .resultHi
  | 0x28 => some .countLo
  | 0x2C => some .countHi
  | 0x30 => some .reserved30
  | 0x34 => some .reserved34
  | 0x38 => some .reserved38
  | 0x3C => some .reserved3C
  | _ => none

end Sys2Proof.Machine
end

