-- ==== Sys2Proof/Machine/Ops.lean ====
section
/-! DEFINITION. The named operations: buffer memory (spec/20_memory.md R60-R63, R71), `raise Error` (spec/60_exceptions.md R207), starting and ending an operation (spec/42_buffer_processor.md R141-R148), acceptance (spec/43_control.md R172) and reset (spec/70_reset_and_hazards.md R230). -/

namespace Sys2Proof.Machine

/-! The buffer memory. -/

/-- What a byte that nothing has written reads as. DESIGN CHOICE, unsafe for a claim about the memory of State.reset alone (log entry 2). -/
def unlistedByte : Byte := 0x00#8

/-- The byte the memory holds at an address. -/
def memByte : List Host.Cell → Nat → Byte
  | [], _ => unlistedByte
  | (k, v) :: m, a => if k = a then v else memByte m a

/-- The memory with one byte written, in canonical form. -/
def memSet : List Host.Cell → Nat → Byte → List Host.Cell
  | [], a, v => if v = unlistedByte then [] else [(a, v)]
  | (k, w) :: m, a, v =>
    if a < k then (if v = unlistedByte then (k, w) :: m else (a, v) :: (k, w) :: m)
    else if a = k then (if v = unlistedByte then m else (a, v) :: m)
    else (k, w) :: memSet m a v

/-- The memory with bytes written ascending from an address (R13). -/
def memSetAll : List Host.Cell → Nat → List Byte → List Host.Cell
  | m, _, [] => m
  | m, a, b :: bs => memSetAll (memSet m a b) (a + 1) bs

/-- The canonical form: addresses strictly rising, no byte equal to what an unlisted address reads as. -/
def memWf : List Host.Cell → Bool
  | [] => true
  | [(_, v)] => v != unlistedByte
  | (k, v) :: (k', v') :: m => v != unlistedByte && decide (k < k') && memWf ((k', v') :: m)

/-- `admit(a)` (R8, R61). -/
def admits (p : Params) (a : Nat) : Bool := p.answered.any fun r => r.covers a

/-- The transaction covers a byte whose read has side effects (R220, D42). -/
def touchesDevice (p : Params) (addr n : Nat) : Bool :=
  (List.range n).any fun i => p.devices.any fun r => r.covers (addr + i)

/-- Lane i of a read (R62): the byte at addr + i, or a free value when the host wrote that byte during the running operation (R71). An operation reads a byte at most once, and the free value is a function of the operation and the address, so that one read has one value. -/
def readLane (s : State) (addr i : Nat) : Byte :=
  if addr + i ∈ s.raced then Config.freeByte s.borrow (addr + i) else memByte s.mem (addr + i)

/-- The n lanes from an address, ascending (R63). -/
def readLanes (s : State) (addr n : Nat) : List Byte := (List.range n).map (readLane s addr)

/-- MemRead(addr, n), all or nothing (R62, R66); none is the failed read, which changes no state. -/
def memRead (s : State) (addr n : Nat) : Option (List Byte) :=
  if addr + n > 2 ^ s.params.addrW then none
  else if (List.range n).all (fun i => admits s.params (addr + i)) then some (readLanes s addr n)
  else none

/-- The addresses of a host write added to the raced ones, without repeats. -/
def addRaced : List Nat → Nat → Nat → List Nat
  | raced, _, 0 => raced
  | raced, a, n + 1 => addRaced (if a ∈ raced then raced else a :: raced) (a + 1) n

/-- A host memory write during an operation: its bytes race with the operation's reads of them (R71). -/
def noteRace (addr n : Nat) (s : State) : State := { s with raced := addRaced s.raced addr n }

/-- Some byte the operation has folded, PTR..PTR+COUNT-1, was written by the host while borrowed. -/
def foldedByteRaced (s : State) : Bool :=
  s.raced.any fun a => s.ptr.toNat ≤ a && a < s.ptr.toNat + s.count.toNat

/-- What the running operation's reads of the bytes it has folded returned, now that it is known which of them race. -/
def foldedLanes (s : State) : List Byte := readLanes s s.ptr.toNat s.count.toNat

/-- A folded byte was written by the host while borrowed, and one of the reads returned 0: a HASH_Z has its terminator there. -/
def foldedZero (s : State) : Bool := foldedByteRaced s && (foldedLanes s).any (· == 0)

/-- The bytes an operation folds once its races are settled: a HASH_Z ends before the first raw 0, which is never transformed (R127, R147). -/
def settledLanes (s : State) : List Byte :=
  if s.phase = .runZ then (foldedLanes s).takeWhile (· != 0) else foldedLanes s

/-- The result of an operation whose buffer was written while borrowed (R71: "the value that the block's read of that byte returns is any value, and the result is whatever the rules give for it"): ACC and COUNT anew from what the reads returned, each raced byte free, whether it was written before or after the sequencer read it. DEDUCED, safe (log entry 7). -/
def settleRaces (s : State) : State :=
  if foldedByteRaced s then
    { s with acc := fnv1a s.wsel s.psel (settledLanes s), count := BitVec.ofNat 64 (settledLanes s).length }
  else s

/-! Starting and ending an operation, errors. -/

/-- Any finite number of host moves may come before the sequencer's next micro-step (R239). -/
def drawTurns (s : State) : State := { s with turns := Config.freeTurns s.draws, draws := s.draws + 1 }

/-- ACC <- Seed(CFG.WSEL), COUNT <- 0 (R107, R141, R146). -/
def loadSeed (s : State) : State := { s with acc := seed s.wsel, count := 0 }

/-- CUR <- PTR, REM <- n, PHASE <- ph (R141, R146); the buffer is borrowed from here on (R71), and the host program has a STATUS read to make (R240). -/
def startOperation (ph : Phase) (n : Word64) (s : State) : State :=
  drawTurns { s with phase := ph, cur := s.ptr, rem := n, raced := [], borrow := s.draws, awaitsIdle := true }

/-- PHASE <- IDLE; CUR and REM hold no promised value afterwards (R145, R207, I20); the borrow ends (R71). -/
def endOperation (s : State) : State :=
  { s with phase := .idle
           cur := addrBits s.params (Config.freeCur s.draws)
           rem := addrBits s.params (Config.freeRem s.draws)
           raced := [], draws := s.draws + 1 }

/-- Completion of an operation (R145, R147). -/
def completeOperation (s : State) : State := setDone (endOperation (settleRaces s))

/-- Where an error is raised (R207): when a command is accepted, or in a sequencer micro-step (a run-time error). -/
inductive ErrorSite where
  | acceptance
  | microStep
  deriving DecidableEq, Repr

/-- `raise Error(code)` (R207), the one way an error is taken: a run-time error also ends the operation and leaves ACC and COUNT any value. -/
def raiseError (site : ErrorSite) (code : ErrCode) (s : State) : State :=
  let t := { s with done := false, err := true, ecode := code, busMark := s.busMark || code == .bus }
  match site with
  | .acceptance => t
  | .microStep => { endOperation t with acc := Config.freeAcc s.draws, count := Config.freeCount s.draws }

/-- Acceptance of a command other than NOP (R172): dropped while BUSY; else DONE, ERR and ECODE are cleared and the command acts. -/
def acceptCommand (body : State → State) (s : State) : State :=
  if s.busy then dropWrite s else body (clearOutcome s)

/-- The reset event `rst` (R230, R232): every register at its value of R44. The buffer memory and the outside world are not the block's state, and nothing clears the BUS mark (R206; log entry 13). The model's own fields but `raced` stay (log entries 14 and 24). -/
def applyReset (s : State) : State :=
  { State.resetOf s.params with
    busMark := s.busMark, mem := s.mem, borrow := s.borrow, inputs := s.inputs, returned := s.returned
    awaitsIdle := s.awaitsIdle, turns := s.turns, draws := s.draws }

end Sys2Proof.Machine
end

