-- ==== Sys2Proof/Machine/Accumulation.lean ====
section
/-! DEFINITION. INIT and STEP (spec/40_accumulation_core.md R107-R109). -/

namespace Sys2Proof.Machine

/-- INIT (R107): load the seed; CFG.PSEL is ignored. -/
def execInit (s : State) : Host.Outcome State Fault Refusal :=
  .next (acceptCommand (fun s => setDone (loadSeed s)) s)

/-- STEP b (R108): BAD_CFG when PSEL = 3, else fold one byte. -/
def execStep (b : Byte) (s : State) : Host.Outcome State Fault Refusal :=
  .next (acceptCommand (fun s =>
    if s.psel = .reserved then raiseError .acceptance .badCfg s
    else setDone (foldByte s b)) s)

end Sys2Proof.Machine
end

