-- ==== Sys2Proof/Machine/Buffer.lean ====
section
/-! DEFINITION. Acceptance of HASH_N and HASH_Z (spec/42_buffer_processor.md R141, R146). -/

namespace Sys2Proof.Machine

/-- HASH_N (R141), its checks in R209's order; PTR + LEN is an unbounded sum. -/
def execHashN (s : State) : Host.Outcome State Fault Refusal :=
  .next (acceptCommand (fun s =>
    if s.psel = .reserved then raiseError .acceptance .badCfg s
    else if s.ptr.toNat + s.len.toNat > 2 ^ s.params.addrW then raiseError .acceptance .range s
    else if s.len = 0 then setDone (loadSeed s)
    else startOperation .runN s.len (loadSeed s)) s)

/-- HASH_Z (R146), its checks in R209's order. -/
def execHashZ (s : State) : Host.Outcome State Fault Refusal :=
  .next (acceptCommand (fun s =>
    if s.psel = .reserved then raiseError .acceptance .badCfg s
    else if s.ptr = 0 then raiseError .acceptance .nullPtr s
    else startOperation .runZ 0 (loadSeed s)) s)

end Sys2Proof.Machine
end

