-- ==== Sys2Proof/Machine/Control.lean ====
section
/-! DEFINITION. NOP and CLR (spec/43_control.md R170, R171). -/

namespace Sys2Proof.Machine

/-- NOP (R170): accepted, no state changes; written while BUSY, dropped with OVR set (R172). -/
def execNop (s : State) : Host.Outcome State Fault Refusal :=
  .next (if s.busy then dropWrite s else s)

/-- CLR (R171): DONE, ERR, ECODE and OVR become 0. -/
def execClr (s : State) : Host.Outcome State Fault Refusal := .next (acceptCommand clearOvr s)

end Sys2Proof.Machine
end

