-- ==== Sys2Proof/Machine/Dispatch.lean ====
section
/-! DEFINITION. exec: what a host write of a command's word to CMD does (spec/43_control.md R172), one arm per command. -/

namespace Sys2Proof.Machine

open Sys2Proof

def exec (i : Instr) (s : State) : Host.Outcome State Fault Refusal :=
  match i with
  | .nop => Sys2Proof.Machine.execNop s
  | .init => Sys2Proof.Machine.execInit s
  | .step b => Sys2Proof.Machine.execStep b s
  | .hashN => Sys2Proof.Machine.execHashN s
  | .hashZ => Sys2Proof.Machine.execHashZ s
  | .clr => Sys2Proof.Machine.execClr s

end Sys2Proof.Machine
end

