-- ==== Sys2Proof/Machine/Sequencer.lean ====
section
/-! DEFINITION. The sequencer's micro-steps (spec/42_buffer_processor.md R140, R142-R148). -/

namespace Sys2Proof.Machine

/-- One read of n bytes at CUR and their folds in ascending lanes, the common part of R143 and R144. DESIGN CHOICE, safe (log entry 10): a read that covers a side-effecting byte is refused before `admit` is asked, so also where it covers an unadmitted byte. -/
def readAndFold (n : Nat) (s : State) : Host.Outcome State Fault Refusal :=
  if touchesDevice s.params s.cur.toNat n then .refused .sideEffectingRead
  else match memRead s s.cur.toNat n with
    | none => .next (raiseError .microStep .bus s)
    | some bytes =>
      let t := bytes.foldl foldByte s
      let u := { t with cur := addrBits t.params (t.cur + BitVec.ofNat 64 n)
                        rem := addrBits t.params (t.rem - BitVec.ofNat 64 n) }
      .next (if u.rem = 0 then completeOperation u else u)

/-- The batch micro-step (R143): one K-byte transaction. -/
def batchMicroStep (s : State) : Host.Outcome State Fault Refusal := readAndFold s.params.chunk.toNat s

/-- The byte micro-step of RUN_N (R144). -/
def byteMicroStep (s : State) : Host.Outcome State Fault Refusal := readAndFold 1 s

/-- The RUN_N micro-step chooses its kind from REM and K alone (R142). -/
def runNMicroStep (s : State) : Host.Outcome State Fault Refusal :=
  if 2 ≤ s.params.chunk.toNat ∧ s.params.chunk.toNat ≤ s.rem.toNat then batchMicroStep s
  else byteMicroStep s

/-- After the raw byte of a RUN_Z micro-step is read (R147): the terminator test is on the raw byte, and the scan never wraps past the top (R148). -/
def scanByte (b : Byte) (s : State) : State :=
  if b = 0 then completeOperation s
  else
    let t := foldByte s b
    if t.cur.toNat = 2 ^ t.params.addrW - 1 then raiseError .microStep .range t
    else { t with cur := addrBits t.params (t.cur + 1) }

/-- The RUN_Z micro-step (R147), always one byte. A scan of which a byte already read turns out to be 0, because the host wrote it while borrowed, ends there and reads no further (R71, R127; DEDUCED, log entry 7). DESIGN CHOICE, safe (log entry 10): a side-effecting byte is refused before `admit` is asked. -/
def runZMicroStep (s : State) : Host.Outcome State Fault Refusal :=
  if foldedZero s then .next (completeOperation s)
  else if touchesDevice s.params s.cur.toNat 1 then .refused .sideEffectingRead
  else match memRead s s.cur.toNat 1 with
    | none => .next (raiseError .microStep .bus s)
    | some bytes => .next (scanByte (bytes.headD 0) s)

/-- After a micro-step the scheduler draws how many host moves come next (R239). -/
def afterMicroStep : Host.Outcome State Fault Refusal → Host.Outcome State Fault Refusal
  | .next s => .next (drawTurns s)
  | .fault f => .fault f
  | .refused r => .refused r

/-- The sequencer's one enabled step; none while IDLE (R140), when every register keeps its value (R219). -/
def microStep (s : State) : Host.Outcome State Fault Refusal :=
  match s.phase with
  | .idle => .next s
  | .runN => afterMicroStep (runNMicroStep s)
  | .runZ => afterMicroStep (runZMicroStep s)

end Sys2Proof.Machine
end

