-- ==== Sys2Proof/Machine/Window.lean ====
section
/-! DEFINITION. The host's moves: reads and writes of the register window (spec/43_control.md R172-R178), host memory writes (spec/20_memory.md R60, R71), `wait` (spec/30_encoding.md R90) and `rst` (spec/70_reset_and_hazards.md R230). -/

namespace Sys2Proof.Machine

/-- A host write of a word to CMD (R172): while BUSY it is dropped and not decoded (R209). -/
def writeCmd (w : Word32) (s : State) : Host.Outcome State Fault Refusal :=
  if s.busy then .next (dropWrite s)
  else match decode w with
    | .cmd i => exec i s
    | .illegal _ => .next (acceptCommand (raiseError .acceptance .badCmd) s)

/-- CFG.WSEL after a write of bit 0: hardwired unless WIDTH_MODE = BOTH (R26, R173). -/
def writtenWsel (s : State) (v : Word32) : Width :=
  match s.params.widthMode with
  | .both => wselOfBit (v.getLsbD 0)
  | .only32 => s.wsel
  | .only64 => s.wsel

/-- A host write to CFG while BUSY = 0 (R173); bits [31:4] are ignored (R29). -/
def writeCfg (v : Word32) (s : State) : State :=
  { s with wsel := writtenWsel s v, psel := pselOfBits (v.extractLsb' 1 2), ie := v.getLsbD 3 }

/-- A host write of PTR while BUSY = 0; bits [63:ADDR_W] are forced to 0 (R175). -/
def writePtr (x : Word64) (s : State) : State := { s with ptr := addrBits s.params x }

/-- A host write of LEN while BUSY = 0; bits [63:ADDR_W] are forced to 0 (R175). -/
def writeLen (x : Word64) (s : State) : State := { s with len := addrBits s.params x }

/-- A write to CFG, PTR or LEN: dropped with OVR set while BUSY (R174, R175). -/
def unlessBusy (f : State → State) (s : State) : State := if s.busy then dropWrite s else f s

/-- A host write of a register (R172-R175); the read-only and reserved ones ignore it and never set OVR (R177). -/
def writeReg (r : Reg) (v : Word32) (s : State) : Host.Outcome State Fault Refusal :=
  match r with
  | .cmd => writeCmd v s
  | .cfg => .next (unlessBusy (writeCfg v) s)
  | .ptrLo => .next (unlessBusy (writePtr (setLowHalf s.ptr v)) s)
  | .ptrHi => .next (unlessBusy (writePtr (setHighHalf s.ptr v)) s)
  | .lenLo => .next (unlessBusy (writeLen (setLowHalf s.len v)) s)
  | .lenHi => .next (unlessBusy (writeLen (setHighHalf s.len v)) s)
  | .status => .next s
  | .params => .next s
  | .resultLo => .next s
  | .resultHi => .next s
  | .countLo => .next s
  | .countHi => .next s
  | .reserved30 => .next s
  | .reserved34 => .next s
  | .reserved38 => .next s
  | .reserved3C => .next s

/-- A register's current value (R21, R176): CMD and the reserved offsets read 0. -/
def regValue (s : State) : Reg → Word32
  | .cmd => 0
  | .status => statusWord s
  | .cfg => cfgWord s
  | .params => paramsWord s.params
  | .ptrLo => lowHalf s.ptr
  | .ptrHi => highHalf s.ptr
  | .lenLo => lowHalf s.len
  | .lenHi => highHalf s.len
  | .resultLo => lowHalf s.acc
  | .resultHi => highHalf s.acc
  | .countLo => lowHalf s.count
  | .countHi => highHalf s.count
  | .reserved30 => 0
  | .reserved34 => 0
  | .reserved38 => 0
  | .reserved3C => 0

/-- RESULT and COUNT, the registers that read any value while BUSY (R176). -/
def readsFreely : Reg → Bool
  | .resultLo => true
  | .resultHi => true
  | .countLo => true
  | .countHi => true
  | .cmd => false
  | .status => false
  | .cfg => false
  | .params => false
  | .ptrLo => false
  | .ptrHi => false
  | .lenLo => false
  | .lenHi => false
  | .reserved30 => false
  | .reserved34 => false
  | .reserved38 => false
  | .reserved3C => false

/-- The host program still has to see BUSY = 0 after a read of this register (R240): a STATUS read that returns BUSY = 0 shows it. -/
def awaitsAfterRead (r : Reg) (s : State) : Bool :=
  if r = .status then s.awaitsIdle && s.busy else s.awaitsIdle

/-- A host read (R176): the data goes to `returned`; a read has no effect on the block (R67), and each free read is a draw of its own. -/
def readReg (r : Reg) (s : State) : State :=
  if s.busy && readsFreely r then
    { s with returned := Config.freeRead s.draws :: s.returned, draws := s.draws + 1 }
  else { s with returned := regValue s r :: s.returned, awaitsIdle := awaitsAfterRead r s }

/-- The register a host access reaches: 4 bytes at BASE plus a multiple of 4 inside the window (R65, R88). -/
def accessedReg (p : Params) (a : Access) : Option Reg :=
  if a.size = 4 ∧ p.base ≤ a.addr then regAt (a.addr - p.base) else none

/-- A host access (R88); any other access than accessedReg allows has no step (R178). -/
def hostAccess (a : Access) (s : State) : Host.Outcome State Fault Refusal :=
  match accessedReg s.params a with
  | none => .refused .badHostAccess
  | some r =>
    match a.dir with
    | .write v => writeReg r v s
    | .read => .next (readReg r s)

/-- The host writes buffer bytes by its own means (R13, R60); while BUSY they race with the operation (R71). -/
def hostMemWrite (addr : Nat) (bytes : List Byte) (s : State) : Host.Outcome State Fault Refusal :=
  if addr + bytes.length > 2 ^ s.params.addrW then .fault .outsideBufferSpace
  else
    let t := { s with mem := memSetAll s.mem addr bytes }
    .next (if s.busy then noteRace addr bytes.length t else t)

/-- One turn of `wait` (R90): read STATUS, and go round again while BUSY. -/
def pollStatus (s : State) : State :=
  let t := readReg .status s
  if s.busy then { t with inputs := .awaitIdle :: t.inputs } else t

/-- One move of the outside world. -/
def hostMove (i : Input) (s : State) : Host.Outcome State Fault Refusal :=
  match i with
  | .access a => hostAccess a s
  | .memWrite addr bytes => hostMemWrite addr bytes s
  | .awaitIdle => .next (pollStatus s)
  | .rst => .next (applyReset s)

/-- The sequencer moves next: it has an enabled micro-step and the host's turns are used up (R140, R239). -/
def sequencerTurn (s : State) : Bool := s.busy && s.turns == 0

/-- One step of the machine: a move of the outside world or a micro-step (R140). With no move to come and PHASE = IDLE nothing changes (R219). -/
def stepOnce (s : State) : Host.Outcome State Fault Refusal :=
  match s.inputs with
  | [] => microStep s
  | i :: rest =>
    if sequencerTurn s then microStep s
    else hostMove i { s with inputs := rest, turns := s.turns - 1 }

/-- The host transaction (W, 0x00, w) as the next move, with a turn for it (R88; log entry 3). -/
def placeCommand (w : Word32) (s : State) : State :=
  { s with inputs := .access ⟨.write w, s.params.base + regOffset .cmd, 4⟩ :: s.inputs
           turns := s.turns + 1 }

end Sys2Proof.Machine
end

