-- ==== Sys2Proof/Machine/Step.lean ====
section
/-! DEFINITION. The step, and how a command is placed as its next one. -/

namespace Sys2Proof.Machine

/-- One step: the outside world's next move, or the sequencer's micro-step. -/
def step (s : State) : Host.Outcome State Fault Refusal := stepOnce s

/-- The state whose very next step is the host's write of the word to CMD: the machine fetches nothing (R24, R76), so a command arrives as a host transaction (log entry 3). -/
def State.withFetchWord (s : State) (nbits w : Nat) : State := placeCommand (BitVec.ofNat 32 (w % 2 ^ nbits)) s

end Sys2Proof.Machine
end

