-- ==== Sys2Proof/Machine/HostProgram.lean ====
section
/-! DEFINITION. Host programs: the assembly statements and pseudo-instructions with their transactions (spec/30_encoding.md R88-R91), their text form, and the disassembler (R89). -/

namespace Sys2Proof.Machine

/-- The 64-bit registers that `rd64` reads in two halves (R90). -/
inductive Reg64 where
  | ptr
  | len
  | result
  | count
  deriving DecidableEq, Repr

/-- One statement of a host program (R89, R90). A name is bound host-side to the value its read returns. -/
inductive Stmt where
  | wr (r : Reg) (v : Word32)
  | rd (r : Reg) (name : String)
  | nop
  | init
  | step (b : Byte)
  | hashN
  | hashZ
  | clr
  | cmd (w : Word32)
  | cfg (ws : Width) (pol : Policy) (ie : Bool)
  | ptr (a : Word64)
  | len (n : Word64)
  | hashT (a n : Word64)
  | hashStr (a : Word64)
  | hashMem (a n : Word64)
  | hashBytes (bs : List Byte)
  | wait
  | rd64 (x : Reg64) (name : String)
  deriving DecidableEq, Repr

/-- cfgword(WS, POL, ie) (R91). -/
def cfgWordOf (ws : Width) (pol : Policy) (ie : Bool) : Word32 :=
  ((BitVec.ofBool ie).setWidth 32 <<< 3) ||| ((pselBits pol).setWidth 32 <<< 1) ||| (wselBit ws).setWidth 32

/-- The transaction (W, offset(REG), v) (R88). -/
def wrAccess (base : Nat) (r : Reg) (v : Word32) : Input := .access ⟨.write v, base + regOffset r, 4⟩

/-- The transaction (R, offset(REG), ·) (R88). -/
def rdAccess (base : Nat) (r : Reg) : Input := .access ⟨.read, base + regOffset r, 4⟩

/-- `ptr a` (R90). -/
def expandPtr (base : Nat) (a : Word64) : List Input :=
  [wrAccess base .ptrLo (lowHalf a), wrAccess base .ptrHi (highHalf a)]

/-- `len n` (R90). -/
def expandLen (base : Nat) (n : Word64) : List Input :=
  [wrAccess base .lenLo (lowHalf n), wrAccess base .lenHi (highHalf n)]

/-- A command of the opcode map, written to CMD (R89). -/
def expandCommand (base : Nat) (i : Instr) : List Input := [wrAccess base .cmd (encode i)]

/-- The two reads of `rd64` (R90). -/
def expandRd64 (base : Nat) : Reg64 → List Input
  | .ptr => [rdAccess base .ptrLo, rdAccess base .ptrHi]
  | .len => [rdAccess base .lenLo, rdAccess base .lenHi]
  | .result => [rdAccess base .resultLo, rdAccess base .resultHi]
  | .count => [rdAccess base .countLo, rdAccess base .countHi]

/-- A statement's host moves (R89, R90). `hash.t` expands exactly like `hash.mem`. -/
def expandStmt (base : Nat) : Stmt → List Input
  | .wr r v => [wrAccess base r v]
  | .rd r _ => [rdAccess base r]
  | .nop => expandCommand base .nop
  | .init => expandCommand base .init
  | .step b => expandCommand base (.step b)
  | .hashN => expandCommand base .hashN
  | .hashZ => expandCommand base .hashZ
  | .clr => expandCommand base .clr
  | .cmd w => [wrAccess base .cmd w]
  | .cfg ws pol ie => [wrAccess base .cfg (cfgWordOf ws pol ie)]
  | .ptr a => expandPtr base a
  | .len n => expandLen base n
  | .hashT a n => expandPtr base a ++ expandLen base n ++ expandCommand base .hashN
  | .hashStr a => expandPtr base a ++ expandCommand base .hashZ
  | .hashMem a n => expandPtr base a ++ expandLen base n ++ expandCommand base .hashN
  | .hashBytes bs => expandCommand base .init ++ bs.flatMap fun b => expandCommand base (.step b)
  | .wait => [.awaitIdle]
  | .rd64 x _ => expandRd64 base x

/-- The state in which the outside world goes on with a host program (log entry 3). -/
def loadProgram (prog : List Stmt) (s : State) : State :=
  { s with inputs := s.inputs ++ prog.flatMap (expandStmt s.params.base) }

/-! The text form (R89): one statement a line, `;` starts a comment, numbers decimal or hexadecimal with `0x`. -/

/-- The value of a digit in a base up to 16. -/
def digitValue (radix : Nat) (c : Char) : Option Nat :=
  let n := c.toNat
  let v := if 48 ≤ n ∧ n ≤ 57 then n - 48
    else if 65 ≤ n ∧ n ≤ 70 then n - 55
    else if 97 ≤ n ∧ n ≤ 102 then n - 87
    else 16
  if v < radix then some v else none

/-- A digit string's value, going on from a value already read. -/
def digitsValue (radix : Nat) : Nat → List Char → Option Nat
  | acc, [] => some acc
  | acc, c :: cs =>
    match digitValue radix c with
    | some v => digitsValue radix (acc * radix + v) cs
    | none => none

/-- A number: hexadecimal after `0x`, else decimal; none for no digits or a wrong one. -/
def parseNumber : List Char → Option Nat
  | '0' :: 'x' :: d :: ds => digitsValue 16 0 (d :: ds)
  | d :: ds => digitsValue 10 0 (d :: ds)
  | [] => none

/-- A number that fits in w bits; none where it does not. -/
def parseBits (w : Nat) (t : String) : Option (BitVec w) :=
  match parseNumber t.toList with
  | some n => if n < 2 ^ w then some (BitVec.ofNat w n) else none
  | none => none

/-- A register by its name (R21), or by its offset in the window. DESIGN CHOICE, safe (log entry 23): R89 takes R21's names, under which the reserved registers have none; the offset form is allowed for every register. -/
def parseReg (t : String) : Option Reg :=
  if t = "CMD" then some .cmd else if t = "STATUS" then some .status
  else if t = "CFG" then some .cfg else if t = "PARAMS" then some .params
  else if t = "PTR_LO" then some .ptrLo else if t = "PTR_HI" then some .ptrHi
  else if t = "LEN_LO" then some .lenLo else if t = "LEN_HI" then some .lenHi
  else if t = "RESULT_LO" then some .resultLo else if t = "RESULT_HI" then some .resultHi
  else if t = "COUNT_LO" then some .countLo else if t = "COUNT_HI" then some .countHi
  else match parseNumber t.toList with
    | some n => regAt n
    | none => none

/-- A 64-bit register by its name (R90). -/
def parseReg64 (t : String) : Option Reg64 :=
  if t = "PTR" then some .ptr else if t = "LEN" then some .len
  else if t = "RESULT" then some .result else if t = "COUNT" then some .count else none

/-- w32 or w64 (R91). -/
def parseWidth (t : String) : Option Width :=
  if t = "w32" then some .w32 else if t = "w64" then some .w64 else none

/-- id, fold, foldg or psel3 (R91). -/
def parsePolicy (t : String) : Option Policy :=
  if t = "id" then some .identity else if t = "fold" then some .foldCompat
  else if t = "foldg" then some .foldGuarded else if t = "psel3" then some .reserved else none

/-- A list of bytes; none where one is no byte. -/
def parseBytes : List String → Option (List Byte)
  | [] => some []
  | t :: ts =>
    match parseBits 8 t, parseBytes ts with
    | some b, some bs => some (b :: bs)
    | _, _ => none

/-- `cfg WS, POL[, ie]` (R90, R91). -/
def parseCfg (ws pol ie : String) : Option Stmt :=
  match parseWidth ws, parsePolicy pol, parseBits 1 ie with
  | some w, some p, some e => some (.cfg w p (e == 1))
  | _, _, _ => none

/-- The statement of a line's words (R89, R90); none where it is no statement. -/
def parseWords : List String → Option Stmt
  | [] => none
  | op :: args =>
    match args with
    | [] =>
      if op = "nop" then some .nop else if op = "init" then some .init
      else if op = "hash.n" then some .hashN else if op = "hash.z" then some .hashZ
      else if op = "clr" then some .clr else if op = "wait" then some .wait else none
    | [x] =>
      if op = "step" then (parseBits 8 x).map .step
      else if op = ".cmd" then (parseBits 32 x).map .cmd
      else if op = "ptr" then (parseBits 64 x).map .ptr
      else if op = "len" then (parseBits 64 x).map .len
      else if op = "hash.str" then (parseBits 64 x).map .hashStr
      else if op = "hash.bytes" then (parseBytes [x]).map .hashBytes
      else none
    | [x, y] =>
      if op = "wr" then (parseReg x).bind fun r => (parseBits 32 y).map (.wr r)
      else if op = "cfg" then parseCfg x y "0"
      else if op = "hash.t" then (parseBits 64 x).bind fun a => (parseBits 64 y).map (.hashT a)
      else if op = "hash.mem" then (parseBits 64 x).bind fun a => (parseBits 64 y).map (.hashMem a)
      else if op = "hash.bytes" then (parseBytes [x, y]).map .hashBytes
      else none
    | [x, y, z] =>
      if op = "rd" ∧ y = "->" then (parseReg x).map fun r => .rd r z
      else if op = "rd64" ∧ y = "->" then (parseReg64 x).map fun r => .rd64 r z
      else if op = "cfg" then parseCfg x y z
      else if op = "hash.bytes" then (parseBytes [x, y, z]).map .hashBytes
      else none
    | x :: y :: z :: u :: more =>
      if op = "hash.bytes" then (parseBytes (x :: y :: z :: u :: more)).map .hashBytes else none

/-- A character between words: space, tab, comma, carriage return. -/
def isSeparator (c : Char) : Bool := c == ' ' || c == '\t' || c == ',' || c == '\r'

/-- The words of a line up to its comment; the second argument holds the word being read, reversed. -/
def lineWords : List Char → List Char → List String
  | [], w => if w = [] then [] else [String.ofList w.reverse]
  | c :: cs, w =>
    if c = ';' then (if w = [] then [] else [String.ofList w.reverse])
    else if isSeparator c then
      (if w = [] then lineWords cs [] else String.ofList w.reverse :: lineWords cs [])
    else lineWords cs (c :: w)

/-- The lines of a text; the second argument holds the line being read, reversed. -/
def textLines : List Char → List Char → List (List Char)
  | [], l => [l.reverse]
  | c :: cs, l => if c = '\n' then l.reverse :: textLines cs [] else textLines cs (c :: l)

/-- The statements of a list of lines; an empty or comment line holds none. -/
def parseLines : List (List Char) → Option (List Stmt)
  | [] => some []
  | l :: ls =>
    match lineWords l [] with
    | [] => parseLines ls
    | w :: ws =>
      match parseWords (w :: ws), parseLines ls with
      | some st, some sts => some (st :: sts)
      | _, _ => none

/-- A host program from its text; none where a line is no statement. -/
def parseProgram (text : String) : Option (List Stmt) := parseLines (textLines text.toList [])

/-! The disassembler (R89). -/

/-- One hexadecimal digit, in upper case: DESIGN CHOICE, safe (log entry 23), since R89 does not say. -/
def hexDigit (n : Nat) : Char := "0123456789ABCDEF".toList.getD n '0'

/-- A number in k hexadecimal digits, the highest first. -/
def hexDigits : Nat → Nat → List Char
  | 0, _ => []
  | k + 1, n => hexDigit (n / 16 ^ k % 16) :: hexDigits k n

/-- A command word as text: decode's mnemonic, STEP with its byte, an illegal word as `.cmd` (R89). -/
def disassemble (w : Word32) : String :=
  match decode w with
  | .cmd .nop => "nop"
  | .cmd .init => "init"
  | .cmd (.step b) => "step 0x" ++ String.ofList (hexDigits 2 b.toNat)
  | .cmd .hashN => "hash.n"
  | .cmd .hashZ => "hash.z"
  | .cmd .clr => "clr"
  | .illegal v => ".cmd 0x" ++ String.ofList (hexDigits 8 v.toNat)

end Sys2Proof.Machine
end

