-- ==== Sys2Proof/Safety.lean ====
section
/-! DEFINITION. The terms claims are stated in: the observation at the end of a host program (spec/70_reset_and_hazards.md R240), a run free of the BUS mark (spec/60_exceptions.md R206), the invariants every step keeps, and what a command or micro-step leaves unchanged. -/

namespace Sys2Proof.Machine

/-! The end of a run. -/

/-- What is observed at the end of a host program (R240). -/
structure Observation where
  status : Word32
  cfg : Word32
  ptr : Word64
  len : Word64
  result : Word64
  count : Word64
  busMark : Bool
  deriving DecidableEq, Repr

/-- The observation of a state (R240). -/
def State.observe (s : State) : Observation :=
  ⟨statusWord s, cfgWord s, s.ptr, s.len, s.acc, s.count, s.busMark⟩

/-- The host program has ended (R240): no move to come, and a STATUS read has returned BUSY = 0 since the last operation was started (no operation runs then: Inv.awaits). -/
def State.ended (s : State) : Bool := s.inputs == [] && !s.awaitsIdle

/-- No BUS error has happened: the premise R206 asks of a claim about a program. -/
def State.safe (s : State) : Bool := !s.busMark

/-! Buffers. -/

/-- The bytes the memory holds at a, a+1, ..., a+n-1. -/
def bytesAt (m : List Host.Cell) (a n : Nat) : List Byte := (List.range n).map fun i => memByte m (a + i)

/-- The memory answers every byte of a range (R61). -/
def admitsRange (p : Params) (a n : Nat) : Prop := ∀ i, i < n → admits p (a + i) = true

/-- No byte of a range has a read with side effects (D42). -/
def quietRange (p : Params) (a n : Nat) : Prop := ∀ i, i < n → p.devices.any (fun r => r.covers (a + i)) = false

/-- The number of micro-steps of a HASH_N of n bytes with chunk size k (R149). -/
def microStepCount (k n : Nat) : Nat := if 2 ≤ k then n / k + n % k else n

/-! Invariants. -/

/-- CFG.WSEL has its hardwired value (R26). -/
def State.hardwired (s : State) : Bool :=
  match s.params.widthMode with
  | .both => true
  | .only32 => s.wsel == .w32
  | .only64 => s.wsel == .w64

/-- What holds between the fields of every reachable state. -/
structure Inv (s : State) : Prop where
  /-- R8's bound on ADDR_W. -/
  params : s.params.wf = true
  /-- R36. -/
  ptrBits : s.ptr.toNat < 2 ^ s.params.addrW
  /-- R37. -/
  lenBits : s.len.toNat < 2 ^ s.params.addrW
  /-- R42. -/
  curBits : s.cur.toNat < 2 ^ s.params.addrW
  /-- R42. -/
  remBits : s.rem.toNat < 2 ^ s.params.addrW
  /-- R26. -/
  width : s.hardwired = true
  /-- R33: ERR and DONE are never both 1. -/
  outcome : s.done = true → s.err = false
  /-- R30: ECODE is 0 exactly when ERR = 0. -/
  ecode : s.ecode = .none ↔ s.err = false
  /-- The memory's canonical form. -/
  mem : memWf s.mem = true
  /-- The raced addresses hold no repeat. -/
  racedNodup : s.raced.Nodup
  /-- Nothing is borrowed while IDLE (R71). -/
  idleRaced : s.busy = false → s.raced = []
  /-- R45: DONE and ERR are clear while an operation runs, and it runs with a policy (R124). -/
  busyClear : s.busy = true → s.done = false ∧ s.err = false ∧ s.psel ≠ .reserved
  /-- RUN_N: bytes are left, CUR..CUR+REM-1 is the rest of PTR..PTR+LEN-1 inside the address space, COUNT counts those folded (R24, R39, R141, R144). -/
  runN : s.phase = .runN → 0 < s.rem.toNat ∧ s.ptr.toNat ≤ s.cur.toNat ∧
    s.cur.toNat + s.rem.toNat = s.ptr.toNat + s.len.toNat ∧
    s.ptr.toNat + s.len.toNat ≤ 2 ^ s.params.addrW ∧ s.count.toNat = s.cur.toNat - s.ptr.toNat
  /-- RUN_Z: REM holds 0 (R42), PTR is not null (R204), COUNT counts the bytes folded. -/
  runZ : s.phase = .runZ → s.rem = 0 ∧ 0 < s.ptr.toNat ∧ s.ptr.toNat ≤ s.cur.toNat ∧
    s.count.toNat = s.cur.toNat - s.ptr.toNat
  /-- R22: ACC[63:32] = 0 during an operation with W = 32. -/
  accWidth : s.busy = true → s.wsel = .w32 → s.acc.toNat < 2 ^ 32
  /-- R206: a BUS error leaves the mark. -/
  marked : s.ecode = .bus → s.busMark = true
  /-- R240: while an operation runs, no STATUS read has returned BUSY = 0 since its start. -/
  awaits : s.busy = true → s.awaitsIdle = true

/-- The running operation has already read the byte: it lies in PTR..CUR-1. -/
def consumed (s : State) (a : Nat) : Bool := s.ptr.toNat ≤ a && a < s.cur.toNat

/-- The host has written no byte the running operation has already read. -/
def unracedSoFar (s : State) : Prop := ∀ a ∈ s.raced, consumed s a = false

/-- A byte the running scan has already read was written by the host since, and one of its reads returned 0, so that the scan has its terminator there (R71; log entry 7). -/
def scanEnded (s : State) : Prop :=
  (∃ a ∈ s.raced, consumed s a = true) ∧
    ∃ i, i < s.cur.toNat - s.ptr.toNat ∧ readLane s s.ptr.toNat i = 0

/-- While an operation runs and no byte it has read is raced, ACC is the reference hash of the bytes read so far, and a HASH_Z has read no zero byte (R110, R150). -/
def HashInv (s : State) : Prop :=
  s.busy = true → unracedSoFar s →
    s.acc = fnv1a s.wsel s.psel (bytesAt s.mem s.ptr.toNat (s.cur.toNat - s.ptr.toNat)) ∧
    (s.phase = .runZ → ∀ b ∈ bytesAt s.mem s.ptr.toNat (s.cur.toNat - s.ptr.toNat), b ≠ 0)

/-! Frames. -/

/-- CFG, PTR, LEN and the parameters are unchanged. -/
def sameOperands (s t : State) : Prop :=
  t.params = s.params ∧ t.wsel = s.wsel ∧ t.psel = s.psel ∧ t.ie = s.ie ∧ t.ptr = s.ptr ∧ t.len = s.len

/-- Every byte of the buffer memory reads as before. -/
def sameMemory (s t : State) : Prop := ∀ a, memByte t.mem a = memByte s.mem a

/-- The outside world is unchanged: its moves to come and the data its reads returned. -/
def sameWorld (s t : State) : Prop := t.inputs = s.inputs ∧ t.returned = s.returned

/-- PHASE, CUR, REM and the borrowed bytes are unchanged, and so are the scheduler, the draws and what the host has seen of BUSY. -/
def sameSequencer (s t : State) : Prop :=
  t.phase = s.phase ∧ t.cur = s.cur ∧ t.rem = s.rem ∧ t.raced = s.raced ∧ t.borrow = s.borrow ∧
    t.awaitsIdle = s.awaitsIdle ∧ t.turns = s.turns ∧ t.draws = s.draws

/-! Host transactions (R88). -/

/-- The transaction (W, off, v). -/
def hostWrite (off : Nat) (v : Word32) (s : State) : Host.Outcome State Fault Refusal :=
  hostAccess ⟨.write v, s.params.base + off, 4⟩ s

/-- The transaction (R, off, ·). -/
def hostRead (off : Nat) (s : State) : Host.Outcome State Fault Refusal :=
  hostAccess ⟨.read, s.params.base + off, 4⟩ s

/-- The outside world's next move is this one, and it is its turn. -/
def nextMove (s : State) (i : Input) (rest : List Input) : Prop :=
  s.inputs = i :: rest ∧ sequencerTurn s = false

/-- The state a move of the outside world acts on: the move taken from the list, one turn used. -/
def taken (s : State) (rest : List Input) : State := { s with inputs := rest, turns := s.turns - 1 }

end Sys2Proof.Machine
end

