-- ==== Sys2Proof/Certificates/Slice0/Obligations.lean ====
section
/-! DEFINITION. The statements for the provers, each from the spec's numbered rules. -/

open Sys2Proof Sys2Proof.Machine

/-! ## Encoding -/

/-- The words of 95_test_vectors.md TV-E, written out bit by bit from R80 and R81, decode as it lists them. -/
def Obligations.SpecWordsDecode : Prop :=
  decode 0x00000000#32 = .cmd .nop ∧ decode 0x00000001#32 = .cmd .init ∧
  decode 0x00000002#32 = .cmd (.step 0x00#8) ∧ decode 0x00006102#32 = .cmd (.step 0x61#8) ∧
  decode 0x0000FF02#32 = .cmd (.step 0xFF#8) ∧ decode 0x00000003#32 = .cmd .hashN ∧
  decode 0x00000004#32 = .cmd .hashZ ∧ decode 0x00000005#32 = .cmd .clr ∧
  decode 0x00000006#32 = .illegal 0x00000006#32 ∧ decode 0x0000000F#32 = .illegal 0x0000000F#32 ∧
  decode 0x00000010#32 = .illegal 0x00000010#32 ∧ decode 0x00000012#32 = .illegal 0x00000012#32 ∧
  decode 0x00010002#32 = .illegal 0x00010002#32 ∧ decode 0x00000100#32 = .illegal 0x00000100#32 ∧
  decode 0x00000101#32 = .illegal 0x00000101#32 ∧ decode 0x80000003#32 = .illegal 0x80000003#32

/-- R84: each command's words exactly, ILLEGAL(w) for every other word, and an illegal word accepted fails with BAD_CMD. -/
def Obligations.DecodeFollowsOpcodeMap : Prop :=
  ∀ w : Word32,
    (decode w = .cmd .nop ↔ w = 0x00000000#32) ∧
    (decode w = .cmd .init ↔ w = 0x00000001#32) ∧
    (∀ b, decode w = .cmd (.step b) ↔ w &&& 0xFFFF00FF#32 = 0x00000002#32 ∧ b = w.extractLsb' 8 8) ∧
    (decode w = .cmd .hashN ↔ w = 0x00000003#32) ∧
    (decode w = .cmd .hashZ ↔ w = 0x00000004#32) ∧
    (decode w = .cmd .clr ↔ w = 0x00000005#32) ∧
    ((∃ i, decode w = .cmd i) ∨ decode w = .illegal w) ∧
    (∀ s : State, decode w = .illegal w → s.busy = false →
      hostWrite 0x00 w s = .next { s with done := false, err := true, ecode := .badCmd })

/-- R85: the illegal words by their fields; accepting one raises BAD_CMD; 0x00000000 is the only word whose acceptance never changes anything. -/
def Obligations.IllegalWordsByFields : Prop :=
  (∀ w : Word32, decode w = .illegal w ↔
    (6 ≤ (w.extractLsb' 0 4).toNat ∨ w.extractLsb' 4 4 ≠ 0#4 ∨ w.extractLsb' 16 16 ≠ 0#16 ∨
      (w.extractLsb' 8 8 ≠ 0#8 ∧ w.extractLsb' 0 4 ≠ 2#4))) ∧
  (∀ (w : Word32) (s : State), decode w = .illegal w → s.busy = false →
    hostWrite 0x00 w s = .next { s with done := false, err := true, ecode := .badCmd }) ∧
  (∀ w : Word32, (∀ s : State, s.busy = false → hostWrite 0x00 w s = .next s) ↔ w = 0x00000000#32)

/-- Decode and encode agree both ways (R80, R81, R84): no bit of an encoding is dropped, and each word has one meaning. -/
def Obligations.DecodeEncodeRoundTrip : Prop :=
  (∀ i : Instr, i.wf = true → decode (encode i) = .cmd i) ∧
  (∀ (w : Word32) (i : Instr), decode w = .cmd i → encode i = w ∧ i.wf = true)

/-- A step in which the host writes a word to CMD runs the command the word decodes to (R76, R172), around which the step only takes the move from the list and uses a turn; an illegal word is dropped while BUSY and else raises BAD_CMD. The moves, the turns and withFetchWord are the model's own (log entries 3 and 4). -/
def Obligations.StepRunsDecodedCommand : Prop :=
  (∀ (s : State) (w : Word32) (rest : List Input) (i : Instr),
    nextMove s (.access ⟨.write w, s.params.base + 0x00, 4⟩) rest → decode w = .cmd i →
    step s = exec i (taken s rest)) ∧
  (∀ (s : State) (w : Word32) (rest : List Input),
    nextMove s (.access ⟨.write w, s.params.base + 0x00, 4⟩) rest → decode w = .illegal w →
    step s = .next (if s.busy then { taken s rest with ovr := true }
      else { taken s rest with done := false, err := true, ecode := .badCmd })) ∧
  (∀ (s : State) (nbits w : Nat) (i : Instr), decodeTableWord nbits w = some i →
    step (s.withFetchWord nbits w) = exec i s)

/-! ## The datapath -/

/-- R100-R103: the seed and prime of each width, on the one select CFG.WSEL. -/
def Obligations.SeedAndPrimeMuxes : Prop :=
  seed .w32 = 0x00000000811C9DC5#64 ∧ seed .w64 = 0xCBF29CE484222325#64 ∧
  (prime .w32).toNat = 16777619 ∧ (prime .w64).toNat = 1099511628211 ∧
  wselBit .w32 = 0 ∧ wselBit .w64 = 1

/-- R104, R105, R109: the step on unbounded naturals, the XOR first, then the product mod 2^W; only the low W bits of the accumulator are read. -/
def Obligations.StepIsXorThenMultiply : Prop :=
  ∀ (p : Policy) (a : Word64) (b : Byte),
    (stepHash .w32 p a b).toNat = ((a.toNat % 2 ^ 32) ^^^ (transform p b).toNat) * 16777619 % 2 ^ 32 ∧
    (stepHash .w64 p a b).toNat = (a.toNat ^^^ (transform p b).toNat) * 1099511628211 % 2 ^ 64

/-- R121, R122, R123: the three policies, and that reset selects IDENTITY. -/
def Obligations.ByteTransforms : Prop :=
  (∀ b : Byte,
    transform .identity b = b ∧
    (transform .foldCompat b).toNat = (b.toNat + 0x20) % 256 ∧
    (transform .foldGuarded b).toNat = if 0x41 ≤ b.toNat ∧ b.toNat ≤ 0x5A then b.toNat + 0x20 else b.toNat) ∧
  (∀ s : State, (applyReset s).psel = .identity) ∧
  pselBits .identity = 0 ∧ pselBits .foldCompat = 1 ∧ pselBits .foldGuarded = 2

/-- R125 and R126: the case-fold property, where the folds differ, the notable values, and which fold is a bijection. -/
def Obligations.CaseFoldProperties : Prop :=
  (∀ b : Byte, 0x41#8 ≤ b → b ≤ 0x5A#8 →
    transform .foldCompat b = b + 0x20#8 ∧ transform .foldGuarded b = b + 0x20#8 ∧
    transform .identity (b + 0x20#8) = b + 0x20#8) ∧
  (∀ b : Byte, transform .foldCompat b ≠ b) ∧
  (∀ b : Byte, ¬(0x41#8 ≤ b ∧ b ≤ 0x5A#8) → transform .foldGuarded b = b) ∧
  transform .foldCompat 0x00#8 = 0x20#8 ∧ transform .foldCompat 0x20#8 = 0x40#8 ∧
  transform .foldCompat 0x61#8 = 0x81#8 ∧ transform .foldCompat 0xDF#8 = 0xFF#8 ∧
  transform .foldCompat 0xE0#8 = 0x00#8 ∧ transform .foldCompat 0xFF#8 = 0x1F#8 ∧
  Function.Bijective (transform .foldCompat) ∧
  transform .foldGuarded 0x41#8 = 0x61#8 ∧ transform .foldGuarded 0x61#8 = 0x61#8

/-! ## Commands -/

/-- R107: INIT's word, and that an accepted INIT loads the seed of the width, zeroes COUNT and sets DONE, whatever PSEL is; nothing else changes. -/
def Obligations.InitLoadsSeed : Prop :=
  ∀ s : State, s.busy = false →
    hostWrite 0x00 0x00000001#32 s = exec .init s ∧
    exec .init s = .next { s with
      acc := (match s.wsel with
        | .w32 => 0x00000000811C9DC5#64
        | .w64 => 0xCBF29CE484222325#64)
      count := 0, done := true, err := false, ecode := .none }

/-- R108: STEP's words, and that an accepted STEP folds its byte into ACC and counts it, or fails with BAD_CFG and leaves ACC and COUNT; nothing else changes. -/
def Obligations.StepFoldsItsByte : Prop :=
  ∀ (s : State) (b : Byte), s.busy = false →
    hostWrite 0x00 (0x00000002#32 ||| (b.setWidth 32 <<< 8)) s = exec (.step b) s ∧
    (s.psel = .reserved →
      exec (.step b) s = .next { s with done := false, err := true, ecode := .badCfg }) ∧
    (s.psel ≠ .reserved → ∃ t : State, exec (.step b) s = .next t ∧
      (s.wsel = .w32 → t.acc.toNat =
        ((s.acc.toNat % 2 ^ 32) ^^^ (transform s.psel b).toNat) * 16777619 % 2 ^ 32) ∧
      (s.wsel = .w64 → t.acc.toNat =
        (s.acc.toNat ^^^ (transform s.psel b).toNat) * 1099511628211 % 2 ^ 64) ∧
      t.count.toNat = (s.count.toNat + 1) % 2 ^ 64 ∧
      t = { s with acc := t.acc, count := t.count, done := true, err := false, ecode := .none })

/-- R170: NOP's word; an accepted NOP changes no state; written while BUSY it is dropped and sets OVR; any other word with OP = 0 is not NOP and fails with BAD_CMD. -/
def Obligations.NopChangesNothing : Prop :=
  ∀ s : State,
    (s.busy = false → exec .nop s = .next s ∧ hostWrite 0x00 0x00000000#32 s = .next s) ∧
    (s.busy = true → exec .nop s = .next { s with ovr := true } ∧
      hostWrite 0x00 0x00000000#32 s = .next { s with ovr := true }) ∧
    (∀ w : Word32, s.busy = false → w.extractLsb' 0 4 = 0#4 → w ≠ 0#32 →
      hostWrite 0x00 w s = .next { s with done := false, err := true, ecode := .badCmd })

/-- R171: CLR's word; an accepted CLR clears DONE, ERR, ECODE and OVR, so `irq` falls; nothing else changes. While BUSY it is dropped and cannot clear OVR. -/
def Obligations.ClrClearsStatus : Prop :=
  ∀ s : State,
    hostWrite 0x00 0x00000005#32 s = exec .clr s ∧
    (s.busy = false → exec .clr s = .next { s with done := false, err := false, ecode := .none, ovr := false } ∧
      ∀ t, exec .clr s = .next t → t.irq = false) ∧
    (s.busy = true → exec .clr s = .next { s with ovr := true })

/-- R172: every CMD write. While BUSY it is dropped; else an illegal word raises BAD_CMD, a command acts, and every command but NOP acts on a state in which DONE, ERR and ECODE are cleared; only HASH_N with LEN ≠ 0 and HASH_Z go on after their write. -/
def Obligations.CmdWriteIsAccepted : Prop :=
  ∀ (w : Word32) (s : State),
    (s.busy = true → hostWrite 0x00 w s = .next { s with ovr := true }) ∧
    (s.busy = false → decode w = .illegal w →
      hostWrite 0x00 w s = .next { s with done := false, err := true, ecode := .badCmd }) ∧
    (∀ i, s.busy = false → decode w = .cmd i → hostWrite 0x00 w s = exec i s) ∧
    (s.busy = false → decode w = .cmd .nop → hostWrite 0x00 w s = .next s) ∧
    (∀ i, s.busy = false → i ≠ .nop →
      exec i s = exec i { s with done := false, err := false, ecode := .none }) ∧
    (∀ i t, s.busy = false → exec i s = .next t → t.busy = true → (i = .hashN ∧ s.len ≠ 0) ∨ i = .hashZ)

/-- R141: an accepted HASH_N. BAD_CFG, then RANGE on the unbounded sum, leave ACC and COUNT; LEN = 0 completes at once at any PTR; else BUSY is set and CUR, REM copy PTR, LEN. Nothing else of the block changes; the borrow starts, the scheduler draws and the host program has a STATUS read to make (the model's own fields, log entries 4, 7 and 24). -/
def Obligations.HashNAcceptance : Prop :=
  ∀ s : State, s.busy = false →
    (s.psel = .reserved → exec .hashN s = .next { s with done := false, err := true, ecode := .badCfg }) ∧
    (s.psel ≠ .reserved → 2 ^ s.params.addrW < s.ptr.toNat + s.len.toNat →
      exec .hashN s = .next { s with done := false, err := true, ecode := .range }) ∧
    (s.psel ≠ .reserved → s.ptr.toNat + s.len.toNat ≤ 2 ^ s.params.addrW → s.len = 0 →
      exec .hashN s = .next { s with
        acc := (match s.wsel with
          | .w32 => 0x00000000811C9DC5#64
          | .w64 => 0xCBF29CE484222325#64)
        count := 0, done := true, err := false, ecode := .none }) ∧
    (s.psel ≠ .reserved → s.ptr.toNat + s.len.toNat ≤ 2 ^ s.params.addrW → s.len ≠ 0 →
      ∃ t : State, exec .hashN s = .next t ∧ t.busy = true ∧
        t = { s with
          acc := (match s.wsel with
            | .w32 => 0x00000000811C9DC5#64
            | .w64 => 0xCBF29CE484222325#64)
          count := 0, done := false, err := false, ecode := .none
          phase := .runN, cur := s.ptr, rem := s.len
          raced := [], borrow := t.borrow, awaitsIdle := true, turns := t.turns, draws := t.draws })

/-- R146: an accepted HASH_Z. BAD_CFG, then NULL_PTR, leave ACC and COUNT; else BUSY is set, CUR copies PTR and REM is 0; LEN is not read. Nothing else of the block changes; `raced`, `borrow`, `awaitsIdle`, `turns` and `draws` are the model's own fields (log entries 4, 5, 7 and 24). -/
def Obligations.HashZAcceptance : Prop :=
  ∀ s : State, s.busy = false →
    (s.psel = .reserved → exec .hashZ s = .next { s with done := false, err := true, ecode := .badCfg }) ∧
    (s.psel ≠ .reserved → s.ptr = 0 →
      exec .hashZ s = .next { s with done := false, err := true, ecode := .nullPtr }) ∧
    (s.psel ≠ .reserved → s.ptr ≠ 0 →
      ∃ t : State, exec .hashZ s = .next t ∧ t.busy = true ∧
        t = { s with
          acc := (match s.wsel with
            | .w32 => 0x00000000811C9DC5#64
            | .w64 => 0xCBF29CE484222325#64)
          count := 0, done := false, err := false, ecode := .none
          phase := .runZ, cur := s.ptr, rem := 0
          raced := [], borrow := t.borrow, awaitsIdle := true, turns := t.turns, draws := t.draws })

/-! ## Errors -/

/-- R203: BAD_CFG exactly for STEP, HASH_N and HASH_Z accepted with PSEL = 3; INIT, NOP and CLR never raise it. -/
def Obligations.BadCfgOnReservedPolicy : Prop :=
  (∀ (i : Instr) (s : State), s.busy = false → s.psel = .reserved →
    ((∃ b, i = .step b) ∨ i = .hashN ∨ i = .hashZ) →
    exec i s = .next { s with done := false, err := true, ecode := .badCfg }) ∧
  (∀ (i : Instr) (s t : State), s.busy = false → exec i s = .next t → t.ecode = .badCfg →
    (s.psel = .reserved ∧ ((∃ b, i = .step b) ∨ i = .hashN ∨ i = .hashZ)) ∨ (i = .nop ∧ t = s))

/-- R204: NULL_PTR for HASH_Z with PTR = 0, nothing read and ACC and COUNT unchanged; no other command and no other PTR raises it, so HASH_N with PTR = 0 is not an error. -/
def Obligations.NullPtrOnlyForHashZ : Prop :=
  (∀ s : State, s.busy = false → s.psel ≠ .reserved → s.ptr = 0 →
    exec .hashZ s = .next { s with done := false, err := true, ecode := .nullPtr }) ∧
  (∀ s : State, s.busy = false → s.psel ≠ .reserved → s.ptr = 0 → s.len.toNat ≤ 2 ^ s.params.addrW →
    ∃ t, exec .hashN s = .next t ∧ t.err = false) ∧
  (∀ (i : Instr) (s t : State), s.busy = false → exec i s = .next t → t.ecode = .nullPtr →
    (i = .hashZ ∧ s.ptr = 0 ∧ s.psel ≠ .reserved) ∨ (i = .nop ∧ t = s)) ∧
  (∀ (w : Word32) (s t : State), s.busy = false → decode w = .illegal w → hostWrite 0x00 w s = .next t →
    t.ecode ≠ .nullPtr) ∧
  (∀ s t : State, s.busy = true → microStep s = .next t → t.ecode = .nullPtr → s.ecode = .nullPtr)

/-- R209: a CMD write reports the first check that applies: BUSY, illegal word, PSEL = 3, null PTR, RANGE; with none, no error. In a micro-step BUS comes before RANGE: where a scan at the top of the address space, where RANGE would follow its fold, reads an unadmitted byte, BUS is the one error. A scan that a byte written by the host while borrowed has ended makes no such read (R71; log entry 7), and a read of a side-effecting byte is refused (log entry 10). -/
def Obligations.FirstCheckIsReported : Prop :=
  (∀ (w : Word32) (s t : State), hostWrite 0x00 w s = .next t →
    (s.busy = true → t = { s with ovr := true }) ∧
    (s.busy = false → decode w = .illegal w → t.err = true ∧ t.ecode = .badCmd) ∧
    (∀ i, s.busy = false → decode w = .cmd i → i ≠ .nop →
      (t.ecode =
        if s.psel = .reserved ∧ i ≠ .init ∧ i ≠ .clr then .badCfg
        else if i = .hashZ ∧ s.ptr = 0 then .nullPtr
        else if i = .hashN ∧ 2 ^ s.params.addrW < s.ptr.toNat + s.len.toNat then .range
        else .none) ∧
      (t.err = false ↔ t.ecode = .none))) ∧
  (∀ s t : State, Inv s → s.phase = .runZ → ¬ scanEnded s → s.cur.toNat = 2 ^ s.params.addrW - 1 →
    admits s.params s.cur.toNat = false → microStep s = .next t → t.err = true ∧ t.ecode = .bus)

/-- R207: `raise Error(code)`. At acceptance ACC, COUNT and PHASE are unchanged; in a micro-step the operation ends and ACC and COUNT are free values. CFG, PTR, LEN and OVR are never changed, and BUS sets the fault mark. That the free values are Config's constants at the counter `draws` is the model's choice (log entry 5), and so is the list of raced bytes (log entry 7). -/
def Obligations.RaiseErrorEffect : Prop :=
  ∀ (code : ErrCode) (s : State),
    raiseError .acceptance code s =
      { s with done := false, err := true, ecode := code, busMark := s.busMark || decide (code = .bus) } ∧
    ∃ t : State, raiseError .microStep code s = t ∧
      t.acc = Config.freeAcc s.draws ∧ t.count = Config.freeCount s.draws ∧ t.busy = false ∧
      t = { s with
        done := false, err := true, ecode := code, busMark := s.busMark || decide (code = .bus)
        phase := .idle, acc := t.acc, count := t.count, cur := t.cur, rem := t.rem
        raced := [], draws := t.draws }

/-- R206: BUS sets the fault mark and nothing clears it: a step keeps a mark that is set, and only a micro-step that ends with BUS sets it. -/
def Obligations.BusMarkIsNeverCleared : Prop :=
  ∀ s t : State, step s = .next t →
    (s.busMark = true → t.busMark = true) ∧
    (s.busMark = false → t.busMark = true → s.busy = true ∧ t.busy = false ∧ t.err = true ∧ t.ecode = .bus)

/-! ## Frames and whole-machine rules -/

/-- What each command leaves unchanged: the operands, every byte of memory, the outside world and the BUS mark always; the sequencer unless a HASH starts; ACC and COUNT for NOP, CLR, a dropped write and every error (after an earlier error too, R212); OVR unless the write is dropped or a CLR is accepted. -/
def Obligations.CommandFrame : Prop :=
  ∀ (i : Instr) (s t : State), exec i s = .next t →
    sameOperands s t ∧ sameMemory s t ∧ sameWorld s t ∧ t.busMark = s.busMark ∧
    (t.busy = s.busy → sameSequencer s t) ∧
    (i = .nop ∨ i = .clr ∨ s.busy = true ∨ t.err = true → t.acc = s.acc ∧ t.count = s.count) ∧
    (s.busy = false → i ≠ .clr → t.ovr = s.ovr) ∧
    (s.busy = true → t = { s with ovr := true })

/-- What a micro-step leaves unchanged: the operands, every byte of memory (R153), the outside world and OVR (R207); the BUS mark unless it raises BUS. -/
def Obligations.MicroStepFrame : Prop :=
  ∀ s t : State, microStep s = .next t →
    sameOperands s t ∧ sameMemory s t ∧ sameWorld s t ∧ t.ovr = s.ovr ∧
    (t.ecode ≠ .bus → t.busMark = s.busMark) ∧ (s.busy = false → t = s)

/-- R13, R60, R153: only a host memory write changes the buffer memory: every other step leaves every byte. -/
def Obligations.OnlyTheHostWritesMemory : Prop :=
  ∀ s t : State, step s = .next t →
    (∀ addr bytes rest, ¬ nextMove s (.memWrite addr bytes) rest) → sameMemory s t

/-- R45: BUSY, DONE, ERR, ECODE and OVR after each event of its table, row by row: NOP; CLR; INIT, STEP and an empty HASH_N; a HASH that starts; an error at acceptance; the end of an operation, completed or failed; a dropped write; reset. -/
def Obligations.StatusFlagsByCommand : Prop :=
  (∀ (i : Instr) (s t : State), s.busy = false → exec i s = .next t →
    (i = .nop → t.busy = false ∧ t.done = s.done ∧ t.err = s.err ∧ t.ecode = s.ecode ∧ t.ovr = s.ovr) ∧
    (i = .clr → t.busy = false ∧ t.done = false ∧ t.err = false ∧ t.ecode = .none ∧ t.ovr = false) ∧
    (i = .init ∨ ((∃ b, i = .step b) ∧ s.psel ≠ .reserved) ∨
        (i = .hashN ∧ s.len = 0 ∧ s.psel ≠ .reserved ∧ s.ptr.toNat + s.len.toNat ≤ 2 ^ s.params.addrW) →
      t.busy = false ∧ t.done = true ∧ t.err = false ∧ t.ecode = .none ∧ t.ovr = s.ovr) ∧
    ((i = .hashN ∧ s.len ≠ 0 ∧ s.psel ≠ .reserved ∧ s.ptr.toNat + s.len.toNat ≤ 2 ^ s.params.addrW) ∨
        (i = .hashZ ∧ s.psel ≠ .reserved ∧ s.ptr ≠ 0) →
      t.busy = true ∧ t.done = false ∧ t.err = false ∧ t.ecode = .none ∧ t.ovr = s.ovr) ∧
    (((∃ b, i = .step b) ∨ i = .hashN ∨ i = .hashZ) ∧ s.psel = .reserved →
      t.busy = false ∧ t.done = false ∧ t.err = true ∧ t.ecode = .badCfg ∧ t.ovr = s.ovr) ∧
    (i = .hashZ ∧ s.psel ≠ .reserved ∧ s.ptr = 0 →
      t.busy = false ∧ t.done = false ∧ t.err = true ∧ t.ecode = .nullPtr ∧ t.ovr = s.ovr) ∧
    (i = .hashN ∧ s.psel ≠ .reserved ∧ 2 ^ s.params.addrW < s.ptr.toNat + s.len.toNat →
      t.busy = false ∧ t.done = false ∧ t.err = true ∧ t.ecode = .range ∧ t.ovr = s.ovr)) ∧
  (∀ (w : Word32) (s t : State), s.busy = false → decode w = .illegal w → hostWrite 0x00 w s = .next t →
    t.busy = false ∧ t.done = false ∧ t.err = true ∧ t.ecode = .badCmd ∧ t.ovr = s.ovr) ∧
  (∀ s t : State, Inv s → s.busy = true → microStep s = .next t → t.busy = false →
    t.ovr = s.ovr ∧ ((t.done = true ∧ t.err = s.err ∧ t.ecode = s.ecode) ∨
      (t.done = false ∧ t.err = true ∧ (t.ecode = .bus ∨ t.ecode = .range)))) ∧
  (∀ (v : Word32) (off : Nat) (s t : State), s.busy = true →
    off = 0x00 ∨ off = 0x08 ∨ off = 0x10 ∨ off = 0x14 ∨ off = 0x18 ∨ off = 0x1C → hostWrite off v s = .next t →
    t.busy = true ∧ t.done = s.done ∧ t.err = s.err ∧ t.ecode = s.ecode ∧ t.ovr = true) ∧
  (∀ s : State, (applyReset s).busy = false ∧ (applyReset s).done = false ∧ (applyReset s).err = false ∧
    (applyReset s).ecode = .none ∧ (applyReset s).ovr = false)

/-- R34: OVR is set only by a write to CMD, CFG, PTR or LEN dropped while BUSY, and only an accepted CLR or reset clears it. -/
def Obligations.OvrIsSticky : Prop :=
  ∀ s t : State, step s = .next t →
    (s.ovr = true → t.ovr = false → ∃ rest, nextMove s .rst rest ∨
      (s.busy = false ∧ nextMove s (.access ⟨.write 0x00000005#32, s.params.base + 0x00, 4⟩) rest)) ∧
    (s.ovr = false → t.ovr = true → s.busy = true ∧ ∃ v off rest,
      nextMove s (.access ⟨.write v, s.params.base + off, 4⟩) rest ∧
      (off = 0x00 ∨ off = 0x08 ∨ off = 0x10 ∨ off = 0x14 ∨ off = 0x18 ∨ off = 0x1C))

/-- R23: only INIT, STEP, HASH_N and HASH_Z accepted, the running operation's micro-steps and reset change ACC. -/
def Obligations.OnlyTheseWriteAcc : Prop :=
  ∀ s t : State, step s = .next t → t.acc ≠ s.acc →
    (s.busy = true ∧ microStep s = .next t) ∨
    ∃ rest, nextMove s .rst rest ∨
      (s.busy = false ∧ ∃ w i, nextMove s (.access ⟨.write w, s.params.base + 0x00, 4⟩) rest ∧
        decode w = .cmd i ∧ (i = .init ∨ (∃ b, i = .step b) ∨ i = .hashN ∨ i = .hashZ))

/-- R22: with W = 32 every write to ACC by INIT, STEP, HASH_N or HASH_Z writes ACC[63:32] = 0; the exception is a run-time error. -/
def Obligations.Width32ClearsUpperHalf : Prop :=
  (∀ (i : Instr) (s t : State), s.wsel = .w32 → exec i s = .next t → t.acc ≠ s.acc → t.acc.toNat < 2 ^ 32) ∧
  (∀ s t : State, s.wsel = .w32 → microStep s = .next t → t.acc ≠ s.acc → t.err = false → t.acc.toNat < 2 ^ 32)

/-- R43: while BUSY = 1, CFG, PTR and LEN keep the values they had. -/
def Obligations.OperandsFixedWhileBusy : Prop :=
  ∀ s t : State, step s = .next t → s.busy = true → t.busy = true → sameOperands s t

/-- R24, R62: no step changes the instance's parameters (R8), and an operation's CUR only moves upward while it runs. -/
def Obligations.CurMovesUpward : Prop :=
  ∀ s t : State, Inv s → step s = .next t → t.params = s.params ∧
    (s.busy = true → t.busy = true → s.cur.toNat ≤ t.cur.toNat)

/-- R230: reset stops a running operation, and with the sequencer's own completion or error is the only way to. -/
def Obligations.OnlyResetCancels : Prop :=
  ∀ s t : State, Inv s → step s = .next t → s.busy = true → t.busy = false →
    (∃ rest, nextMove s .rst rest) ∨ (microStep s = .next t ∧ t.done ≠ t.err)

/-! ## The register window -/

/-- R173, R26, R27, R29: a CFG write while BUSY = 0 sets PSEL (3 included) and IE, and WSEL only when WIDTH_MODE = BOTH; nothing else changes, and CFG bits [31:4] read 0. -/
def Obligations.CfgWrite : Prop :=
  ∀ (v : Word32) (s : State), s.busy = false →
    ∃ t : State, hostWrite 0x08 v s = .next t ∧
      t = { s with wsel := t.wsel, psel := t.psel, ie := t.ie } ∧
      (s.params.widthMode = .both → (t.wsel = .w64 ↔ v.getLsbD 0 = true)) ∧
      (s.params.widthMode ≠ .both → t.wsel = s.wsel) ∧
      pselBits t.psel = v.extractLsb' 1 2 ∧ t.ie = v.getLsbD 3 ∧
      (s.params.widthMode = .both → cfgWord t = v &&& 0x0000000F#32) ∧
      (cfgWord t).extractLsb' 4 28 = 0#28

/-- R175: a write of v to a half of PTR or LEN while BUSY = 0 sets that half, then bits [63:ADDR_W] are 0; nothing else changes. -/
def Obligations.PtrLenHalves : Prop :=
  ∀ (v : Word32) (s : State),
    (s.busy = false →
      hostWrite 0x10 v s = .next { s with
          ptr := BitVec.ofNat 64 ((s.ptr.toNat / 2 ^ 32 * 2 ^ 32 + v.toNat) % 2 ^ s.params.addrW) } ∧
      hostWrite 0x14 v s = .next { s with
          ptr := BitVec.ofNat 64 ((v.toNat * 2 ^ 32 + s.ptr.toNat % 2 ^ 32) % 2 ^ s.params.addrW) } ∧
      hostWrite 0x18 v s = .next { s with
          len := BitVec.ofNat 64 ((s.len.toNat / 2 ^ 32 * 2 ^ 32 + v.toNat) % 2 ^ s.params.addrW) } ∧
      hostWrite 0x1C v s = .next { s with
          len := BitVec.ofNat 64 ((v.toNat * 2 ^ 32 + s.len.toNat % 2 ^ 32) % 2 ^ s.params.addrW) }) ∧
    (s.busy = true → ∀ off, off = 0x10 ∨ off = 0x14 ∨ off = 0x18 ∨ off = 0x1C →
      hostWrite off v s = .next { s with ovr := true })

/-- R174, R234: while BUSY = 1 a write to CMD, CFG, PTR or LEN is dropped: nothing changes but OVR, which is set. -/
def Obligations.WritesWhileBusyAreDropped : Prop :=
  ∀ (s : State), s.busy = true →
    (∀ (v : Word32) (off : Nat),
      off = 0x00 ∨ off = 0x08 ∨ off = 0x10 ∨ off = 0x14 ∨ off = 0x18 ∨ off = 0x1C →
      hostWrite off v s = .next { s with ovr := true }) ∧
    (∀ i : Instr, exec i s = .next { s with ovr := true })

/-- R177: writes to the read-only registers and the reserved offsets are ignored, whether or not BUSY = 1, and never set OVR. -/
def Obligations.ReadOnlyWritesIgnored : Prop :=
  ∀ (v : Word32) (off : Nat) (s : State),
    (off = 0x04 ∨ off = 0x0C ∨ off = 0x20 ∨ off = 0x24 ∨ off = 0x28 ∨ off = 0x2C ∨
      off = 0x30 ∨ off = 0x34 ∨ off = 0x38 ∨ off = 0x3C) →
    hostWrite off v s = .next s

/-- R176, R67: what a host read returns, and that it changes nothing but the data returned; RESULT and COUNT read while BUSY are free values, a draw per read. The list `returned` (log entry 14), the constant that gives the free value at the counter `draws` (log entry 5), and `awaitsIdle`, which a STATUS read that returns BUSY = 0 clears (R240; log entry 24), are the model's own. -/
def Obligations.HostReads : Prop :=
  ∀ s : State,
    hostRead 0x00 s = .next { s with returned := 0 :: s.returned } ∧
    hostRead 0x04 s = .next { s with returned := statusWord s :: s.returned, awaitsIdle := s.awaitsIdle && s.busy } ∧
    hostRead 0x08 s = .next { s with returned := cfgWord s :: s.returned } ∧
    hostRead 0x0C s = .next { s with returned := paramsWord s.params :: s.returned } ∧
    hostRead 0x10 s = .next { s with returned := BitVec.ofNat 32 s.ptr.toNat :: s.returned } ∧
    hostRead 0x14 s = .next { s with returned := BitVec.ofNat 32 (s.ptr.toNat / 2 ^ 32) :: s.returned } ∧
    hostRead 0x18 s = .next { s with returned := BitVec.ofNat 32 s.len.toNat :: s.returned } ∧
    hostRead 0x1C s = .next { s with returned := BitVec.ofNat 32 (s.len.toNat / 2 ^ 32) :: s.returned } ∧
    (s.busy = false →
      hostRead 0x20 s = .next { s with returned := BitVec.ofNat 32 s.acc.toNat :: s.returned } ∧
      hostRead 0x24 s = .next { s with returned := BitVec.ofNat 32 (s.acc.toNat / 2 ^ 32) :: s.returned } ∧
      hostRead 0x28 s = .next { s with returned := BitVec.ofNat 32 s.count.toNat :: s.returned } ∧
      hostRead 0x2C s = .next { s with returned := BitVec.ofNat 32 (s.count.toNat / 2 ^ 32) :: s.returned }) ∧
    (s.busy = true → ∀ off, off = 0x20 ∨ off = 0x24 ∨ off = 0x28 ∨ off = 0x2C →
      hostRead off s = .next { s with returned := Config.freeRead s.draws :: s.returned, draws := s.draws + 1 }) ∧
    (∀ off, off = 0x30 ∨ off = 0x34 ∨ off = 0x38 ∨ off = 0x3C →
      hostRead off s = .next { s with returned := 0 :: s.returned })

/-- R30, R31, R35, R201, R210: the STATUS word's fields; IRQ is CFG.IE ∧ (DONE ∨ ERR), BUSY is PHASE ≠ IDLE; reserved bits are 0. -/
def Obligations.StatusLayout : Prop :=
  ∀ s : State,
    (statusWord s).getLsbD 0 = decide (s.phase = .runN ∨ s.phase = .runZ) ∧
    (statusWord s).getLsbD 1 = s.done ∧ (statusWord s).getLsbD 2 = s.err ∧ (statusWord s).getLsbD 3 = s.ovr ∧
    (statusWord s).extractLsb' 4 4 = 0#4 ∧
    ((statusWord s).extractLsb' 8 4).toNat = (match s.ecode with
      | .none => 0
      | .badCmd => 1
      | .badCfg => 2
      | .nullPtr => 3
      | .range => 4
      | .bus => 5) ∧
    (statusWord s).getLsbD 12 = (s.ie && (s.done || s.err)) ∧
    (statusWord s).extractLsb' 13 19 = 0#19 ∧ s.irq = (s.ie && (s.done || s.err))

/-- R40: the PARAMS word's fields, for an instance with ADDR_W in 1..64; writes are ignored. -/
def Obligations.ParamsLayout : Prop :=
  ∀ s : State, s.params.wf = true →
    (paramsWord s.params).extractLsb' 0 8 = s.params.chunk ∧
    ((paramsWord s.params).getLsbD 8 = true ↔ s.params.native = .w64) ∧
    ((paramsWord s.params).extractLsb' 9 2).toNat = (match s.params.widthMode with
      | .both => 0
      | .only32 => 1
      | .only64 => 2) ∧
    (paramsWord s.params).extractLsb' 11 5 = 0#5 ∧
    ((paramsWord s.params).extractLsb' 16 7).toNat = s.params.addrW ∧
    (paramsWord s.params).extractLsb' 23 9 = 0#9 ∧
    (∀ v, hostWrite 0x0C v s = .next s)

/-- R178: exactly the accesses that are not 32-bit at a multiple of 4 inside the window are refused; every other one answers a next state. -/
def Obligations.BadAccessIsRefused : Prop :=
  ∀ (a : Access) (s : State),
    (¬(a.size = 4 ∧ s.params.base ≤ a.addr ∧ a.addr < s.params.base + 64 ∧ (a.addr - s.params.base) % 4 = 0) →
      hostAccess a s = .refused .badHostAccess) ∧
    (a.size = 4 → s.params.base ≤ a.addr → a.addr < s.params.base + 64 → (a.addr - s.params.base) % 4 = 0 →
      ∃ t, hostAccess a s = .next t)

/-- R91: the CFG words, and that writing one while BUSY = 0 selects that width, policy and enable. -/
def Obligations.CfgWordsSelect : Prop :=
  cfgWordOf .w32 .identity false = 0x0#32 ∧ cfgWordOf .w32 .foldCompat false = 0x2#32 ∧
  cfgWordOf .w32 .foldGuarded false = 0x4#32 ∧ cfgWordOf .w32 .reserved false = 0x6#32 ∧
  cfgWordOf .w64 .identity false = 0x1#32 ∧ cfgWordOf .w64 .foldCompat false = 0x3#32 ∧
  cfgWordOf .w64 .foldGuarded false = 0x5#32 ∧ cfgWordOf .w64 .reserved false = 0x7#32 ∧
  (∀ ws pol, cfgWordOf ws pol true = cfgWordOf ws pol false + 0x8#32) ∧
  (∀ (ws : Width) (pol : Policy) (ie : Bool) (s : State), s.busy = false → s.params.widthMode = .both →
    hostWrite 0x08 (cfgWordOf ws pol ie) s = .next { s with wsel := ws, psel := pol, ie := ie })

/-! ## Reset -/

/-- R44: every register after reset, for every instance; the `irq` output is 0. -/
def Obligations.ResetValues : Prop :=
  ∀ s : State,
    ((applyReset s).wsel = match s.params.widthMode with
      | .only32 => .w32
      | .only64 => .w64
      | .both => s.params.native) ∧
    (applyReset s).psel = .identity ∧ (applyReset s).ie = false ∧
    (applyReset s).ptr = 0 ∧ (applyReset s).len = 0 ∧
    ((applyReset s).acc = match (applyReset s).wsel with
      | .w32 => 0x00000000811C9DC5#64
      | .w64 => 0xCBF29CE484222325#64) ∧
    (applyReset s).count = 0 ∧ (applyReset s).busy = false ∧ (applyReset s).done = false ∧
    (applyReset s).err = false ∧ (applyReset s).ovr = false ∧ (applyReset s).ecode = .none ∧
    (applyReset s).phase = .idle ∧ (applyReset s).cur = 0 ∧ (applyReset s).rem = 0 ∧
    (applyReset s).irq = false ∧ paramsWord (applyReset s).params = paramsWord s.params

/-- R230, R231, R232: the `rst` move ends any operation and sets every register to its reset value; what is not the block's stays, and the BUS mark too (the model's choice, log entries 13, 14 and 24). -/
def Obligations.ResetMove : Prop :=
  ∀ (s : State) (rest : List Input), nextMove s .rst rest →
    step s = .next { State.resetOf s.params with
      busMark := s.busMark, mem := s.mem, borrow := s.borrow, inputs := rest, returned := s.returned
      awaitsIdle := s.awaitsIdle, turns := s.turns - 1, draws := s.draws }

/-- The invariant holds at State.reset, and after reset of every instance with ADDR_W in 1..64 (R44). -/
def Obligations.InvAtReset : Prop :=
  Inv State.reset ∧ HashInv State.reset ∧
    ∀ p : Params, p.wf = true → Inv (State.resetOf p) ∧ HashInv (State.resetOf p)

/-! ## Invariants every step keeps -/

/-- Every step keeps the invariant. -/
def Obligations.StepKeepsInv : Prop :=
  ∀ s t : State, Inv s → step s = .next t → Inv t

/-- Every step keeps: while an operation runs, ACC is the reference hash of the bytes it has read, unless the host wrote one of them (R110, R150; the list of such bytes is the model's own, log entry 7). -/
def Obligations.StepKeepsHashInv : Prop :=
  ∀ s t : State, Inv s → HashInv s → step s = .next t → HashInv t

/-! ## Memory -/

/-- R62, R63: MemRead fails when a byte it covers is outside the address space or not admitted; else it returns n lanes, lane i the byte at addr + i. -/
def Obligations.MemReadLanes : Prop :=
  ∀ (s : State) (addr n : Nat),
    (2 ^ s.params.addrW < addr + n → memRead s addr n = none) ∧
    ((∃ i, i < n ∧ admits s.params (addr + i) = false) → memRead s addr n = none) ∧
    (addr + n ≤ 2 ^ s.params.addrW → (∀ i, i < n → admits s.params (addr + i) = true) →
      ∃ lanes, memRead s addr n = some lanes ∧ lanes.length = n ∧
        ∀ i, i < n → addr + i ∉ s.raced → lanes[i]? = some (memByte s.mem (addr + i)))

/-- R71: a host write to buffer bytes while BUSY stores them and races with the operation: the operation's read of such a byte is a free value, before or after the write, and no other byte's is; a completed HASH_N leaves the hash of what its reads returned, a completed HASH_Z the hash of those before the first 0. The list of raced addresses and the constant that gives the free values are the model's own (log entries 5 and 7). -/
def Obligations.RacedBytesReadFreely : Prop :=
  (∀ (addr : Nat) (bytes : List Byte) (s : State), s.busy = true →
    addr + bytes.length ≤ 2 ^ s.params.addrW →
    ∃ t : State, hostMemWrite addr bytes s = .next t ∧ t = { s with mem := t.mem, raced := t.raced } ∧
      (∀ a, a ∈ t.raced ↔ a ∈ s.raced ∨ (addr ≤ a ∧ a < addr + bytes.length)) ∧
      (memWf s.mem = true → ∀ i b, bytes[i]? = some b → memByte t.mem (addr + i) = b)) ∧
  (∀ (s : State) (addr i : Nat), addr + i ∈ s.raced → readLane s addr i = Config.freeByte s.borrow (addr + i)) ∧
  (∀ (s : State) (addr i : Nat), addr + i ∉ s.raced → readLane s addr i = memByte s.mem (addr + i)) ∧
  (∀ s t : State, Inv s → HashInv s → s.phase = .runN → microStep s = .next t → t.done = true →
    t.acc = fnv1a s.wsel s.psel (readLanes s s.ptr.toNat s.len.toNat) ∧ t.count = s.len) ∧
  (∀ s t : State, Inv s → HashInv s → s.phase = .runZ → microStep s = .next t → t.done = true →
    ∃ bytes, bytes = (readLanes s s.ptr.toNat (s.cur.toNat - s.ptr.toNat + 1)).takeWhile (· != 0) ∧
      t.acc = fnv1a s.wsel s.psel bytes ∧ t.count.toNat = bytes.length)

/-- R13, R60: a host memory write stores its bytes ascending, leaves every other byte and, while IDLE, everything else; memory stays canonical. Outside byte addresses 0..2^ADDR_W - 1 there is nothing to write. That a write of n bytes is one move (log entry 20) and that one outside stops with the fault outsideBufferSpace (log entry 9) are the model's choices. -/
def Obligations.HostMemoryWrite : Prop :=
  ∀ (addr : Nat) (bytes : List Byte) (s : State), memWf s.mem = true →
    (addr + bytes.length ≤ 2 ^ s.params.addrW →
      ∃ t : State, hostMemWrite addr bytes s = .next t ∧ memWf t.mem = true ∧
        (∀ i b, bytes[i]? = some b → memByte t.mem (addr + i) = b) ∧
        (∀ a, a < addr ∨ addr + bytes.length ≤ a → memByte t.mem a = memByte s.mem a) ∧
        (s.busy = false → t = { s with mem := t.mem })) ∧
    (2 ^ s.params.addrW < addr + bytes.length → hostMemWrite addr bytes s = .fault .outsideBufferSpace)

/-! ## Micro-steps -/

/-- R142, R143, R144: a RUN_N micro-step is a batch of K bytes when K ≥ 2 and REM ≥ K, else one byte; it reads them in one transaction at CUR and folds them in ascending lanes, with CUR and REM moved by as many; a failed read raises BUS. A read that covers a side-effecting byte is refused, admitted or not (R220; the order is the model's choice, log entry 10). -/
def Obligations.RunNMicroStep : Prop :=
  ∀ (s : State) (n : Nat), Inv s → s.phase = .runN →
    n = (if 2 ≤ s.params.chunk.toNat ∧ s.params.chunk.toNat ≤ s.rem.toNat then s.params.chunk.toNat else 1) →
    n ≤ s.rem.toNat ∧
    (¬ quietRange s.params s.cur.toNat n → microStep s = .refused .sideEffectingRead) ∧
    (quietRange s.params s.cur.toNat n → memRead s s.cur.toNat n = none →
      ∃ t, microStep s = .next t ∧ t.busy = false ∧ t.done = false ∧ t.err = true ∧ t.ecode = .bus ∧ t.busMark = true) ∧
    (∀ bytes, quietRange s.params s.cur.toNat n → memRead s s.cur.toNat n = some bytes → n < s.rem.toNat →
      ∃ t, microStep s = .next t ∧ t.phase = .runN ∧
        t.acc = bytes.foldl (stepHash s.wsel s.psel) s.acc ∧ t.count.toNat = s.count.toNat + n ∧
        t.cur.toNat = s.cur.toNat + n ∧ t.rem.toNat = s.rem.toNat - n) ∧
    (∀ bytes, quietRange s.params s.cur.toNat n → memRead s s.cur.toNat n = some bytes → n = s.rem.toNat →
      ∃ t, microStep s = .next t ∧ t.busy = false ∧ t.done = true ∧ t.err = false ∧ t.count = s.len ∧
        (s.raced = [] → t.acc = bytes.foldl (stepHash s.wsel s.psel) s.acc))

/-- R147, R148: a RUN_Z micro-step reads one byte; a raw 0 ends the scan with DONE and is not folded, whatever the policy makes of it; another byte is folded and CUR moves on, or RANGE is raised at the top of the address space; a failed read raises BUS. Where a byte already read was written by the host while borrowed and its read returned 0, the scan ends there instead (R71; log entry 7). A side-effecting byte is refused, admitted or not (R220; the order is the model's choice, log entry 10). -/
def Obligations.RunZMicroStep : Prop :=
  ∀ s : State, Inv s → s.phase = .runZ →
    (scanEnded s →
      ∃ t, microStep s = .next t ∧ t.busy = false ∧ t.done = true ∧ t.err = false ∧
        ∃ n, n < s.cur.toNat - s.ptr.toNat ∧ readLane s s.ptr.toNat n = 0#8 ∧
          (∀ i, i < n → readLane s s.ptr.toNat i ≠ 0#8) ∧ t.count.toNat = n ∧
          t.acc = fnv1a s.wsel s.psel (readLanes s s.ptr.toNat n)) ∧
    (¬ scanEnded s → ¬ quietRange s.params s.cur.toNat 1 → microStep s = .refused .sideEffectingRead) ∧
    (¬ scanEnded s → quietRange s.params s.cur.toNat 1 → admits s.params s.cur.toNat = false →
      ∃ t, microStep s = .next t ∧ t.busy = false ∧ t.done = false ∧ t.err = true ∧ t.ecode = .bus ∧ t.busMark = true) ∧
    (¬ scanEnded s → quietRange s.params s.cur.toNat 1 → admits s.params s.cur.toNat = true →
      readLane s s.cur.toNat 0 = 0#8 →
      ∃ t, microStep s = .next t ∧ t.busy = false ∧ t.done = true ∧ t.err = false ∧ t.count = s.count ∧
        (s.raced = [] → t.acc = s.acc)) ∧
    (¬ scanEnded s → quietRange s.params s.cur.toNat 1 → admits s.params s.cur.toNat = true →
      readLane s s.cur.toNat 0 ≠ 0#8 → s.cur.toNat = 2 ^ s.params.addrW - 1 →
      ∃ t, microStep s = .next t ∧ t.busy = false ∧ t.done = false ∧ t.err = true ∧ t.ecode = .range ∧
        t.busMark = s.busMark) ∧
    (¬ scanEnded s → quietRange s.params s.cur.toNat 1 → admits s.params s.cur.toNat = true →
      readLane s s.cur.toNat 0 ≠ 0#8 → s.cur.toNat < 2 ^ s.params.addrW - 1 →
      ∃ t, microStep s = .next t ∧ t.phase = .runZ ∧
        t.acc = stepHash s.wsel s.psel s.acc (readLane s s.cur.toNat 0) ∧
        t.count.toNat = s.count.toNat + 1 ∧ t.cur.toNat = s.cur.toNat + 1)

/-- R145, R150: in any interleaving, when an operation completes and no borrowed byte was written, ACC is the reference hash: of the LEN bytes at PTR, with COUNT = LEN, for a HASH_N; of the bytes before the first zero byte, with COUNT their number, for a HASH_Z. -/
def Obligations.CompletionLeavesTheHash : Prop :=
  (∀ s t : State, Inv s → HashInv s → s.phase = .runN →
    (∀ a ∈ s.raced, a < s.ptr.toNat ∨ s.ptr.toNat + s.len.toNat ≤ a) → microStep s = .next t → t.done = true →
    t.busy = false ∧ t.acc = fnv1a s.wsel s.psel (bytesAt s.mem s.ptr.toNat s.len.toNat) ∧ t.count = s.len) ∧
  (∀ s t : State, Inv s → HashInv s → s.phase = .runZ →
    (∀ a ∈ s.raced, a < s.ptr.toNat ∨ s.cur.toNat < a) → microStep s = .next t → t.done = true →
    t.busy = false ∧ ∃ n, memByte s.mem (s.ptr.toNat + n) = 0#8 ∧
      (∀ i, i < n → memByte s.mem (s.ptr.toNat + i) ≠ 0#8) ∧ t.count.toNat = n ∧
      t.acc = fnv1a s.wsel s.psel (bytesAt s.mem s.ptr.toNat n))

/-- R73: a HASH_N's micro-step depends on no byte outside CUR..CUR+REM-1 and a HASH_Z's on no byte but the one at CUR: two memories that agree there give the same next state but for the memory itself. -/
def Obligations.ReadsAreNotSpeculative : Prop :=
  ∀ (s t : State) (m : List Host.Cell), Inv s → s.raced = [] →
    (s.phase = .runN → ∀ a, s.cur.toNat ≤ a → a < s.cur.toNat + s.rem.toNat → memByte m a = memByte s.mem a) →
    (s.phase = .runZ → memByte m s.cur.toNat = memByte s.mem s.cur.toNat) →
    microStep s = .next t → microStep { s with mem := m } = .next { t with mem := m }

/-! ## Operations from acceptance to end -/

/-- R149, R150: a HASH_N over admitted bytes, with no host move in between, completes after exactly ⌊n/K⌋ + n mod K micro-steps (n when K ≤ 1), with ACC the reference hash of the LEN bytes at PTR and COUNT = LEN. -/
def Obligations.HashNComputesTheHash : Prop :=
  ∀ s : State, s.params.wf = true → s.busy = false → s.inputs = [] → s.psel ≠ .reserved →
    s.ptr.toNat + s.len.toNat ≤ 2 ^ s.params.addrW →
    admitsRange s.params s.ptr.toNat s.len.toNat → quietRange s.params s.ptr.toNat s.len.toNat →
    ∃ u t : State, exec .hashN s = .next u ∧
      Host.Core.run Sys2Proof.core (microStepCount s.params.chunk.toNat s.len.toNat) u = .next t ∧
      t.busy = false ∧ t.done = true ∧ t.err = false ∧
      t.acc = fnv1a s.wsel s.psel (bytesAt s.mem s.ptr.toNat s.len.toNat) ∧ t.count = s.len ∧
      sameOperands s t ∧ sameMemory s t

/-- R149, R150: a HASH_Z whose terminator is at PTR + n, with no host move in between, completes after n + 1 micro-steps, with ACC the reference hash of the n bytes before it and COUNT = n. -/
def Obligations.HashZComputesTheHash : Prop :=
  ∀ (s : State) (n : Nat), s.params.wf = true → s.busy = false → s.inputs = [] → s.psel ≠ .reserved →
    s.ptr ≠ 0 → s.ptr.toNat + n < 2 ^ s.params.addrW →
    admitsRange s.params s.ptr.toNat (n + 1) → quietRange s.params s.ptr.toNat (n + 1) →
    (∀ i, i < n → memByte s.mem (s.ptr.toNat + i) ≠ 0#8) → memByte s.mem (s.ptr.toNat + n) = 0#8 →
    ∃ u t : State, exec .hashZ s = .next u ∧ Host.Core.run Sys2Proof.core (n + 1) u = .next t ∧
      t.busy = false ∧ t.done = true ∧ t.err = false ∧
      t.acc = fnv1a s.wsel s.psel (bytesAt s.mem s.ptr.toNat n) ∧ t.count.toNat = n ∧
      sameOperands s t ∧ sameMemory s t

/-- R151: for n bytes without a zero byte and a zero byte after them, HASH_N with LEN = n and HASH_Z at the same PTR ≠ 0 complete with the same ACC and COUNT = n. -/
def Obligations.EntryPointsAgree : Prop :=
  ∀ s : State, s.params.wf = true → s.busy = false → s.inputs = [] → s.psel ≠ .reserved →
    s.ptr ≠ 0 → s.ptr.toNat + s.len.toNat < 2 ^ s.params.addrW →
    admitsRange s.params s.ptr.toNat (s.len.toNat + 1) → quietRange s.params s.ptr.toNat (s.len.toNat + 1) →
    (∀ i, i < s.len.toNat → memByte s.mem (s.ptr.toNat + i) ≠ 0#8) →
    memByte s.mem (s.ptr.toNat + s.len.toNat) = 0#8 →
    ∃ (u v t t' : State) (j k : Nat), exec .hashN s = .next u ∧ exec .hashZ s = .next v ∧
      Host.Core.run Sys2Proof.core j u = .next t ∧ Host.Core.run Sys2Proof.core k v = .next t' ∧
      t.busy = false ∧ t'.busy = false ∧ t.done = true ∧ t'.done = true ∧
      t.acc = t'.acc ∧ t.count = s.len ∧ t'.count = s.len

/-- R152, R206: every HASH_N accepted into a run, with no host move in between, ends within LEN micro-steps: by completion if every byte is admitted, else by BUS with the fault mark. Where a byte of the buffer has side effects, a read of it is refused (R220; log entry 10) unless BUS comes first. -/
def Obligations.HashNEnds : Prop :=
  ∀ s : State, s.params.wf = true → s.busy = false → s.inputs = [] → s.psel ≠ .reserved →
    s.ptr.toNat + s.len.toNat ≤ 2 ^ s.params.addrW →
    (quietRange s.params s.ptr.toNat s.len.toNat →
      ∃ (u t : State) (k : Nat), exec .hashN s = .next u ∧ k ≤ s.len.toNat ∧
        Host.Core.run Sys2Proof.core k u = .next t ∧ t.busy = false ∧
        (admitsRange s.params s.ptr.toNat s.len.toNat → t.done = true ∧ t.err = false) ∧
        (¬ admitsRange s.params s.ptr.toNat s.len.toNat →
          t.done = false ∧ t.err = true ∧ t.ecode = .bus ∧ t.busMark = true)) ∧
    (¬ quietRange s.params s.ptr.toNat s.len.toNat →
      ∃ (u : State) (k : Nat), exec .hashN s = .next u ∧ k ≤ s.len.toNat ∧
        (Host.Core.run Sys2Proof.core k u = .refused Refusal.sideEffectingRead ∨
          ∃ t : State, Host.Core.run Sys2Proof.core k u = .next t ∧ t.busy = false ∧ t.err = true ∧ t.ecode = .bus))

/-- R152: every HASH_Z accepted into a run, with no host move in between, ends within 2^ADDR_W - PTR micro-steps, by a terminator, BUS or RANGE. Where a byte from PTR to the top has side effects, a read of it is refused (R220; log entry 10) unless a terminator or BUS comes first. -/
def Obligations.HashZEnds : Prop :=
  ∀ s : State, s.params.wf = true → s.busy = false → s.inputs = [] → s.psel ≠ .reserved →
    s.ptr ≠ 0 → s.ptr.toNat < 2 ^ s.params.addrW →
    (quietRange s.params s.ptr.toNat (2 ^ s.params.addrW - s.ptr.toNat) →
      ∃ (u t : State) (k : Nat), exec .hashZ s = .next u ∧ k ≤ 2 ^ s.params.addrW - s.ptr.toNat ∧
        Host.Core.run Sys2Proof.core k u = .next t ∧ t.busy = false ∧
        ((t.done = true ∧ t.err = false) ∨ (t.err = true ∧ (t.ecode = .bus ∨ t.ecode = .range)))) ∧
    (¬ quietRange s.params s.ptr.toNat (2 ^ s.params.addrW - s.ptr.toNat) →
      ∃ (u : State) (k : Nat), exec .hashZ s = .next u ∧ k ≤ 2 ^ s.params.addrW - s.ptr.toNat ∧
        (Host.Core.run Sys2Proof.core k u = .refused Refusal.sideEffectingRead ∨
          ∃ t : State, Host.Core.run Sys2Proof.core k u = .next t ∧ t.busy = false ∧
            ((t.done = true ∧ t.err = false) ∨ (t.err = true ∧ t.ecode = .bus))))

/-- R154, R150: two instances that differ in CHUNK alone end a HASH_N with the same STATUS and, when it completes, the same ACC and COUNT. -/
def Obligations.ChunkSizeIsInvisible : Prop :=
  ∀ (s : State) (c : BitVec 8), s.params.wf = true → s.busy = false → s.inputs = [] → s.psel ≠ .reserved →
    s.ptr.toNat + s.len.toNat ≤ 2 ^ s.params.addrW → quietRange s.params s.ptr.toNat s.len.toNat →
    ∃ (u v t t' : State) (j k : Nat), exec .hashN s = .next u ∧
      exec .hashN { s with params := { s.params with chunk := c } } = .next v ∧
      Host.Core.run Sys2Proof.core j u = .next t ∧ Host.Core.run Sys2Proof.core k v = .next t' ∧
      t.busy = false ∧ t'.busy = false ∧ statusWord t = statusWord t' ∧
      (t.done = true → t.acc = t'.acc ∧ t.count = t'.count)

/-- R110, R90: INIT followed by STEPs (the pseudo-instruction hash.bytes) leaves ACC = FNV1a of the bytes and counts them. -/
def Obligations.InitThenStepsComputesTheHash : Prop :=
  ∀ (s : State) (bs : List Byte), s.busy = false → s.psel ≠ .reserved →
    s.inputs = expandStmt s.params.base (.hashBytes bs) →
    ∃ t : State, Host.Core.run Sys2Proof.core (bs.length + 1) s = .next t ∧ t.inputs = [] ∧
      t.done = true ∧ t.err = false ∧ t.acc = fnv1a s.wsel s.psel bs ∧ t.count = BitVec.ofNat 64 bs.length

/-- R140, R239: the sequencer's step is a micro-step, taken when it has one and the host's turns are used up or no host move is to come; each host move before it uses one turn, so it comes after finitely many. The count of turns is the model's own (log entry 4). -/
def Obligations.SequencerIsNotStarved : Prop :=
  (∀ s : State, s.busy = true → s.turns = 0 ∨ s.inputs = [] → step s = microStep s) ∧
  (∀ s t : State, s.busy = true → 0 < s.turns → s.inputs ≠ [] → step s = .next t → t.turns = s.turns - 1)
end

