-- ==== Sys2Proof/Laws/State.lean ====
section
/-! SUPPORT. What each shared update of State leaves in each field: one lemma a field and update, true by rfl, so that no later proof unfolds a record update. -/

namespace Sys2Proof.Machine

variable (s : State)

@[simp] theorem clearOutcome_params : (clearOutcome s).params = s.params := rfl
@[simp] theorem clearOutcome_wsel : (clearOutcome s).wsel = s.wsel := rfl
@[simp] theorem clearOutcome_psel : (clearOutcome s).psel = s.psel := rfl
@[simp] theorem clearOutcome_ie : (clearOutcome s).ie = s.ie := rfl
@[simp] theorem clearOutcome_ptr : (clearOutcome s).ptr = s.ptr := rfl
@[simp] theorem clearOutcome_len : (clearOutcome s).len = s.len := rfl
@[simp] theorem clearOutcome_acc : (clearOutcome s).acc = s.acc := rfl
@[simp] theorem clearOutcome_count : (clearOutcome s).count = s.count := rfl
@[simp] theorem clearOutcome_done : (clearOutcome s).done = false := rfl
@[simp] theorem clearOutcome_err : (clearOutcome s).err = false := rfl
@[simp] theorem clearOutcome_ovr : (clearOutcome s).ovr = s.ovr := rfl
@[simp] theorem clearOutcome_ecode : (clearOutcome s).ecode = .none := rfl
@[simp] theorem clearOutcome_phase : (clearOutcome s).phase = s.phase := rfl
@[simp] theorem clearOutcome_cur : (clearOutcome s).cur = s.cur := rfl
@[simp] theorem clearOutcome_rem : (clearOutcome s).rem = s.rem := rfl
@[simp] theorem clearOutcome_busMark : (clearOutcome s).busMark = s.busMark := rfl
@[simp] theorem clearOutcome_mem : (clearOutcome s).mem = s.mem := rfl
@[simp] theorem clearOutcome_raced : (clearOutcome s).raced = s.raced := rfl
@[simp] theorem clearOutcome_borrow : (clearOutcome s).borrow = s.borrow := rfl
@[simp] theorem clearOutcome_inputs : (clearOutcome s).inputs = s.inputs := rfl
@[simp] theorem clearOutcome_returned : (clearOutcome s).returned = s.returned := rfl
@[simp] theorem clearOutcome_awaitsIdle : (clearOutcome s).awaitsIdle = s.awaitsIdle := rfl
@[simp] theorem clearOutcome_turns : (clearOutcome s).turns = s.turns := rfl
@[simp] theorem clearOutcome_draws : (clearOutcome s).draws = s.draws := rfl

@[simp] theorem setDone_params : (setDone s).params = s.params := rfl
@[simp] theorem setDone_wsel : (setDone s).wsel = s.wsel := rfl
@[simp] theorem setDone_psel : (setDone s).psel = s.psel := rfl
@[simp] theorem setDone_ie : (setDone s).ie = s.ie := rfl
@[simp] theorem setDone_ptr : (setDone s).ptr = s.ptr := rfl
@[simp] theorem setDone_len : (setDone s).len = s.len := rfl
@[simp] theorem setDone_acc : (setDone s).acc = s.acc := rfl
@[simp] theorem setDone_count : (setDone s).count = s.count := rfl
@[simp] theorem setDone_done : (setDone s).done = true := rfl
@[simp] theorem setDone_err : (setDone s).err = s.err := rfl
@[simp] theorem setDone_ovr : (setDone s).ovr = s.ovr := rfl
@[simp] theorem setDone_ecode : (setDone s).ecode = s.ecode := rfl
@[simp] theorem setDone_phase : (setDone s).phase = s.phase := rfl
@[simp] theorem setDone_cur : (setDone s).cur = s.cur := rfl
@[simp] theorem setDone_rem : (setDone s).rem = s.rem := rfl
@[simp] theorem setDone_busMark : (setDone s).busMark = s.busMark := rfl
@[simp] theorem setDone_mem : (setDone s).mem = s.mem := rfl
@[simp] theorem setDone_raced : (setDone s).raced = s.raced := rfl
@[simp] theorem setDone_borrow : (setDone s).borrow = s.borrow := rfl
@[simp] theorem setDone_inputs : (setDone s).inputs = s.inputs := rfl
@[simp] theorem setDone_returned : (setDone s).returned = s.returned := rfl
@[simp] theorem setDone_awaitsIdle : (setDone s).awaitsIdle = s.awaitsIdle := rfl
@[simp] theorem setDone_turns : (setDone s).turns = s.turns := rfl
@[simp] theorem setDone_draws : (setDone s).draws = s.draws := rfl

@[simp] theorem dropWrite_params : (dropWrite s).params = s.params := rfl
@[simp] theorem dropWrite_wsel : (dropWrite s).wsel = s.wsel := rfl
@[simp] theorem dropWrite_psel : (dropWrite s).psel = s.psel := rfl
@[simp] theorem dropWrite_ie : (dropWrite s).ie = s.ie := rfl
@[simp] theorem dropWrite_ptr : (dropWrite s).ptr = s.ptr := rfl
@[simp] theorem dropWrite_len : (dropWrite s).len = s.len := rfl
@[simp] theorem dropWrite_acc : (dropWrite s).acc = s.acc := rfl
@[simp] theorem dropWrite_count : (dropWrite s).count = s.count := rfl
@[simp] theorem dropWrite_done : (dropWrite s).done = s.done := rfl
@[simp] theorem dropWrite_err : (dropWrite s).err = s.err := rfl
@[simp] theorem dropWrite_ovr : (dropWrite s).ovr = true := rfl
@[simp] theorem dropWrite_ecode : (dropWrite s).ecode = s.ecode := rfl
@[simp] theorem dropWrite_phase : (dropWrite s).phase = s.phase := rfl
@[simp] theorem dropWrite_cur : (dropWrite s).cur = s.cur := rfl
@[simp] theorem dropWrite_rem : (dropWrite s).rem = s.rem := rfl
@[simp] theorem dropWrite_busMark : (dropWrite s).busMark = s.busMark := rfl
@[simp] theorem dropWrite_mem : (dropWrite s).mem = s.mem := rfl
@[simp] theorem dropWrite_raced : (dropWrite s).raced = s.raced := rfl
@[simp] theorem dropWrite_borrow : (dropWrite s).borrow = s.borrow := rfl
@[simp] theorem dropWrite_inputs : (dropWrite s).inputs = s.inputs := rfl
@[simp] theorem dropWrite_returned : (dropWrite s).returned = s.returned := rfl
@[simp] theorem dropWrite_awaitsIdle : (dropWrite s).awaitsIdle = s.awaitsIdle := rfl
@[simp] theorem dropWrite_turns : (dropWrite s).turns = s.turns := rfl
@[simp] theorem dropWrite_draws : (dropWrite s).draws = s.draws := rfl

@[simp] theorem clearOvr_params : (clearOvr s).params = s.params := rfl
@[simp] theorem clearOvr_wsel : (clearOvr s).wsel = s.wsel := rfl
@[simp] theorem clearOvr_psel : (clearOvr s).psel = s.psel := rfl
@[simp] theorem clearOvr_ie : (clearOvr s).ie = s.ie := rfl
@[simp] theorem clearOvr_ptr : (clearOvr s).ptr = s.ptr := rfl
@[simp] theorem clearOvr_len : (clearOvr s).len = s.len := rfl
@[simp] theorem clearOvr_acc : (clearOvr s).acc = s.acc := rfl
@[simp] theorem clearOvr_count : (clearOvr s).count = s.count := rfl
@[simp] theorem clearOvr_done : (clearOvr s).done = s.done := rfl
@[simp] theorem clearOvr_err : (clearOvr s).err = s.err := rfl
@[simp] theorem clearOvr_ovr : (clearOvr s).ovr = false := rfl
@[simp] theorem clearOvr_ecode : (clearOvr s).ecode = s.ecode := rfl
@[simp] theorem clearOvr_phase : (clearOvr s).phase = s.phase := rfl
@[simp] theorem clearOvr_cur : (clearOvr s).cur = s.cur := rfl
@[simp] theorem clearOvr_rem : (clearOvr s).rem = s.rem := rfl
@[simp] theorem clearOvr_busMark : (clearOvr s).busMark = s.busMark := rfl
@[simp] theorem clearOvr_mem : (clearOvr s).mem = s.mem := rfl
@[simp] theorem clearOvr_raced : (clearOvr s).raced = s.raced := rfl
@[simp] theorem clearOvr_borrow : (clearOvr s).borrow = s.borrow := rfl
@[simp] theorem clearOvr_inputs : (clearOvr s).inputs = s.inputs := rfl
@[simp] theorem clearOvr_returned : (clearOvr s).returned = s.returned := rfl
@[simp] theorem clearOvr_awaitsIdle : (clearOvr s).awaitsIdle = s.awaitsIdle := rfl
@[simp] theorem clearOvr_turns : (clearOvr s).turns = s.turns := rfl
@[simp] theorem clearOvr_draws : (clearOvr s).draws = s.draws := rfl

@[simp] theorem foldByte_params (b : Byte) : (foldByte s b).params = s.params := rfl
@[simp] theorem foldByte_wsel (b : Byte) : (foldByte s b).wsel = s.wsel := rfl
@[simp] theorem foldByte_psel (b : Byte) : (foldByte s b).psel = s.psel := rfl
@[simp] theorem foldByte_ie (b : Byte) : (foldByte s b).ie = s.ie := rfl
@[simp] theorem foldByte_ptr (b : Byte) : (foldByte s b).ptr = s.ptr := rfl
@[simp] theorem foldByte_len (b : Byte) : (foldByte s b).len = s.len := rfl
@[simp] theorem foldByte_acc (b : Byte) : (foldByte s b).acc = stepHash s.wsel s.psel s.acc b := rfl
@[simp] theorem foldByte_count (b : Byte) : (foldByte s b).count = s.count + 1 := rfl
@[simp] theorem foldByte_done (b : Byte) : (foldByte s b).done = s.done := rfl
@[simp] theorem foldByte_err (b : Byte) : (foldByte s b).err = s.err := rfl
@[simp] theorem foldByte_ovr (b : Byte) : (foldByte s b).ovr = s.ovr := rfl
@[simp] theorem foldByte_ecode (b : Byte) : (foldByte s b).ecode = s.ecode := rfl
@[simp] theorem foldByte_phase (b : Byte) : (foldByte s b).phase = s.phase := rfl
@[simp] theorem foldByte_cur (b : Byte) : (foldByte s b).cur = s.cur := rfl
@[simp] theorem foldByte_rem (b : Byte) : (foldByte s b).rem = s.rem := rfl
@[simp] theorem foldByte_busMark (b : Byte) : (foldByte s b).busMark = s.busMark := rfl
@[simp] theorem foldByte_mem (b : Byte) : (foldByte s b).mem = s.mem := rfl
@[simp] theorem foldByte_raced (b : Byte) : (foldByte s b).raced = s.raced := rfl
@[simp] theorem foldByte_borrow (b : Byte) : (foldByte s b).borrow = s.borrow := rfl
@[simp] theorem foldByte_inputs (b : Byte) : (foldByte s b).inputs = s.inputs := rfl
@[simp] theorem foldByte_returned (b : Byte) : (foldByte s b).returned = s.returned := rfl
@[simp] theorem foldByte_awaitsIdle (b : Byte) : (foldByte s b).awaitsIdle = s.awaitsIdle := rfl
@[simp] theorem foldByte_turns (b : Byte) : (foldByte s b).turns = s.turns := rfl
@[simp] theorem foldByte_draws (b : Byte) : (foldByte s b).draws = s.draws := rfl

@[simp] theorem loadSeed_params : (loadSeed s).params = s.params := rfl
@[simp] theorem loadSeed_wsel : (loadSeed s).wsel = s.wsel := rfl
@[simp] theorem loadSeed_psel : (loadSeed s).psel = s.psel := rfl
@[simp] theorem loadSeed_ie : (loadSeed s).ie = s.ie := rfl
@[simp] theorem loadSeed_ptr : (loadSeed s).ptr = s.ptr := rfl
@[simp] theorem loadSeed_len : (loadSeed s).len = s.len := rfl
@[simp] theorem loadSeed_acc : (loadSeed s).acc = seed s.wsel := rfl
@[simp] theorem loadSeed_count : (loadSeed s).count = 0 := rfl
@[simp] theorem loadSeed_done : (loadSeed s).done = s.done := rfl
@[simp] theorem loadSeed_err : (loadSeed s).err = s.err := rfl
@[simp] theorem loadSeed_ovr : (loadSeed s).ovr = s.ovr := rfl
@[simp] theorem loadSeed_ecode : (loadSeed s).ecode = s.ecode := rfl
@[simp] theorem loadSeed_phase : (loadSeed s).phase = s.phase := rfl
@[simp] theorem loadSeed_cur : (loadSeed s).cur = s.cur := rfl
@[simp] theorem loadSeed_rem : (loadSeed s).rem = s.rem := rfl
@[simp] theorem loadSeed_busMark : (loadSeed s).busMark = s.busMark := rfl
@[simp] theorem loadSeed_mem : (loadSeed s).mem = s.mem := rfl
@[simp] theorem loadSeed_raced : (loadSeed s).raced = s.raced := rfl
@[simp] theorem loadSeed_borrow : (loadSeed s).borrow = s.borrow := rfl
@[simp] theorem loadSeed_inputs : (loadSeed s).inputs = s.inputs := rfl
@[simp] theorem loadSeed_returned : (loadSeed s).returned = s.returned := rfl
@[simp] theorem loadSeed_awaitsIdle : (loadSeed s).awaitsIdle = s.awaitsIdle := rfl
@[simp] theorem loadSeed_turns : (loadSeed s).turns = s.turns := rfl
@[simp] theorem loadSeed_draws : (loadSeed s).draws = s.draws := rfl

@[simp] theorem drawTurns_params : (drawTurns s).params = s.params := rfl
@[simp] theorem drawTurns_wsel : (drawTurns s).wsel = s.wsel := rfl
@[simp] theorem drawTurns_psel : (drawTurns s).psel = s.psel := rfl
@[simp] theorem drawTurns_ie : (drawTurns s).ie = s.ie := rfl
@[simp] theorem drawTurns_ptr : (drawTurns s).ptr = s.ptr := rfl
@[simp] theorem drawTurns_len : (drawTurns s).len = s.len := rfl
@[simp] theorem drawTurns_acc : (drawTurns s).acc = s.acc := rfl
@[simp] theorem drawTurns_count : (drawTurns s).count = s.count := rfl
@[simp] theorem drawTurns_done : (drawTurns s).done = s.done := rfl
@[simp] theorem drawTurns_err : (drawTurns s).err = s.err := rfl
@[simp] theorem drawTurns_ovr : (drawTurns s).ovr = s.ovr := rfl
@[simp] theorem drawTurns_ecode : (drawTurns s).ecode = s.ecode := rfl
@[simp] theorem drawTurns_phase : (drawTurns s).phase = s.phase := rfl
@[simp] theorem drawTurns_cur : (drawTurns s).cur = s.cur := rfl
@[simp] theorem drawTurns_rem : (drawTurns s).rem = s.rem := rfl
@[simp] theorem drawTurns_busMark : (drawTurns s).busMark = s.busMark := rfl
@[simp] theorem drawTurns_mem : (drawTurns s).mem = s.mem := rfl
@[simp] theorem drawTurns_raced : (drawTurns s).raced = s.raced := rfl
@[simp] theorem drawTurns_borrow : (drawTurns s).borrow = s.borrow := rfl
@[simp] theorem drawTurns_inputs : (drawTurns s).inputs = s.inputs := rfl
@[simp] theorem drawTurns_returned : (drawTurns s).returned = s.returned := rfl
@[simp] theorem drawTurns_awaitsIdle : (drawTurns s).awaitsIdle = s.awaitsIdle := rfl
@[simp] theorem drawTurns_turns : (drawTurns s).turns = Config.freeTurns s.draws := rfl
@[simp] theorem drawTurns_draws : (drawTurns s).draws = s.draws + 1 := rfl

@[simp] theorem startOperation_params (ph : Phase) (n : Word64) : (startOperation ph n s).params = s.params := rfl
@[simp] theorem startOperation_wsel (ph : Phase) (n : Word64) : (startOperation ph n s).wsel = s.wsel := rfl
@[simp] theorem startOperation_psel (ph : Phase) (n : Word64) : (startOperation ph n s).psel = s.psel := rfl
@[simp] theorem startOperation_ie (ph : Phase) (n : Word64) : (startOperation ph n s).ie = s.ie := rfl
@[simp] theorem startOperation_ptr (ph : Phase) (n : Word64) : (startOperation ph n s).ptr = s.ptr := rfl
@[simp] theorem startOperation_len (ph : Phase) (n : Word64) : (startOperation ph n s).len = s.len := rfl
@[simp] theorem startOperation_acc (ph : Phase) (n : Word64) : (startOperation ph n s).acc = s.acc := rfl
@[simp] theorem startOperation_count (ph : Phase) (n : Word64) : (startOperation ph n s).count = s.count := rfl
@[simp] theorem startOperation_done (ph : Phase) (n : Word64) : (startOperation ph n s).done = s.done := rfl
@[simp] theorem startOperation_err (ph : Phase) (n : Word64) : (startOperation ph n s).err = s.err := rfl
@[simp] theorem startOperation_ovr (ph : Phase) (n : Word64) : (startOperation ph n s).ovr = s.ovr := rfl
@[simp] theorem startOperation_ecode (ph : Phase) (n : Word64) : (startOperation ph n s).ecode = s.ecode := rfl
@[simp] theorem startOperation_phase (ph : Phase) (n : Word64) : (startOperation ph n s).phase = ph := rfl
@[simp] theorem startOperation_cur (ph : Phase) (n : Word64) : (startOperation ph n s).cur = s.ptr := rfl
@[simp] theorem startOperation_rem (ph : Phase) (n : Word64) : (startOperation ph n s).rem = n := rfl
@[simp] theorem startOperation_busMark (ph : Phase) (n : Word64) : (startOperation ph n s).busMark = s.busMark := rfl
@[simp] theorem startOperation_mem (ph : Phase) (n : Word64) : (startOperation ph n s).mem = s.mem := rfl
@[simp] theorem startOperation_raced (ph : Phase) (n : Word64) : (startOperation ph n s).raced = [] := rfl
@[simp] theorem startOperation_borrow (ph : Phase) (n : Word64) : (startOperation ph n s).borrow = s.draws := rfl
@[simp] theorem startOperation_inputs (ph : Phase) (n : Word64) : (startOperation ph n s).inputs = s.inputs := rfl
@[simp] theorem startOperation_returned (ph : Phase) (n : Word64) : (startOperation ph n s).returned = s.returned := rfl
@[simp] theorem startOperation_awaitsIdle (ph : Phase) (n : Word64) : (startOperation ph n s).awaitsIdle = true := rfl
@[simp] theorem startOperation_turns (ph : Phase) (n : Word64) : (startOperation ph n s).turns = Config.freeTurns s.draws := rfl
@[simp] theorem startOperation_draws (ph : Phase) (n : Word64) : (startOperation ph n s).draws = s.draws + 1 := rfl

@[simp] theorem endOperation_params : (endOperation s).params = s.params := rfl
@[simp] theorem endOperation_wsel : (endOperation s).wsel = s.wsel := rfl
@[simp] theorem endOperation_psel : (endOperation s).psel = s.psel := rfl
@[simp] theorem endOperation_ie : (endOperation s).ie = s.ie := rfl
@[simp] theorem endOperation_ptr : (endOperation s).ptr = s.ptr := rfl
@[simp] theorem endOperation_len : (endOperation s).len = s.len := rfl
@[simp] theorem endOperation_acc : (endOperation s).acc = s.acc := rfl
@[simp] theorem endOperation_count : (endOperation s).count = s.count := rfl
@[simp] theorem endOperation_done : (endOperation s).done = s.done := rfl
@[simp] theorem endOperation_err : (endOperation s).err = s.err := rfl
@[simp] theorem endOperation_ovr : (endOperation s).ovr = s.ovr := rfl
@[simp] theorem endOperation_ecode : (endOperation s).ecode = s.ecode := rfl
@[simp] theorem endOperation_phase : (endOperation s).phase = .idle := rfl
@[simp] theorem endOperation_cur : (endOperation s).cur = addrBits s.params (Config.freeCur s.draws) := rfl
@[simp] theorem endOperation_rem : (endOperation s).rem = addrBits s.params (Config.freeRem s.draws) := rfl
@[simp] theorem endOperation_busMark : (endOperation s).busMark = s.busMark := rfl
@[simp] theorem endOperation_mem : (endOperation s).mem = s.mem := rfl
@[simp] theorem endOperation_raced : (endOperation s).raced = [] := rfl
@[simp] theorem endOperation_borrow : (endOperation s).borrow = s.borrow := rfl
@[simp] theorem endOperation_inputs : (endOperation s).inputs = s.inputs := rfl
@[simp] theorem endOperation_returned : (endOperation s).returned = s.returned := rfl
@[simp] theorem endOperation_awaitsIdle : (endOperation s).awaitsIdle = s.awaitsIdle := rfl
@[simp] theorem endOperation_turns : (endOperation s).turns = s.turns := rfl
@[simp] theorem endOperation_draws : (endOperation s).draws = s.draws + 1 := rfl

@[simp] theorem raiseAccept_params (c : ErrCode) : (raiseError .acceptance c s).params = s.params := rfl
@[simp] theorem raiseAccept_wsel (c : ErrCode) : (raiseError .acceptance c s).wsel = s.wsel := rfl
@[simp] theorem raiseAccept_psel (c : ErrCode) : (raiseError .acceptance c s).psel = s.psel := rfl
@[simp] theorem raiseAccept_ie (c : ErrCode) : (raiseError .acceptance c s).ie = s.ie := rfl
@[simp] theorem raiseAccept_ptr (c : ErrCode) : (raiseError .acceptance c s).ptr = s.ptr := rfl
@[simp] theorem raiseAccept_len (c : ErrCode) : (raiseError .acceptance c s).len = s.len := rfl
@[simp] theorem raiseAccept_acc (c : ErrCode) : (raiseError .acceptance c s).acc = s.acc := rfl
@[simp] theorem raiseAccept_count (c : ErrCode) : (raiseError .acceptance c s).count = s.count := rfl
@[simp] theorem raiseAccept_done (c : ErrCode) : (raiseError .acceptance c s).done = false := rfl
@[simp] theorem raiseAccept_err (c : ErrCode) : (raiseError .acceptance c s).err = true := rfl
@[simp] theorem raiseAccept_ovr (c : ErrCode) : (raiseError .acceptance c s).ovr = s.ovr := rfl
@[simp] theorem raiseAccept_ecode (c : ErrCode) : (raiseError .acceptance c s).ecode = c := rfl
@[simp] theorem raiseAccept_phase (c : ErrCode) : (raiseError .acceptance c s).phase = s.phase := rfl
@[simp] theorem raiseAccept_cur (c : ErrCode) : (raiseError .acceptance c s).cur = s.cur := rfl
@[simp] theorem raiseAccept_rem (c : ErrCode) : (raiseError .acceptance c s).rem = s.rem := rfl
@[simp] theorem raiseAccept_busMark (c : ErrCode) : (raiseError .acceptance c s).busMark = (s.busMark || c == .bus) := rfl
@[simp] theorem raiseAccept_mem (c : ErrCode) : (raiseError .acceptance c s).mem = s.mem := rfl
@[simp] theorem raiseAccept_raced (c : ErrCode) : (raiseError .acceptance c s).raced = s.raced := rfl
@[simp] theorem raiseAccept_borrow (c : ErrCode) : (raiseError .acceptance c s).borrow = s.borrow := rfl
@[simp] theorem raiseAccept_inputs (c : ErrCode) : (raiseError .acceptance c s).inputs = s.inputs := rfl
@[simp] theorem raiseAccept_returned (c : ErrCode) : (raiseError .acceptance c s).returned = s.returned := rfl
@[simp] theorem raiseAccept_awaitsIdle (c : ErrCode) : (raiseError .acceptance c s).awaitsIdle = s.awaitsIdle := rfl
@[simp] theorem raiseAccept_turns (c : ErrCode) : (raiseError .acceptance c s).turns = s.turns := rfl
@[simp] theorem raiseAccept_draws (c : ErrCode) : (raiseError .acceptance c s).draws = s.draws := rfl

@[simp] theorem raiseRun_params (c : ErrCode) : (raiseError .microStep c s).params = s.params := rfl
@[simp] theorem raiseRun_wsel (c : ErrCode) : (raiseError .microStep c s).wsel = s.wsel := rfl
@[simp] theorem raiseRun_psel (c : ErrCode) : (raiseError .microStep c s).psel = s.psel := rfl
@[simp] theorem raiseRun_ie (c : ErrCode) : (raiseError .microStep c s).ie = s.ie := rfl
@[simp] theorem raiseRun_ptr (c : ErrCode) : (raiseError .microStep c s).ptr = s.ptr := rfl
@[simp] theorem raiseRun_len (c : ErrCode) : (raiseError .microStep c s).len = s.len := rfl
@[simp] theorem raiseRun_acc (c : ErrCode) : (raiseError .microStep c s).acc = Config.freeAcc s.draws := rfl
@[simp] theorem raiseRun_count (c : ErrCode) : (raiseError .microStep c s).count = Config.freeCount s.draws := rfl
@[simp] theorem raiseRun_done (c : ErrCode) : (raiseError .microStep c s).done = false := rfl
@[simp] theorem raiseRun_err (c : ErrCode) : (raiseError .microStep c s).err = true := rfl
@[simp] theorem raiseRun_ovr (c : ErrCode) : (raiseError .microStep c s).ovr = s.ovr := rfl
@[simp] theorem raiseRun_ecode (c : ErrCode) : (raiseError .microStep c s).ecode = c := rfl
@[simp] theorem raiseRun_phase (c : ErrCode) : (raiseError .microStep c s).phase = .idle := rfl
@[simp] theorem raiseRun_cur (c : ErrCode) : (raiseError .microStep c s).cur = addrBits s.params (Config.freeCur s.draws) := rfl
@[simp] theorem raiseRun_rem (c : ErrCode) : (raiseError .microStep c s).rem = addrBits s.params (Config.freeRem s.draws) := rfl
@[simp] theorem raiseRun_busMark (c : ErrCode) : (raiseError .microStep c s).busMark = (s.busMark || c == .bus) := rfl
@[simp] theorem raiseRun_mem (c : ErrCode) : (raiseError .microStep c s).mem = s.mem := rfl
@[simp] theorem raiseRun_raced (c : ErrCode) : (raiseError .microStep c s).raced = [] := rfl
@[simp] theorem raiseRun_borrow (c : ErrCode) : (raiseError .microStep c s).borrow = s.borrow := rfl
@[simp] theorem raiseRun_inputs (c : ErrCode) : (raiseError .microStep c s).inputs = s.inputs := rfl
@[simp] theorem raiseRun_returned (c : ErrCode) : (raiseError .microStep c s).returned = s.returned := rfl
@[simp] theorem raiseRun_awaitsIdle (c : ErrCode) : (raiseError .microStep c s).awaitsIdle = s.awaitsIdle := rfl
@[simp] theorem raiseRun_turns (c : ErrCode) : (raiseError .microStep c s).turns = s.turns := rfl
@[simp] theorem raiseRun_draws (c : ErrCode) : (raiseError .microStep c s).draws = s.draws + 1 := rfl

@[simp] theorem applyReset_params : (applyReset s).params = s.params := rfl
@[simp] theorem applyReset_wsel : (applyReset s).wsel = resetWidth s.params := rfl
@[simp] theorem applyReset_psel : (applyReset s).psel = .identity := rfl
@[simp] theorem applyReset_ie : (applyReset s).ie = false := rfl
@[simp] theorem applyReset_ptr : (applyReset s).ptr = 0 := rfl
@[simp] theorem applyReset_len : (applyReset s).len = 0 := rfl
@[simp] theorem applyReset_acc : (applyReset s).acc = seed (resetWidth s.params) := rfl
@[simp] theorem applyReset_count : (applyReset s).count = 0 := rfl
@[simp] theorem applyReset_done : (applyReset s).done = false := rfl
@[simp] theorem applyReset_err : (applyReset s).err = false := rfl
@[simp] theorem applyReset_ovr : (applyReset s).ovr = false := rfl
@[simp] theorem applyReset_ecode : (applyReset s).ecode = .none := rfl
@[simp] theorem applyReset_phase : (applyReset s).phase = .idle := rfl
@[simp] theorem applyReset_cur : (applyReset s).cur = 0 := rfl
@[simp] theorem applyReset_rem : (applyReset s).rem = 0 := rfl
@[simp] theorem applyReset_busMark : (applyReset s).busMark = s.busMark := rfl
@[simp] theorem applyReset_mem : (applyReset s).mem = s.mem := rfl
@[simp] theorem applyReset_raced : (applyReset s).raced = [] := rfl
@[simp] theorem applyReset_borrow : (applyReset s).borrow = s.borrow := rfl
@[simp] theorem applyReset_inputs : (applyReset s).inputs = s.inputs := rfl
@[simp] theorem applyReset_returned : (applyReset s).returned = s.returned := rfl
@[simp] theorem applyReset_awaitsIdle : (applyReset s).awaitsIdle = s.awaitsIdle := rfl
@[simp] theorem applyReset_turns : (applyReset s).turns = s.turns := rfl
@[simp] theorem applyReset_draws : (applyReset s).draws = s.draws := rfl

@[simp] theorem writeCfg_params (v : Word32) : (writeCfg v s).params = s.params := rfl
@[simp] theorem writeCfg_wsel (v : Word32) : (writeCfg v s).wsel = writtenWsel s v := rfl
@[simp] theorem writeCfg_psel (v : Word32) : (writeCfg v s).psel = pselOfBits (v.extractLsb' 1 2) := rfl
@[simp] theorem writeCfg_ie (v : Word32) : (writeCfg v s).ie = v.getLsbD 3 := rfl
@[simp] theorem writeCfg_ptr (v : Word32) : (writeCfg v s).ptr = s.ptr := rfl
@[simp] theorem writeCfg_len (v : Word32) : (writeCfg v s).len = s.len := rfl
@[simp] theorem writeCfg_acc (v : Word32) : (writeCfg v s).acc = s.acc := rfl
@[simp] theorem writeCfg_count (v : Word32) : (writeCfg v s).count = s.count := rfl
@[simp] theorem writeCfg_done (v : Word32) : (writeCfg v s).done = s.done := rfl
@[simp] theorem writeCfg_err (v : Word32) : (writeCfg v s).err = s.err := rfl
@[simp] theorem writeCfg_ovr (v : Word32) : (writeCfg v s).ovr = s.ovr := rfl
@[simp] theorem writeCfg_ecode (v : Word32) : (writeCfg v s).ecode = s.ecode := rfl
@[simp] theorem writeCfg_phase (v : Word32) : (writeCfg v s).phase = s.phase := rfl
@[simp] theorem writeCfg_cur (v : Word32) : (writeCfg v s).cur = s.cur := rfl
@[simp] theorem writeCfg_rem (v : Word32) : (writeCfg v s).rem = s.rem := rfl
@[simp] theorem writeCfg_busMark (v : Word32) : (writeCfg v s).busMark = s.busMark := rfl
@[simp] theorem writeCfg_mem (v : Word32) : (writeCfg v s).mem = s.mem := rfl
@[simp] theorem writeCfg_raced (v : Word32) : (writeCfg v s).raced = s.raced := rfl
@[simp] theorem writeCfg_borrow (v : Word32) : (writeCfg v s).borrow = s.borrow := rfl
@[simp] theorem writeCfg_inputs (v : Word32) : (writeCfg v s).inputs = s.inputs := rfl
@[simp] theorem writeCfg_returned (v : Word32) : (writeCfg v s).returned = s.returned := rfl
@[simp] theorem writeCfg_awaitsIdle (v : Word32) : (writeCfg v s).awaitsIdle = s.awaitsIdle := rfl
@[simp] theorem writeCfg_turns (v : Word32) : (writeCfg v s).turns = s.turns := rfl
@[simp] theorem writeCfg_draws (v : Word32) : (writeCfg v s).draws = s.draws := rfl

@[simp] theorem writePtr_params (x : Word64) : (writePtr x s).params = s.params := rfl
@[simp] theorem writePtr_wsel (x : Word64) : (writePtr x s).wsel = s.wsel := rfl
@[simp] theorem writePtr_psel (x : Word64) : (writePtr x s).psel = s.psel := rfl
@[simp] theorem writePtr_ie (x : Word64) : (writePtr x s).ie = s.ie := rfl
@[simp] theorem writePtr_ptr (x : Word64) : (writePtr x s).ptr = addrBits s.params x := rfl
@[simp] theorem writePtr_len (x : Word64) : (writePtr x s).len = s.len := rfl
@[simp] theorem writePtr_acc (x : Word64) : (writePtr x s).acc = s.acc := rfl
@[simp] theorem writePtr_count (x : Word64) : (writePtr x s).count = s.count := rfl
@[simp] theorem writePtr_done (x : Word64) : (writePtr x s).done = s.done := rfl
@[simp] theorem writePtr_err (x : Word64) : (writePtr x s).err = s.err := rfl
@[simp] theorem writePtr_ovr (x : Word64) : (writePtr x s).ovr = s.ovr := rfl
@[simp] theorem writePtr_ecode (x : Word64) : (writePtr x s).ecode = s.ecode := rfl
@[simp] theorem writePtr_phase (x : Word64) : (writePtr x s).phase = s.phase := rfl
@[simp] theorem writePtr_cur (x : Word64) : (writePtr x s).cur = s.cur := rfl
@[simp] theorem writePtr_rem (x : Word64) : (writePtr x s).rem = s.rem := rfl
@[simp] theorem writePtr_busMark (x : Word64) : (writePtr x s).busMark = s.busMark := rfl
@[simp] theorem writePtr_mem (x : Word64) : (writePtr x s).mem = s.mem := rfl
@[simp] theorem writePtr_raced (x : Word64) : (writePtr x s).raced = s.raced := rfl
@[simp] theorem writePtr_borrow (x : Word64) : (writePtr x s).borrow = s.borrow := rfl
@[simp] theorem writePtr_inputs (x : Word64) : (writePtr x s).inputs = s.inputs := rfl
@[simp] theorem writePtr_returned (x : Word64) : (writePtr x s).returned = s.returned := rfl
@[simp] theorem writePtr_awaitsIdle (x : Word64) : (writePtr x s).awaitsIdle = s.awaitsIdle := rfl
@[simp] theorem writePtr_turns (x : Word64) : (writePtr x s).turns = s.turns := rfl
@[simp] theorem writePtr_draws (x : Word64) : (writePtr x s).draws = s.draws := rfl

@[simp] theorem writeLen_params (x : Word64) : (writeLen x s).params = s.params := rfl
@[simp] theorem writeLen_wsel (x : Word64) : (writeLen x s).wsel = s.wsel := rfl
@[simp] theorem writeLen_psel (x : Word64) : (writeLen x s).psel = s.psel := rfl
@[simp] theorem writeLen_ie (x : Word64) : (writeLen x s).ie = s.ie := rfl
@[simp] theorem writeLen_ptr (x : Word64) : (writeLen x s).ptr = s.ptr := rfl
@[simp] theorem writeLen_len (x : Word64) : (writeLen x s).len = addrBits s.params x := rfl
@[simp] theorem writeLen_acc (x : Word64) : (writeLen x s).acc = s.acc := rfl
@[simp] theorem writeLen_count (x : Word64) : (writeLen x s).count = s.count := rfl
@[simp] theorem writeLen_done (x : Word64) : (writeLen x s).done = s.done := rfl
@[simp] theorem writeLen_err (x : Word64) : (writeLen x s).err = s.err := rfl
@[simp] theorem writeLen_ovr (x : Word64) : (writeLen x s).ovr = s.ovr := rfl
@[simp] theorem writeLen_ecode (x : Word64) : (writeLen x s).ecode = s.ecode := rfl
@[simp] theorem writeLen_phase (x : Word64) : (writeLen x s).phase = s.phase := rfl
@[simp] theorem writeLen_cur (x : Word64) : (writeLen x s).cur = s.cur := rfl
@[simp] theorem writeLen_rem (x : Word64) : (writeLen x s).rem = s.rem := rfl
@[simp] theorem writeLen_busMark (x : Word64) : (writeLen x s).busMark = s.busMark := rfl
@[simp] theorem writeLen_mem (x : Word64) : (writeLen x s).mem = s.mem := rfl
@[simp] theorem writeLen_raced (x : Word64) : (writeLen x s).raced = s.raced := rfl
@[simp] theorem writeLen_borrow (x : Word64) : (writeLen x s).borrow = s.borrow := rfl
@[simp] theorem writeLen_inputs (x : Word64) : (writeLen x s).inputs = s.inputs := rfl
@[simp] theorem writeLen_returned (x : Word64) : (writeLen x s).returned = s.returned := rfl
@[simp] theorem writeLen_awaitsIdle (x : Word64) : (writeLen x s).awaitsIdle = s.awaitsIdle := rfl
@[simp] theorem writeLen_turns (x : Word64) : (writeLen x s).turns = s.turns := rfl
@[simp] theorem writeLen_draws (x : Word64) : (writeLen x s).draws = s.draws := rfl

/-! Settling races changes ACC and COUNT only. -/

@[simp] theorem settleRaces_params : (settleRaces s).params = s.params := by unfold settleRaces; split <;> rfl
@[simp] theorem settleRaces_wsel : (settleRaces s).wsel = s.wsel := by unfold settleRaces; split <;> rfl
@[simp] theorem settleRaces_psel : (settleRaces s).psel = s.psel := by unfold settleRaces; split <;> rfl
@[simp] theorem settleRaces_ie : (settleRaces s).ie = s.ie := by unfold settleRaces; split <;> rfl
@[simp] theorem settleRaces_ptr : (settleRaces s).ptr = s.ptr := by unfold settleRaces; split <;> rfl
@[simp] theorem settleRaces_len : (settleRaces s).len = s.len := by unfold settleRaces; split <;> rfl
@[simp] theorem settleRaces_done : (settleRaces s).done = s.done := by unfold settleRaces; split <;> rfl
@[simp] theorem settleRaces_err : (settleRaces s).err = s.err := by unfold settleRaces; split <;> rfl
@[simp] theorem settleRaces_ovr : (settleRaces s).ovr = s.ovr := by unfold settleRaces; split <;> rfl
@[simp] theorem settleRaces_ecode : (settleRaces s).ecode = s.ecode := by unfold settleRaces; split <;> rfl
@[simp] theorem settleRaces_phase : (settleRaces s).phase = s.phase := by unfold settleRaces; split <;> rfl
@[simp] theorem settleRaces_cur : (settleRaces s).cur = s.cur := by unfold settleRaces; split <;> rfl
@[simp] theorem settleRaces_rem : (settleRaces s).rem = s.rem := by unfold settleRaces; split <;> rfl
@[simp] theorem settleRaces_busMark : (settleRaces s).busMark = s.busMark := by unfold settleRaces; split <;> rfl
@[simp] theorem settleRaces_mem : (settleRaces s).mem = s.mem := by unfold settleRaces; split <;> rfl
@[simp] theorem settleRaces_raced : (settleRaces s).raced = s.raced := by unfold settleRaces; split <;> rfl
@[simp] theorem settleRaces_borrow : (settleRaces s).borrow = s.borrow := by unfold settleRaces; split <;> rfl
@[simp] theorem settleRaces_inputs : (settleRaces s).inputs = s.inputs := by unfold settleRaces; split <;> rfl
@[simp] theorem settleRaces_returned : (settleRaces s).returned = s.returned := by unfold settleRaces; split <;> rfl
@[simp] theorem settleRaces_awaitsIdle : (settleRaces s).awaitsIdle = s.awaitsIdle := by unfold settleRaces; split <;> rfl
@[simp] theorem settleRaces_turns : (settleRaces s).turns = s.turns := by unfold settleRaces; split <;> rfl
@[simp] theorem settleRaces_draws : (settleRaces s).draws = s.draws := by unfold settleRaces; split <;> rfl

/-! Completion. -/

@[simp] theorem completeOperation_params : (completeOperation s).params = s.params := by simp [completeOperation]
@[simp] theorem completeOperation_wsel : (completeOperation s).wsel = s.wsel := by simp [completeOperation]
@[simp] theorem completeOperation_psel : (completeOperation s).psel = s.psel := by simp [completeOperation]
@[simp] theorem completeOperation_ie : (completeOperation s).ie = s.ie := by simp [completeOperation]
@[simp] theorem completeOperation_ptr : (completeOperation s).ptr = s.ptr := by simp [completeOperation]
@[simp] theorem completeOperation_len : (completeOperation s).len = s.len := by simp [completeOperation]
@[simp] theorem completeOperation_acc : (completeOperation s).acc = (settleRaces s).acc := rfl
@[simp] theorem completeOperation_count : (completeOperation s).count = (settleRaces s).count := rfl
@[simp] theorem completeOperation_done : (completeOperation s).done = true := rfl
@[simp] theorem completeOperation_err : (completeOperation s).err = s.err := by simp [completeOperation]
@[simp] theorem completeOperation_ovr : (completeOperation s).ovr = s.ovr := by simp [completeOperation]
@[simp] theorem completeOperation_ecode : (completeOperation s).ecode = s.ecode := by simp [completeOperation]
@[simp] theorem completeOperation_phase : (completeOperation s).phase = .idle := rfl
@[simp] theorem completeOperation_cur : (completeOperation s).cur = addrBits s.params (Config.freeCur s.draws) := by simp [completeOperation]
@[simp] theorem completeOperation_rem : (completeOperation s).rem = addrBits s.params (Config.freeRem s.draws) := by simp [completeOperation]
@[simp] theorem completeOperation_busMark : (completeOperation s).busMark = s.busMark := by simp [completeOperation]
@[simp] theorem completeOperation_mem : (completeOperation s).mem = s.mem := by simp [completeOperation]
@[simp] theorem completeOperation_raced : (completeOperation s).raced = [] := rfl
@[simp] theorem completeOperation_borrow : (completeOperation s).borrow = s.borrow := by simp [completeOperation]
@[simp] theorem completeOperation_inputs : (completeOperation s).inputs = s.inputs := by simp [completeOperation]
@[simp] theorem completeOperation_returned : (completeOperation s).returned = s.returned := by simp [completeOperation]
@[simp] theorem completeOperation_awaitsIdle : (completeOperation s).awaitsIdle = s.awaitsIdle := by simp [completeOperation]
@[simp] theorem completeOperation_turns : (completeOperation s).turns = s.turns := by simp [completeOperation]
@[simp] theorem completeOperation_draws : (completeOperation s).draws = s.draws + 1 := by simp [completeOperation]

/-! BUSY after an update that sets or keeps PHASE. -/

theorem busy_iff : s.busy = true ↔ s.phase ≠ .idle := by simp [State.busy]

theorem not_busy_iff : s.busy = false ↔ s.phase = .idle := by simp [State.busy]

theorem phase_cases (s : State) : s.phase = .idle ∨ s.phase = .runN ∨ s.phase = .runZ := by
  cases s.phase <;> simp

theorem busy_of_phase {s t : State} (h : t.phase = s.phase) : t.busy = s.busy := by simp [State.busy, h]

@[simp] theorem clearOutcome_busy : (clearOutcome s).busy = s.busy := rfl
@[simp] theorem dropWrite_busy : (dropWrite s).busy = s.busy := rfl
@[simp] theorem clearOvr_busy : (clearOvr s).busy = s.busy := rfl
@[simp] theorem setDone_busy : (setDone s).busy = s.busy := rfl
@[simp] theorem loadSeed_busy : (loadSeed s).busy = s.busy := rfl
@[simp] theorem foldByte_busy (b : Byte) : (foldByte s b).busy = s.busy := rfl
@[simp] theorem drawTurns_busy : (drawTurns s).busy = s.busy := rfl
@[simp] theorem endOperation_busy : (endOperation s).busy = false := rfl
@[simp] theorem completeOperation_busy : (completeOperation s).busy = false := rfl
@[simp] theorem raiseRun_busy (c : ErrCode) : (raiseError .microStep c s).busy = false := rfl
@[simp] theorem raiseAccept_busy (c : ErrCode) : (raiseError .acceptance c s).busy = s.busy := rfl
@[simp] theorem applyReset_busy : (applyReset s).busy = false := rfl

end Sys2Proof.Machine
end

