-- ==== Sys2Proof/Laws/Memory.lean ====
section
/-! SUPPORT. The buffer memory: a read after a write, the canonical form, MemRead's lanes and the raced addresses. -/

namespace Sys2Proof.Machine

/-! The canonical form. -/

/-- Every listed address is above k. -/
def memAbove (k : Nat) (m : List Host.Cell) : Prop := ∀ c ∈ m, k < c.1

theorem memWf_cons {k : Nat} {v : Byte} {m : List Host.Cell} :
    memWf ((k, v) :: m) = true ↔ v ≠ unlistedByte ∧ memAbove k m ∧ memWf m = true := by
  induction m generalizing k v with
  | nil => simp [memWf, memAbove]
  | cons c m ih =>
    obtain ⟨k', v'⟩ := c
    simp only [memWf, Bool.and_eq_true, bne_iff_ne, decide_eq_true_eq, and_assoc]
    refine and_congr_right fun _ => ⟨fun ⟨hk, hm⟩ => ⟨?_, hm⟩, fun ⟨ha, hm⟩ => ⟨ha (k', v') (by simp), hm⟩⟩
    have habove := (ih.1 hm).2.1
    intro c hc
    rcases List.mem_cons.1 hc with rfl | hc
    · exact hk
    · exact hk.trans (habove c hc)

theorem memByte_above {k a : Nat} {m : List Host.Cell} (h : memAbove k m) (ha : a ≤ k) :
    memByte m a = unlistedByte := by
  induction m with
  | nil => rfl
  | cons c m ih =>
    have hc : k < c.1 := h c (by simp)
    rw [memByte, if_neg (by omega)]
    exact ih fun c hc => h c (by simp [hc])

theorem memAbove_cons {k : Nat} {c : Host.Cell} {m : List Host.Cell} :
    memAbove k (c :: m) ↔ k < c.1 ∧ memAbove k m := by simp [memAbove]

theorem memSet_above {k a : Nat} {v : Byte} {m : List Host.Cell} (h : memAbove k m) (ha : k < a) :
    memAbove k (memSet m a v) := by
  induction m with
  | nil =>
    unfold memSet
    split
    · exact h
    · exact memAbove_cons.2 ⟨ha, h⟩
  | cons c m ih =>
    obtain ⟨k', w⟩ := c
    obtain ⟨hk', hm⟩ := memAbove_cons.1 h
    unfold memSet
    split_ifs
    · exact h
    · exact memAbove_cons.2 ⟨ha, h⟩
    · exact hm
    · exact memAbove_cons.2 ⟨ha, hm⟩
    · exact memAbove_cons.2 ⟨hk', ih hm⟩

/-- A write keeps the canonical form. -/
theorem memWf_memSet {m : List Host.Cell} (h : memWf m = true) (a : Nat) (v : Byte) :
    memWf (memSet m a v) = true := by
  induction m with
  | nil =>
    unfold memSet
    split <;> simp_all [memWf]
  | cons c m ih =>
    obtain ⟨k, w⟩ := c
    obtain ⟨hw, habove, hm⟩ := memWf_cons.1 h
    unfold memSet
    split_ifs with h1 h2 h3 h4
    · exact h
    · refine memWf_cons.2 ⟨h2, ?_, h⟩
      intro c hc
      rcases List.mem_cons.1 hc with rfl | hc
      · exact h1
      · exact h1.trans (habove c hc)
    · exact hm
    · exact memWf_cons.2 ⟨h4, by rw [h3]; exact habove, hm⟩
    · exact memWf_cons.2 ⟨hw, memSet_above habove (by omega), ih hm⟩

/-- A read after a write to the same address gives the byte written. -/
theorem memByte_memSet_same {m : List Host.Cell} (h : memWf m = true) (a : Nat) (v : Byte) :
    memByte (memSet m a v) a = v := by
  induction m with
  | nil =>
    unfold memSet
    split <;> simp_all [memByte]
  | cons c m ih =>
    obtain ⟨k, w⟩ := c
    obtain ⟨hw, habove, hm⟩ := memWf_cons.1 h
    unfold memSet
    split_ifs with h1 h2 h3 h4
    · rw [memByte, if_neg (by omega), memByte_above habove (by omega), h2]
    · simp [memByte]
    · rw [h4, memByte_above habove (by omega)]
    · simp [memByte]
    · rw [memByte, if_neg (by omega), ih hm]

/-- A write leaves every other address as it was. -/
theorem memByte_memSet_other (m : List Host.Cell) {a a' : Nat} (v : Byte) (ha : a' ≠ a) :
    memByte (memSet m a v) a' = memByte m a' := by
  induction m with
  | nil =>
    unfold memSet
    split <;> simp [memByte, ha.symm]
  | cons c m ih =>
    obtain ⟨k, w⟩ := c
    unfold memSet
    split_ifs with h1 h2 h3 h4
    · rfl
    · simp [memByte, ha.symm]
    · rw [memByte, if_neg (by omega)]
    · rw [memByte, memByte, if_neg (by omega), if_neg (by omega)]
    · rw [memByte, memByte, ih]

theorem memWf_memSetAll {m : List Host.Cell} (h : memWf m = true) (a : Nat) (bs : List Byte) :
    memWf (memSetAll m a bs) = true := by
  induction bs generalizing m a with
  | nil => exact h
  | cons b bs ih => exact ih (memWf_memSet h a b) (a + 1)

theorem memByte_memSetAll_other (m : List Host.Cell) (a : Nat) (bs : List Byte) {a' : Nat}
    (h : a' < a ∨ a + bs.length ≤ a') : memByte (memSetAll m a bs) a' = memByte m a' := by
  induction bs generalizing m a with
  | nil => rfl
  | cons b bs ih =>
    simp only [List.length_cons] at h
    rw [memSetAll, ih _ _ (by omega), memByte_memSet_other _ _ (by omega)]

/-- Each byte of a write reads back at its address. -/
theorem memByte_memSetAll_in {m : List Host.Cell} (h : memWf m = true) (a : Nat) (bs : List Byte) {i : Nat} {b : Byte}
    (hb : bs[i]? = some b) : memByte (memSetAll m a bs) (a + i) = b := by
  induction bs generalizing m a i with
  | nil => simp at hb
  | cons c cs ih =>
    cases i with
    | zero =>
      obtain rfl : c = b := by simpa using hb
      rw [memSetAll, Nat.add_zero, memByte_memSetAll_other _ _ _ (by omega)]
      exact memByte_memSet_same h _ _
    | succ i =>
      rw [memSetAll, show a + (i + 1) = a + 1 + i by omega]
      exact ih (memWf_memSet h a c) (a + 1) (by simpa using hb)

/-! The lanes of a read. -/

@[simp] theorem readLanes_length (s : State) (addr n : Nat) : (readLanes s addr n).length = n := by
  simp [readLanes]

@[simp] theorem bytesAt_length (m : List Host.Cell) (a n : Nat) : (bytesAt m a n).length = n := by
  simp [bytesAt]

theorem bytesAt_add (m : List Host.Cell) (a i n : Nat) :
    bytesAt m a (i + n) = bytesAt m a i ++ bytesAt m (a + i) n := by
  simp [bytesAt, List.range_add, Function.comp_def, Nat.add_assoc]

theorem bytesAt_one (m : List Host.Cell) (a : Nat) : bytesAt m a 1 = [memByte m a] := by simp [bytesAt]

theorem bytesAt_congr {m m' : List Host.Cell} {a n : Nat}
    (h : ∀ x, a ≤ x → x < a + n → memByte m' x = memByte m x) : bytesAt m' a n = bytesAt m a n := by
  refine List.map_congr_left fun i hi => h _ (by omega) ?_
  have := List.mem_range.1 hi
  omega

/-- Lanes none of which is raced are the bytes the memory holds. -/
theorem readLanes_unraced {s : State} {addr n : Nat} (h : ∀ a ∈ s.raced, a < addr ∨ addr + n ≤ a) :
    readLanes s addr n = bytesAt s.mem addr n := by
  refine List.map_congr_left fun i hi => ?_
  have hi := List.mem_range.1 hi
  rw [readLane, if_neg]
  intro hr
  have := h _ hr
  omega

/-- Everything MemRead can answer: the failed read, or the n lanes of an admitted range inside the address space. -/
theorem memRead_cases (s : State) (addr n : Nat) :
    memRead s addr n = none ∨
    (memRead s addr n = some (readLanes s addr n) ∧ addr + n ≤ 2 ^ s.params.addrW ∧ admitsRange s.params addr n) := by
  unfold memRead
  split_ifs with h1 h2
  · exact .inl rfl
  · refine .inr ⟨rfl, by omega, fun i hi => ?_⟩
    simpa using List.all_eq_true.1 h2 i (List.mem_range.2 hi)
  · exact .inl rfl

theorem memRead_of_admits {s : State} {addr n : Nat} (hn : addr + n ≤ 2 ^ s.params.addrW)
    (h : admitsRange s.params addr n) : memRead s addr n = some (readLanes s addr n) := by
  unfold memRead
  rw [if_neg (by omega), if_pos]
  exact List.all_eq_true.2 fun i hi => h i (List.mem_range.1 hi)

theorem touchesDevice_of_quiet {p : Params} {a n : Nat} (h : quietRange p a n) : touchesDevice p a n = false := by
  simp only [touchesDevice, List.any_eq_false, Bool.not_eq_true]
  intro i hi
  simpa using h i (List.mem_range.1 hi)

/-! The raced addresses. -/

theorem mem_addRaced {raced : List Nat} {a n x : Nat} :
    x ∈ addRaced raced a n ↔ x ∈ raced ∨ (a ≤ x ∧ x < a + n) := by
  induction n generalizing raced a with
  | zero => exact ⟨.inl, fun h => h.resolve_right (by omega)⟩
  | succ n ih =>
    rw [addRaced, ih]
    split_ifs with h
    · constructor
      · rintro (h | h)
        · exact .inl h
        · exact .inr (by omega)
      · rintro (h' | h')
        · exact .inl h'
        · rcases Nat.eq_or_lt_of_le h'.1 with rfl | hlt
          · exact .inl h
          · exact .inr (by omega)
    · simp only [List.mem_cons]
      constructor
      · rintro ((rfl | h) | h)
        · exact .inr (by omega)
        · exact .inl h
        · exact .inr (by omega)
      · rintro (h' | h')
        · exact .inl (.inr h')
        · rcases Nat.eq_or_lt_of_le h'.1 with rfl | hlt
          · exact .inl (.inl rfl)
          · exact .inr (by omega)

theorem addRaced_nodup {raced : List Nat} (h : raced.Nodup) (a n : Nat) : (addRaced raced a n).Nodup := by
  induction n generalizing raced a with
  | zero => exact h
  | succ n ih =>
    rw [addRaced]
    split_ifs with hm
    · exact ih h _
    · exact ih (List.nodup_cons.2 ⟨hm, h⟩) _

/-! ADDR_W bits. -/

theorem addrBits_toNat (p : Params) (x : Word64) : (addrBits p x).toNat = x.toNat % 2 ^ p.addrW := by
  rw [addrBits, BitVec.toNat_ofNat, Nat.mod_eq_of_lt]
  exact (Nat.mod_le _ _).trans_lt x.isLt

theorem addrBits_lt (p : Params) (x : Word64) : (addrBits p x).toNat < 2 ^ p.addrW := by
  rw [addrBits_toNat]
  exact Nat.mod_lt _ (Nat.two_pow_pos _)

theorem addrBits_of_lt {p : Params} {x : Word64} (h : x.toNat < 2 ^ p.addrW) : addrBits p x = x := by
  apply BitVec.eq_of_toNat_eq
  rw [addrBits_toNat, Nat.mod_eq_of_lt h]

end Sys2Proof.Machine
end

