-- ==== Sys2Proof/Laws/Datapath.lean ====
section
/-! SUPPORT. The datapath: what truncation keeps, the width of a step's result, and a list of folds as one update. -/

namespace Sys2Proof.Machine

theorem truncTo_toNat (w : Width) (x : Word64) : (truncTo w x).toNat = x.toNat % 2 ^ w.bits := by
  cases w
  · simp [truncTo, Width.bits]
    omega
  · simp [truncTo, Width.bits]
    omega

theorem stepHash_lt (p : Policy) (a : Word64) (b : Byte) : (stepHash .w32 p a b).toNat < 2 ^ 32 := by
  rw [stepHash, mulTo, truncTo_toNat]
  exact Nat.mod_lt _ (by decide)

theorem seed_w32_lt : (seed .w32).toNat < 2 ^ 32 := by decide

/-- Folding bytes at width 32 keeps ACC below 2^32 (R22). -/
theorem foldl_stepHash_lt (p : Policy) (bs : List Byte) {a : Word64} (h : a.toNat < 2 ^ 32) :
    (bs.foldl (stepHash .w32 p) a).toNat < 2 ^ 32 := by
  induction bs generalizing a with
  | nil => exact h
  | cons b bs ih => exact ih (stepHash_lt p a b)

theorem fnv1a_append (w : Width) (p : Policy) (xs ys : List Byte) :
    fnv1a w p (xs ++ ys) = ys.foldl (stepHash w p) (fnv1a w p xs) := by
  simp [fnv1a, List.foldl_append]

/-- Folding a list of bytes is one update of ACC and COUNT (R143: the K folds are the same K steps a byte loop would make). -/
theorem foldl_foldByte (bs : List Byte) (s : State) :
    bs.foldl foldByte s =
      { s with acc := bs.foldl (stepHash s.wsel s.psel) s.acc, count := s.count + BitVec.ofNat 64 bs.length } := by
  induction bs generalizing s with
  | nil => simp
  | cons b bs ih =>
    rw [List.foldl_cons, ih]
    simp only [foldByte_wsel, foldByte_psel, foldByte_acc, foldByte_count, List.foldl_cons, List.length_cons]
    have h : s.count + 1 + BitVec.ofNat 64 bs.length = s.count + BitVec.ofNat 64 (bs.length + 1) := by
      rw [BitVec.ofNat_add, BitVec.add_assoc, BitVec.add_comm 1]
      rfl
    rw [h]
    rfl

end Sys2Proof.Machine
end

