-- ==== Sys2Proof/Laws/Commands.lean ====
section
/-! SUPPORT. Everything an accepted or dropped command can do, said once. -/

namespace Sys2Proof.Machine

theorem acceptCommand_of_busy {s : State} (h : s.busy = true) (f : State → State) :
    acceptCommand f s = dropWrite s := by simp [acceptCommand, h]

theorem acceptCommand_of_idle {s : State} (h : s.busy = false) (f : State → State) :
    acceptCommand f s = f (clearOutcome s) := by simp [acceptCommand, h]

/-- The results of a command written to CMD: the state after it, case by case (R172 and the command's own rule). -/
inductive ExecResult (s : State) : Instr → State → Prop where
  | dropped {i} (h : s.busy = true) : ExecResult s i (dropWrite s)
  | nop (h : s.busy = false) : ExecResult s .nop s
  | clr (h : s.busy = false) : ExecResult s .clr (clearOvr (clearOutcome s))
  | init (h : s.busy = false) : ExecResult s .init (setDone (loadSeed (clearOutcome s)))
  | badCfg {i} (h : s.busy = false) (hp : s.psel = .reserved) (hi : (∃ b, i = .step b) ∨ i = .hashN ∨ i = .hashZ) :
      ExecResult s i (raiseError .acceptance .badCfg (clearOutcome s))
  | step {b} (h : s.busy = false) (hp : s.psel ≠ .reserved) :
      ExecResult s (.step b) (setDone (foldByte (clearOutcome s) b))
  | range (h : s.busy = false) (hp : s.psel ≠ .reserved) (hr : 2 ^ s.params.addrW < s.ptr.toNat + s.len.toNat) :
      ExecResult s .hashN (raiseError .acceptance .range (clearOutcome s))
  | emptyN (h : s.busy = false) (hp : s.psel ≠ .reserved) (hr : s.ptr.toNat + s.len.toNat ≤ 2 ^ s.params.addrW)
      (hl : s.len = 0) : ExecResult s .hashN (setDone (loadSeed (clearOutcome s)))
  | startN (h : s.busy = false) (hp : s.psel ≠ .reserved) (hr : s.ptr.toNat + s.len.toNat ≤ 2 ^ s.params.addrW)
      (hl : s.len ≠ 0) : ExecResult s .hashN (startOperation .runN s.len (loadSeed (clearOutcome s)))
  | nullPtr (h : s.busy = false) (hp : s.psel ≠ .reserved) (hn : s.ptr = 0) :
      ExecResult s .hashZ (raiseError .acceptance .nullPtr (clearOutcome s))
  | startZ (h : s.busy = false) (hp : s.psel ≠ .reserved) (hn : s.ptr ≠ 0) :
      ExecResult s .hashZ (startOperation .runZ 0 (loadSeed (clearOutcome s)))

/-- Every command answers a next state, one of ExecResult's. -/
theorem exec_result (i : Instr) (s : State) : ∃ t, exec i s = .next t ∧ ExecResult s i t := by
  cases hb : s.busy with
  | true =>
    refine ⟨dropWrite s, ?_, .dropped hb⟩
    cases i <;>
      simp [exec, execNop, execInit, execStep, execHashN, execHashZ, execClr, acceptCommand_of_busy hb, hb]
  | false =>
    cases i with
    | nop => exact ⟨_, by simp [exec, execNop, hb], .nop hb⟩
    | clr => exact ⟨_, by simp only [exec, execClr, acceptCommand_of_idle hb], .clr hb⟩
    | init => exact ⟨_, by simp only [exec, execInit, acceptCommand_of_idle hb], .init hb⟩
    | step b =>
      by_cases hp : s.psel = .reserved
      · exact ⟨_, by simp [exec, execStep, acceptCommand_of_idle hb, hp], .badCfg hb hp (.inl ⟨b, rfl⟩)⟩
      · exact ⟨_, by simp [exec, execStep, acceptCommand_of_idle hb, hp], .step hb hp⟩
    | hashN =>
      simp only [exec, execHashN, acceptCommand_of_idle hb, gt_iff_lt]
      by_cases hp : (clearOutcome s).psel = .reserved
      · exact ⟨_, by rw [if_pos hp], .badCfg hb hp (.inr (.inl rfl))⟩
      by_cases hr : 2 ^ (clearOutcome s).params.addrW < (clearOutcome s).ptr.toNat + (clearOutcome s).len.toNat
      · exact ⟨_, by rw [if_neg hp, if_pos hr], .range hb hp hr⟩
      by_cases hl : (clearOutcome s).len = 0
      · exact ⟨_, by rw [if_neg hp, if_neg hr, if_pos hl], .emptyN hb hp (Nat.not_lt.1 hr) hl⟩
      · exact ⟨_, by rw [if_neg hp, if_neg hr, if_neg hl]; rfl, .startN hb hp (Nat.not_lt.1 hr) hl⟩
    | hashZ =>
      simp only [exec, execHashZ, acceptCommand_of_idle hb]
      by_cases hp : (clearOutcome s).psel = .reserved
      · exact ⟨_, by rw [if_pos hp], .badCfg hb hp (.inr (.inr rfl))⟩
      by_cases hn : (clearOutcome s).ptr = 0
      · exact ⟨_, by rw [if_neg hp, if_pos hn], .nullPtr hb hp hn⟩
      · exact ⟨_, by rw [if_neg hp, if_neg hn], .startZ hb hp hn⟩

theorem exec_cases {i : Instr} {s t : State} (h : exec i s = .next t) : ExecResult s i t := by
  obtain ⟨u, hu, hr⟩ := exec_result i s
  rw [hu] at h
  cases h
  exact hr

end Sys2Proof.Machine
end

