-- ==== Sys2Proof/Laws/Sequencer.lean ====
section
/-! SUPPORT. Everything a micro-step of the sequencer can do, said once. -/

namespace Sys2Proof.Machine

/-- The number of bytes a RUN_N micro-step reads (R142). -/
def runNBytes (s : State) : Nat :=
  if 2 ≤ s.params.chunk.toNat ∧ s.params.chunk.toNat ≤ s.rem.toNat then s.params.chunk.toNat else 1

theorem runNBytes_pos (s : State) : 1 ≤ runNBytes s := by unfold runNBytes; split <;> omega

theorem runNBytes_le {s : State} (h : 0 < s.rem.toNat) : runNBytes s ≤ s.rem.toNat := by
  unfold runNBytes; split <;> omega

/-- The state after n bytes at CUR are read and folded, before completion is decided (R143, R144). -/
def advanced (n : Nat) (s : State) : State :=
  { s with
    acc := (readLanes s s.cur.toNat n).foldl (stepHash s.wsel s.psel) s.acc
    count := s.count + BitVec.ofNat 64 n
    cur := addrBits s.params (s.cur + BitVec.ofNat 64 n)
    rem := addrBits s.params (s.rem - BitVec.ofNat 64 n) }

/-- The state after a non-zero byte of a scan is folded (R147). -/
def scanned (s : State) : State := foldByte s (readLane s s.cur.toNat 0)

/-! Their fields. -/

section Fields

variable (s : State)

@[simp] theorem advanced_params (n : Nat) : (advanced n s).params = s.params := rfl
@[simp] theorem advanced_wsel (n : Nat) : (advanced n s).wsel = s.wsel := rfl
@[simp] theorem advanced_psel (n : Nat) : (advanced n s).psel = s.psel := rfl
@[simp] theorem advanced_ie (n : Nat) : (advanced n s).ie = s.ie := rfl
@[simp] theorem advanced_ptr (n : Nat) : (advanced n s).ptr = s.ptr := rfl
@[simp] theorem advanced_len (n : Nat) : (advanced n s).len = s.len := rfl
@[simp] theorem advanced_acc (n : Nat) : (advanced n s).acc = (readLanes s s.cur.toNat n).foldl (stepHash s.wsel s.psel) s.acc := rfl
@[simp] theorem advanced_count (n : Nat) : (advanced n s).count = s.count + BitVec.ofNat 64 n := rfl
@[simp] theorem advanced_done (n : Nat) : (advanced n s).done = s.done := rfl
@[simp] theorem advanced_err (n : Nat) : (advanced n s).err = s.err := rfl
@[simp] theorem advanced_ovr (n : Nat) : (advanced n s).ovr = s.ovr := rfl
@[simp] theorem advanced_ecode (n : Nat) : (advanced n s).ecode = s.ecode := rfl
@[simp] theorem advanced_phase (n : Nat) : (advanced n s).phase = s.phase := rfl
@[simp] theorem advanced_cur (n : Nat) : (advanced n s).cur = addrBits s.params (s.cur + BitVec.ofNat 64 n) := rfl
@[simp] theorem advanced_rem (n : Nat) : (advanced n s).rem = addrBits s.params (s.rem - BitVec.ofNat 64 n) := rfl
@[simp] theorem advanced_busMark (n : Nat) : (advanced n s).busMark = s.busMark := rfl
@[simp] theorem advanced_mem (n : Nat) : (advanced n s).mem = s.mem := rfl
@[simp] theorem advanced_raced (n : Nat) : (advanced n s).raced = s.raced := rfl
@[simp] theorem advanced_inputs (n : Nat) : (advanced n s).inputs = s.inputs := rfl
@[simp] theorem advanced_returned (n : Nat) : (advanced n s).returned = s.returned := rfl
@[simp] theorem advanced_turns (n : Nat) : (advanced n s).turns = s.turns := rfl
@[simp] theorem advanced_borrow (n : Nat) : (advanced n s).borrow = s.borrow := rfl
@[simp] theorem advanced_awaitsIdle (n : Nat) : (advanced n s).awaitsIdle = s.awaitsIdle := rfl
@[simp] theorem advanced_draws (n : Nat) : (advanced n s).draws = s.draws := rfl

@[simp] theorem scanned_params : (scanned s).params = s.params := rfl
@[simp] theorem scanned_wsel : (scanned s).wsel = s.wsel := rfl
@[simp] theorem scanned_psel : (scanned s).psel = s.psel := rfl
@[simp] theorem scanned_ie : (scanned s).ie = s.ie := rfl
@[simp] theorem scanned_ptr : (scanned s).ptr = s.ptr := rfl
@[simp] theorem scanned_len : (scanned s).len = s.len := rfl
@[simp] theorem scanned_acc : (scanned s).acc = stepHash s.wsel s.psel s.acc (readLane s s.cur.toNat 0) := rfl
@[simp] theorem scanned_count : (scanned s).count = s.count + 1 := rfl
@[simp] theorem scanned_done : (scanned s).done = s.done := rfl
@[simp] theorem scanned_err : (scanned s).err = s.err := rfl
@[simp] theorem scanned_ovr : (scanned s).ovr = s.ovr := rfl
@[simp] theorem scanned_ecode : (scanned s).ecode = s.ecode := rfl
@[simp] theorem scanned_phase : (scanned s).phase = s.phase := rfl
@[simp] theorem scanned_cur : (scanned s).cur = s.cur := rfl
@[simp] theorem scanned_rem : (scanned s).rem = s.rem := rfl
@[simp] theorem scanned_busMark : (scanned s).busMark = s.busMark := rfl
@[simp] theorem scanned_mem : (scanned s).mem = s.mem := rfl
@[simp] theorem scanned_raced : (scanned s).raced = s.raced := rfl
@[simp] theorem scanned_inputs : (scanned s).inputs = s.inputs := rfl
@[simp] theorem scanned_returned : (scanned s).returned = s.returned := rfl
@[simp] theorem scanned_turns : (scanned s).turns = s.turns := rfl
@[simp] theorem scanned_borrow : (scanned s).borrow = s.borrow := rfl
@[simp] theorem scanned_awaitsIdle : (scanned s).awaitsIdle = s.awaitsIdle := rfl
@[simp] theorem scanned_draws : (scanned s).draws = s.draws := rfl

end Fields

/-- The results of a micro-step, case by case. -/
inductive MicroResult (s : State) : State → Prop where
  | idle (h : s.phase = .idle) : MicroResult s s
  | bus (n : Nat) (h : s.busy = true)
      (hn : s.phase = .runN ∧ n = runNBytes s ∨ s.phase = .runZ ∧ n = 1 ∧ foldedZero s = false)
      (hm : memRead s s.cur.toNat n = none) : MicroResult s (drawTurns (raiseError .microStep .bus s))
  | advance (h : s.phase = .runN) (hr : s.cur.toNat + runNBytes s ≤ 2 ^ s.params.addrW)
      (ha : admitsRange s.params s.cur.toNat (runNBytes s)) (hrem : (advanced (runNBytes s) s).rem ≠ 0) :
      MicroResult s (drawTurns (advanced (runNBytes s) s))
  | complete (h : s.phase = .runN) (hr : s.cur.toNat + runNBytes s ≤ 2 ^ s.params.addrW)
      (ha : admitsRange s.params s.cur.toNat (runNBytes s)) (hrem : (advanced (runNBytes s) s).rem = 0) :
      MicroResult s (drawTurns (completeOperation (advanced (runNBytes s) s)))
  | cut (h : s.phase = .runZ) (hz : foldedZero s = true) : MicroResult s (drawTurns (completeOperation s))
  | terminator (h : s.phase = .runZ) (hz : foldedZero s = false) (ha : admits s.params s.cur.toNat = true)
      (hb : readLane s s.cur.toNat 0 = 0) : MicroResult s (drawTurns (completeOperation s))
  | top (h : s.phase = .runZ) (hz : foldedZero s = false) (ha : admits s.params s.cur.toNat = true) (hb : readLane s s.cur.toNat 0 ≠ 0)
      (hc : s.cur.toNat = 2 ^ s.params.addrW - 1) :
      MicroResult s (drawTurns (raiseError .microStep .range (scanned s)))
  | scan (h : s.phase = .runZ) (hz : foldedZero s = false) (ha : admits s.params s.cur.toNat = true) (hb : readLane s s.cur.toNat 0 ≠ 0)
      (hc : s.cur.toNat ≠ 2 ^ s.params.addrW - 1) :
      MicroResult s (drawTurns { scanned s with cur := addrBits s.params (s.cur + 1) })

theorem readAndFold_eq {s : State} {n : Nat} (hd : touchesDevice s.params s.cur.toNat n = false) :
    readAndFold n s =
      match memRead s s.cur.toNat n with
      | none => .next (raiseError .microStep .bus s)
      | some _ => .next (if (advanced n s).rem = 0 then completeOperation (advanced n s) else advanced n s) := by
  unfold readAndFold
  rw [if_neg (by simp [hd])]
  rcases memRead_cases s s.cur.toNat n with h | ⟨h, -, -⟩
  · simp [h]
  · simp only [h, foldl_foldByte, readLanes_length]
    rfl

theorem runNMicroStep_eq (s : State) : runNMicroStep s = readAndFold (runNBytes s) s := by
  unfold runNMicroStep runNBytes
  split <;> rfl

theorem readAndFold_device {s : State} {n : Nat} (hd : touchesDevice s.params s.cur.toNat n = true) :
    readAndFold n s = .refused .sideEffectingRead := by
  simp [readAndFold, hd]

theorem runZMicroStep_cut {s : State} (hz : foldedZero s = true) :
    runZMicroStep s = .next (completeOperation s) := if_pos hz

theorem runZMicroStep_device {s : State} (hz : foldedZero s = false)
    (hd : touchesDevice s.params s.cur.toNat 1 = true) : runZMicroStep s = .refused .sideEffectingRead := by
  simp [runZMicroStep, hz, hd]

theorem runZMicroStep_eq {s : State} (hz : foldedZero s = false)
    (hd : touchesDevice s.params s.cur.toNat 1 = false) :
    runZMicroStep s =
      match memRead s s.cur.toNat 1 with
      | none => .next (raiseError .microStep .bus s)
      | some _ => .next (scanByte (readLane s s.cur.toNat 0) s) := by
  unfold runZMicroStep
  rw [if_neg (by simp [hz]), if_neg (by simp [hd])]
  rcases memRead_cases s s.cur.toNat 1 with h | ⟨h, -, -⟩
  · simp [h]
  · simp [h, readLanes, List.range_succ]

theorem scanByte_zero {b : Byte} (s : State) (h : b = 0) : scanByte b s = completeOperation s := if_pos h

theorem scanByte_top {b : Byte} {s : State} (h : b ≠ 0) (hc : s.cur.toNat = 2 ^ s.params.addrW - 1) :
    scanByte b s = raiseError .microStep .range (foldByte s b) := (if_neg h).trans (if_pos hc)

theorem scanByte_on {b : Byte} {s : State} (h : b ≠ 0) (hc : s.cur.toNat ≠ 2 ^ s.params.addrW - 1) :
    scanByte b s = { foldByte s b with cur := addrBits s.params (s.cur + 1) } := (if_neg h).trans (if_neg hc)

/-- A scan that turns out to have ended answers a next state, whatever CUR reaches. -/
theorem microStep_cut {s : State} (hp : s.phase = .runZ) (hz : foldedZero s = true) :
    microStep s = .next (drawTurns (completeOperation s)) := by
  unfold microStep
  simp only [hp, runZMicroStep_cut hz, afterMicroStep]

/-- Where no device is read, a micro-step answers a next state, one of MicroResult's. -/
theorem microStep_result {s : State} (hd : s.busy = true → touchesDevice s.params s.cur.toNat
    (if s.phase = .runN then runNBytes s else 1) = false) :
    ∃ t, microStep s = .next t ∧ MicroResult s t := by
  unfold microStep
  match hp : s.phase with
  | .idle => exact ⟨s, rfl, .idle hp⟩
  | .runN =>
    have hb : s.busy = true := by simp [State.busy, hp]
    have hd := hd hb
    rw [if_pos hp] at hd
    simp only [runNMicroStep_eq, readAndFold_eq hd]
    rcases memRead_cases s s.cur.toNat (runNBytes s) with h | ⟨h, hr, ha⟩
    · exact ⟨_, by simp only [h, afterMicroStep], .bus _ hb (.inl ⟨hp, rfl⟩) h⟩
    · by_cases hrem : (advanced (runNBytes s) s).rem = 0
      · exact ⟨_, by simp only [h, afterMicroStep, if_pos hrem], .complete hp hr ha hrem⟩
      · exact ⟨_, by simp only [h, afterMicroStep, if_neg hrem], .advance hp hr ha hrem⟩
  | .runZ =>
    have hb : s.busy = true := by simp [State.busy, hp]
    have hd := hd hb
    rw [if_neg (by simp [hp])] at hd
    cases hz : foldedZero s with
    | true => exact ⟨_, by simp only [runZMicroStep_cut hz, afterMicroStep], .cut hp hz⟩
    | false =>
    simp only [runZMicroStep_eq hz hd]
    rcases memRead_cases s s.cur.toNat 1 with h | ⟨h, hr, ha⟩
    · exact ⟨_, by simp only [h, afterMicroStep], .bus _ hb (.inr ⟨hp, rfl, hz⟩) h⟩
    · have ha0 : admits s.params s.cur.toNat = true := by simpa using ha 0 (by omega)
      simp only [h, afterMicroStep]
      by_cases hb0 : readLane s s.cur.toNat 0 = 0
      · exact ⟨_, by rw [scanByte_zero _ hb0], .terminator hp hz ha0 hb0⟩
      · by_cases hc : s.cur.toNat = 2 ^ s.params.addrW - 1
        · exact ⟨_, congrArg (Host.Outcome.next ∘ drawTurns) (scanByte_top hb0 hc), .top hp hz ha0 hb0 hc⟩
        · exact ⟨_, congrArg (Host.Outcome.next ∘ drawTurns) (scanByte_on hb0 hc), .scan hp hz ha0 hb0 hc⟩

theorem microStep_device {s : State} (hb : s.busy = true) (hz : s.phase = .runZ → foldedZero s = false) (hd : touchesDevice s.params s.cur.toNat
    (if s.phase = .runN then runNBytes s else 1) = true) : microStep s = .refused .sideEffectingRead := by
  unfold microStep
  match hp : s.phase with
  | .idle => simp [State.busy, hp] at hb
  | .runN =>
    rw [if_pos hp] at hd
    simp only [runNMicroStep_eq, readAndFold_device hd, afterMicroStep]
  | .runZ =>
    rw [if_neg (by simp [hp])] at hd
    simp [runZMicroStep_device (hz hp) hd, afterMicroStep]

theorem microStep_of_idle {s : State} (hp : s.phase = .idle) : microStep s = .next s := by
  unfold microStep
  rw [hp]

theorem microStep_of_runN {s : State} (hp : s.phase = .runN) :
    microStep s = afterMicroStep (readAndFold (runNBytes s) s) := by
  unfold microStep
  rw [hp, ← runNMicroStep_eq]

theorem microStep_of_runZ {s : State} (hp : s.phase = .runZ) :
    microStep s = afterMicroStep (runZMicroStep s) := by
  unfold microStep
  rw [hp]

theorem microStep_cases {s t : State} (h : microStep s = .next t) : MicroResult s t := by
  by_cases hz : s.phase = .runZ ∧ foldedZero s = true
  · rw [microStep_cut hz.1 hz.2] at h
    cases h
    exact .cut hz.1 hz.2
  have hz : s.phase = .runZ → foldedZero s = false := fun hp => by simpa [hp] using hz
  by_cases hd : s.busy = true ∧ touchesDevice s.params s.cur.toNat (if s.phase = .runN then runNBytes s else 1) = true
  · rw [microStep_device hd.1 hz hd.2] at h
    cases h
  · obtain ⟨u, hu, hr⟩ := microStep_result (s := s) fun hb => by
      by_contra hc
      exact hd ⟨hb, by simpa using hc⟩
    rw [hu] at h
    cases h
    exact hr

theorem microStep_quiet {s : State} (n : Nat) (hn : (if s.phase = .runN then runNBytes s else 1) ≤ n)
    (hq : quietRange s.params s.cur.toNat n) : ∃ t, microStep s = .next t ∧ MicroResult s t :=
  microStep_result fun _ => touchesDevice_of_quiet fun i hi => hq i (by omega)

end Sys2Proof.Machine
end

