-- ==== Sys2Proof/Laws/Window.lean ====
section
/-! SUPPORT. Everything a host move and a step can do, said once. -/

namespace Sys2Proof.Machine

/-- The results of a host move, case by case. -/
inductive HostResult (s : State) : Input → State → Prop where
  | command {w i t} (hd : decode w = .cmd i) (h : ExecResult s i t) :
      HostResult s (.access ⟨.write w, s.params.base + 0x00, 4⟩) t
  | badCmd {w} (hd : decode w = .illegal w) (h : s.busy = false) :
      HostResult s (.access ⟨.write w, s.params.base + 0x00, 4⟩) (raiseError .acceptance .badCmd (clearOutcome s))
  | dropped {v off} (h : s.busy = true)
      (ho : off = 0x00 ∨ off = 0x08 ∨ off = 0x10 ∨ off = 0x14 ∨ off = 0x18 ∨ off = 0x1C) :
      HostResult s (.access ⟨.write v, s.params.base + off, 4⟩) (dropWrite s)
  | cfg {v} (h : s.busy = false) : HostResult s (.access ⟨.write v, s.params.base + 0x08, 4⟩) (writeCfg v s)
  | ptr {v off} (x : Word64) (h : s.busy = false) :
      HostResult s (.access ⟨.write v, s.params.base + off, 4⟩) (writePtr x s)
  | len {v off} (x : Word64) (h : s.busy = false) :
      HostResult s (.access ⟨.write v, s.params.base + off, 4⟩) (writeLen x s)
  | ignored {v off} : HostResult s (.access ⟨.write v, s.params.base + off, 4⟩) s
  | read {a} (hr : a.dir = .read) (rs : List Word32) (d : Nat) (w : Bool) (hw : s.busy = true → w = s.awaitsIdle) :
      HostResult s (.access a) { s with returned := rs, draws := d, awaitsIdle := w }
  | memWrite {addr bytes} (h : addr + bytes.length ≤ 2 ^ s.params.addrW) :
      HostResult s (.memWrite addr bytes)
        { s with mem := memSetAll s.mem addr bytes
                 raced := if s.busy then addRaced s.raced addr bytes.length else s.raced }
  | poll (rs : List Word32) (is : List Input) (w : Bool) (hw : s.busy = true → w = s.awaitsIdle) :
      HostResult s .awaitIdle { s with returned := rs, inputs := is, awaitsIdle := w }
  | rst : HostResult s .rst (applyReset s)

theorem regAt_some {n : Nat} {r : Reg} (h : regAt n = some r) : n = regOffset r := by
  unfold regAt at h
  split at h <;> simp_all <;> subst h <;> rfl

theorem accessedReg_some {p : Params} {a : Access} {r : Reg} (h : accessedReg p a = some r) :
    a.size = 4 ∧ a.addr = p.base + regOffset r := by
  unfold accessedReg at h
  split_ifs at h with hc
  have := regAt_some h
  omega

theorem accessedReg_at (p : Params) (d : Dir) (r : Reg) : accessedReg p ⟨d, p.base + regOffset r, 4⟩ = some r := by
  unfold accessedReg
  rw [if_pos ⟨rfl, Nat.le_add_right _ _⟩]
  simp only [Nat.add_sub_cancel_left]
  cases r <;> rfl

/-- A word that decodes to ILLEGAL is the word itself (R84). -/
theorem decode_illegal {w v : Word32} (h : decode w = .illegal v) : v = w := by
  unfold decode at h
  split_ifs at h
  exact (Decoded.illegal.inj h).symm

theorem awaitsAfterRead_of_busy (r : Reg) {s : State} (h : s.busy = true) : awaitsAfterRead r s = s.awaitsIdle := by
  simp [awaitsAfterRead, h]

/-- What a read changes: the data returned, a draw, and what the host has seen of BUSY. -/
theorem readReg_eq (r : Reg) (s : State) :
    ∃ rs d w, readReg r s = { s with returned := rs, draws := d, awaitsIdle := w } ∧
      (s.busy = true → w = s.awaitsIdle) := by
  unfold readReg
  split
  · exact ⟨_, _, s.awaitsIdle, rfl, fun _ => rfl⟩
  · exact ⟨_, s.draws, _, rfl, awaitsAfterRead_of_busy r⟩

theorem writeCmd_result {w : Word32} {s t : State} (h : writeCmd w s = .next t) :
    HostResult s (.access ⟨.write w, s.params.base + 0x00, 4⟩) t := by
  unfold writeCmd at h
  cases hb : s.busy with
  | true =>
    simp only [hb, if_true] at h
    cases h
    exact .dropped hb (.inl rfl)
  | false =>
    simp only [hb, Bool.false_eq_true, if_false] at h
    match hd : decode w with
    | .cmd i =>
      rw [hd] at h
      exact .command hd (exec_cases h)
    | .illegal v =>
      obtain rfl := decode_illegal hd
      rw [hd, acceptCommand_of_idle hb] at h
      cases h
      exact .badCmd hd hb

theorem writeReg_result {r : Reg} {v : Word32} {s t : State} (h : writeReg r v s = .next t) :
    HostResult s (.access ⟨.write v, s.params.base + regOffset r, 4⟩) t := by
  cases r <;> simp only [writeReg, unlessBusy] at h
  case cmd => exact writeCmd_result h
  case cfg =>
    cases hb : s.busy <;> simp [hb] at h <;> subst h
    · exact .cfg hb
    · exact .dropped hb (by simp [regOffset])
  case ptrLo =>
    cases hb : s.busy <;> simp [hb] at h <;> subst h
    · exact .ptr _ hb
    · exact .dropped hb (by simp [regOffset])
  case ptrHi =>
    cases hb : s.busy <;> simp [hb] at h <;> subst h
    · exact .ptr _ hb
    · exact .dropped hb (by simp [regOffset])
  case lenLo =>
    cases hb : s.busy <;> simp [hb] at h <;> subst h
    · exact .len _ hb
    · exact .dropped hb (by simp [regOffset])
  case lenHi =>
    cases hb : s.busy <;> simp [hb] at h <;> subst h
    · exact .len _ hb
    · exact .dropped hb (by simp [regOffset])
  all_goals (cases h; exact .ignored)

/-- Everything a host move can do. -/
theorem hostMove_cases {i : Input} {s t : State} (h : hostMove i s = .next t) : HostResult s i t := by
  cases i with
  | access a =>
    simp only [hostMove, hostAccess] at h
    match hr : accessedReg s.params a with
    | none =>
      rw [hr] at h
      cases h
    | some r =>
      rw [hr] at h
      obtain ⟨hsize, haddr⟩ := accessedReg_some hr
      obtain ⟨dir, addr, size⟩ := a
      simp only at hsize haddr
      subst hsize haddr
      cases dir with
      | write v => exact writeReg_result h
      | read =>
        simp only at h
        cases h
        obtain ⟨rs, d, w, he, hw⟩ := readReg_eq r s
        rw [he]
        exact .read rfl rs d w hw
  | memWrite addr bytes =>
    simp only [hostMove, hostMemWrite] at h
    split_ifs at h with h1 h2
    · cases h
      have := HostResult.memWrite (s := s) (addr := addr) (bytes := bytes) (by omega)
      rw [if_pos h2] at this
      exact this
    · cases h
      have := HostResult.memWrite (s := s) (addr := addr) (bytes := bytes) (by omega)
      rw [if_neg h2] at this
      exact this
  | awaitIdle =>
    simp only [hostMove, pollStatus, readReg, readsFreely, Bool.and_false, Bool.false_eq_true, if_false] at h
    cases h
    split
    · exact .poll _ _ _ (awaitsAfterRead_of_busy .status)
    · exact .poll _ s.inputs _ (awaitsAfterRead_of_busy .status)
  | rst =>
    simp only [hostMove] at h
    cases h
    exact .rst

/-- The results of a step: a micro-step, or the outside world's next move on the state it is taken from. -/
inductive StepResult (s : State) : State → Prop where
  | micro {t} (hw : s.inputs = [] ∨ sequencerTurn s = true) (h : microStep s = .next t) (hr : MicroResult s t) :
      StepResult s t
  | host {i rest t} (hn : nextMove s i rest) (h : hostMove i (taken s rest) = .next t)
      (hr : HostResult (taken s rest) i t) : StepResult s t

theorem step_cases {s t : State} (h : step s = .next t) : StepResult s t := by
  unfold step stepOnce at h
  match hi : s.inputs with
  | [] =>
    rw [hi] at h
    exact .micro (.inl hi) h (microStep_cases h)
  | i :: rest =>
    rw [hi] at h
    simp only at h
    cases hs : sequencerTurn s with
    | true =>
      simp only [hs, if_true] at h
      exact .micro (.inr hs) h (microStep_cases h)
    | false =>
      simp only [hs, Bool.false_eq_true, if_false] at h
      exact .host ⟨hi, hs⟩ h (hostMove_cases h)

theorem step_of_nextMove {s : State} {i : Input} {rest : List Input} (h : nextMove s i rest) :
    step s = hostMove i (taken s rest) := by
  unfold step stepOnce
  rw [h.1]
  simp only [h.2, Bool.false_eq_true, if_false]
  rfl

theorem step_of_no_inputs {s : State} (h : s.inputs = []) : step s = microStep s := by
  unfold step stepOnce
  rw [h]

/-! The state a move is taken from differs from the state only in the moves and the turns. -/

@[simp] theorem taken_busy (s : State) (rest : List Input) : (taken s rest).busy = s.busy := rfl
@[simp] theorem taken_params (s : State) (rest : List Input) : (taken s rest).params = s.params := rfl
@[simp] theorem taken_wsel (s : State) (rest : List Input) : (taken s rest).wsel = s.wsel := rfl
@[simp] theorem taken_psel (s : State) (rest : List Input) : (taken s rest).psel = s.psel := rfl
@[simp] theorem taken_ie (s : State) (rest : List Input) : (taken s rest).ie = s.ie := rfl
@[simp] theorem taken_ptr (s : State) (rest : List Input) : (taken s rest).ptr = s.ptr := rfl
@[simp] theorem taken_len (s : State) (rest : List Input) : (taken s rest).len = s.len := rfl
@[simp] theorem taken_acc (s : State) (rest : List Input) : (taken s rest).acc = s.acc := rfl
@[simp] theorem taken_count (s : State) (rest : List Input) : (taken s rest).count = s.count := rfl
@[simp] theorem taken_done (s : State) (rest : List Input) : (taken s rest).done = s.done := rfl
@[simp] theorem taken_err (s : State) (rest : List Input) : (taken s rest).err = s.err := rfl
@[simp] theorem taken_ovr (s : State) (rest : List Input) : (taken s rest).ovr = s.ovr := rfl
@[simp] theorem taken_ecode (s : State) (rest : List Input) : (taken s rest).ecode = s.ecode := rfl
@[simp] theorem taken_phase (s : State) (rest : List Input) : (taken s rest).phase = s.phase := rfl
@[simp] theorem taken_cur (s : State) (rest : List Input) : (taken s rest).cur = s.cur := rfl
@[simp] theorem taken_rem (s : State) (rest : List Input) : (taken s rest).rem = s.rem := rfl
@[simp] theorem taken_busMark (s : State) (rest : List Input) : (taken s rest).busMark = s.busMark := rfl
@[simp] theorem taken_mem (s : State) (rest : List Input) : (taken s rest).mem = s.mem := rfl
@[simp] theorem taken_raced (s : State) (rest : List Input) : (taken s rest).raced = s.raced := rfl
@[simp] theorem taken_inputs (s : State) (rest : List Input) : (taken s rest).inputs = rest := rfl
@[simp] theorem taken_borrow (s : State) (rest : List Input) : (taken s rest).borrow = s.borrow := rfl
@[simp] theorem taken_awaitsIdle (s : State) (rest : List Input) : (taken s rest).awaitsIdle = s.awaitsIdle := rfl
@[simp] theorem taken_returned (s : State) (rest : List Input) : (taken s rest).returned = s.returned := rfl
@[simp] theorem taken_turns (s : State) (rest : List Input) : (taken s rest).turns = s.turns - 1 := rfl
@[simp] theorem taken_draws (s : State) (rest : List Input) : (taken s rest).draws = s.draws := rfl

theorem hostWrite_reg (r : Reg) (v : Word32) (s : State) : hostWrite (regOffset r) v s = writeReg r v s := by
  simp [hostWrite, hostAccess, accessedReg_at]

theorem hostRead_reg (r : Reg) (s : State) : hostRead (regOffset r) s = .next (readReg r s) := by
  simp [hostRead, hostAccess, accessedReg_at]

end Sys2Proof.Machine
end

