-- ==== Sys2Proof/Laws/Invariant.lean ====
section
/-! SUPPORT. Arithmetic of CUR, REM and COUNT under the invariant, and what settling races can do: the facts the invariant proofs share. -/

namespace Sys2Proof.Machine

theorem addrW_le {s : State} (hi : Inv s) : 2 ^ s.params.addrW ≤ 2 ^ 64 := by
  have hw := hi.params
  simp only [Params.wf, Bool.and_eq_true, decide_eq_true_eq] at hw
  exact Nat.pow_le_pow_right (by decide) hw.2

theorem toNat_ofNat_of_lt {n : Nat} (h : n < 2 ^ 64) : (BitVec.ofNat 64 n).toNat = n := by
  rw [BitVec.toNat_ofNat, Nat.mod_eq_of_lt h]

/-- A RUN_N micro-step reads at most REM bytes and takes them off REM. -/
theorem advanced_rem_toNat {s : State} (hi : Inv s) (hp : s.phase = .runN) :
    (advanced (runNBytes s) s).rem.toNat = s.rem.toNat - runNBytes s := by
  have hn := runNBytes_le (hi.runN hp).1
  have hrb := hi.remBits
  have h64 := addrW_le hi
  rw [advanced_rem, addrBits_toNat, BitVec.toNat_sub, toNat_ofNat_of_lt (by omega)]
  have : (2 ^ 64 - runNBytes s + s.rem.toNat) % 2 ^ 64 = s.rem.toNat - runNBytes s := by omega
  rw [this, Nat.mod_eq_of_lt (by omega)]

/-- While bytes are left, CUR moves up by the bytes read. -/
theorem advanced_cur_toNat {s : State} (hi : Inv s) (hp : s.phase = .runN) (hlt : runNBytes s < s.rem.toNat) :
    (advanced (runNBytes s) s).cur.toNat = s.cur.toNat + runNBytes s := by
  obtain ⟨-, -, h2, h3, -⟩ := hi.runN hp
  have h64 := addrW_le hi
  rw [advanced_cur, addrBits_toNat, BitVec.toNat_add, toNat_ofNat_of_lt (by omega),
    Nat.mod_eq_of_lt (by omega), Nat.mod_eq_of_lt (by omega)]

/-- COUNT goes up by the bytes read; at completion it may reach 2^64 only by wrapping, and LEN then does not fit. -/
theorem advanced_count_toNat {s : State} (hi : Inv s) (hp : s.phase = .runN) :
    (advanced (runNBytes s) s).count.toNat = s.count.toNat + runNBytes s := by
  obtain ⟨h0, h1, h2, h3, h4⟩ := hi.runN hp
  have hn := runNBytes_le h0
  have hl := hi.lenBits
  have h64 := addrW_le hi
  rw [advanced_count, BitVec.toNat_add, toNat_ofNat_of_lt (by omega), Nat.mod_eq_of_lt (by omega)]

theorem rem_eq_zero_iff {x : Word64} : x = 0 ↔ x.toNat = 0 := by
  constructor
  · rintro rfl
    rfl
  · intro h
    exact BitVec.eq_of_toNat_eq (by simpa using h)

/-- A scan below the top of the address space moves CUR up by one. -/
theorem scan_cur_toNat {s : State} (hi : Inv s) (hc : s.cur.toNat ≠ 2 ^ s.params.addrW - 1) :
    (addrBits s.params (s.cur + 1)).toNat = s.cur.toNat + 1 := by
  have := hi.curBits
  have h64 := addrW_le hi
  have h1 : (1 : Word64).toNat = 1 := rfl
  rw [addrBits_toNat, BitVec.toNat_add, h1, Nat.mod_eq_of_lt (by omega), Nat.mod_eq_of_lt (by omega)]

/-- A scan counts its byte. -/
theorem scanned_count_toNat {s : State} (hi : Inv s) (hp : s.phase = .runZ) :
    (scanned s).count.toNat = s.count.toNat + 1 := by
  obtain ⟨-, h1, h2, h3⟩ := hi.runZ hp
  have := hi.curBits
  have h64 := addrW_le hi
  have h1 : (1 : Word64).toNat = 1 := rfl
  rw [scanned_count, BitVec.toNat_add, h1, Nat.mod_eq_of_lt (by omega)]

/-! Settling races. -/

theorem settleRaces_of_unraced {s : State}
    (h : ∀ a ∈ s.raced, a < s.ptr.toNat ∨ s.ptr.toNat + s.count.toNat ≤ a) : settleRaces s = s := by
  unfold settleRaces
  rw [if_neg]
  simp only [foldedByteRaced, Bool.not_eq_true, List.any_eq_false, Bool.and_eq_true, decide_eq_true_eq]
  intro a ha
  have := h a ha
  omega

theorem settleRaces_acc_cases (s : State) :
    (settleRaces s).acc = s.acc ∨
      (settleRaces s).acc = fnv1a s.wsel s.psel (settledLanes s) := by
  unfold settleRaces
  split
  · exact .inr rfl
  · exact .inl rfl

/-- Settling keeps the number of bytes folded, but for a scan that turns out to have ended. -/
theorem settledLanes_eq {s : State} (hr : foldedByteRaced s = true) (hz : s.phase = .runZ → foldedZero s = false) :
    settledLanes s = foldedLanes s := by
  unfold settledLanes
  split
  · rename_i hp
    have h := hz hp
    simp only [foldedZero, hr, Bool.true_and, List.any_eq_false, beq_iff_eq] at h
    exact List.takeWhile_eq_self_iff.2 fun b hb => by simpa using h b hb
  · rfl

theorem settleRaces_count_eq {s : State} (hz : s.phase = .runZ → foldedZero s = false) :
    (settleRaces s).count = s.count := by
  unfold settleRaces
  split
  · rename_i hr
    rw [settledLanes_eq hr hz, foldedLanes, readLanes_length]
    exact BitVec.eq_of_toNat_eq (toNat_ofNat_of_lt s.count.isLt)
  · rfl

theorem foldedByteRaced_iff {s : State} :
    foldedByteRaced s = true ↔ ∃ a ∈ s.raced, s.ptr.toNat ≤ a ∧ a < s.ptr.toNat + s.count.toNat := by
  simp [foldedByteRaced]

/-- Under the invariant a scan has ended exactly when a folded byte is raced and a folded lane is 0. -/
theorem foldedZero_iff {s : State} (hi : Inv s) (hp : s.phase = .runZ) : foldedZero s = true ↔ scanEnded s := by
  obtain ⟨-, -, hle, hc⟩ := hi.runZ hp
  have hsum : s.ptr.toNat + (s.cur.toNat - s.ptr.toNat) = s.cur.toNat := by omega
  simp only [foldedZero, Bool.and_eq_true, foldedByteRaced_iff, scanEnded, consumed, foldedLanes, readLanes, hc, hsum,
    List.any_map, List.any_eq_true, List.mem_range, Function.comp_apply, beq_iff_eq, decide_eq_true_eq]

theorem unracedSoFar_iff {s : State} :
    unracedSoFar s ↔ ∀ a ∈ s.raced, a < s.ptr.toNat ∨ s.cur.toNat ≤ a := by
  refine forall₂_congr fun a _ => ?_
  simp only [consumed, Bool.and_eq_false_iff, decide_eq_false_iff_not]
  omega

end Sys2Proof.Machine
end

