-- ==== Sys2Proof/Laws/PerInstr.lean ====
section
/-! SUPPORT. One statement about every command as syntax, with one lemma a constructor. -/

namespace Sys2Proof.Laws

namespace WordFields

/-- The command's word has the fields R80 and R81 give it, and they pass every check of R81 to R83. -/
def Statement (i : Instr) : Prop := CmdFields.ofWord (encode i) = i.fields ∧ i.wf = true

theorem nop : Statement .nop := by unfold Statement; decide

theorem init : Statement .init := by unfold Statement; decide

theorem step (b : Byte) : Statement (.step b) := by
  unfold Statement
  revert b
  decide

theorem hashN : Statement .hashN := by unfold Statement; decide

theorem hashZ : Statement .hashZ := by unfold Statement; decide

theorem clr : Statement .clr := by unfold Statement; decide

end WordFields

end Sys2Proof.Laws
end

