-- ==== Sys2Proof/Tests/Slice0.lean ====
section
/-! SUPPORT. Tests with the expected results of spec/95_test_vectors.md, and for each obligation with hypotheses a concrete state and operands that meet them. -/

namespace Sys2Proof.Tests

open Sys2Proof Sys2Proof.Machine

/-! ## Helpers -/

/-- A field of the next state; none where the step stops. -/
def after {α : Type} (o : Host.Outcome State Fault Refusal) (f : State → α) : Option α :=
  match o with
  | .next s => some (f s)
  | .fault _ => none
  | .refused _ => none

/-- P8's instance: NATIVE_W = 32, ADDR_W = 16, CHUNK = 4. -/
def small : Params :=
  { native := .w32, widthMode := .both, chunk := 4, addrW := 16, base := 0x100, answered := [⟨0, 0x10000⟩], devices := [] }

/-- After reset, with bytes written from an address. -/
def holding (addr : Nat) (bytes : List Byte) : State :=
  { State.resetOf small with mem := memSetAll [] addr bytes }

/-- "foobar". -/
def foobar : List Byte := [0x66, 0x6F, 0x6F, 0x62, 0x61, 0x72]

/-- P2 just before its HASH_N: W = 32, PTR = 0x1000, LEN = 6. -/
def ready : State := { holding 0x1000 foobar with ptr := 0x1000, len := 6 }

/-- P2 just after its HASH_N was accepted. -/
def running : State := { ready with phase := .runN, cur := 0x1000, rem := 6, awaitsIdle := true }

/-- P2 with one byte left (its table's row 2). -/
def lastByte : State := { running with cur := 0x1005, rem := 1, count := 5, acc := 0x39AAA18A }

/-- A HASH_Z of the bytes at 0xFFFE, just accepted. -/
def scanning (bytes : List Byte) : State :=
  { holding 0xFFFE bytes with phase := .runZ, ptr := 0xFFFE, cur := 0xFFFE, awaitsIdle := true }

/-- The same HASH_Z with "A" folded, at the top of the address space. -/
def atTop (b : Byte) : State := { scanning [0x41, b] with cur := 0xFFFF, count := 1, acc := 0xC40BF6CC }

/-- A state whose instance answers one range only. -/
def answering (a n : Nat) (s : State) : State := { s with params := { s.params with answered := [⟨a, n⟩] } }

/-! ## Well-formedness: an ill-formed word for each check, which the check refuses -/

theorem test_wf_legal : (CmdFields.ofWord 0x00006102#32).wf = true := by decide
theorem test_wf_refuses_reserved_op :
    (CmdFields.mk 6 0 0 0).opDefined = false ∧ (CmdFields.mk 6 0 0 0).wf = false ∧ (CmdFields.mk 5 0 0 0).wf = true := by
  decide
theorem test_wf_refuses_rsv0 :
    (CmdFields.mk 2 1 0 0).rsv0Zero = false ∧ (CmdFields.mk 2 1 0 0).wf = false := by decide
theorem test_wf_refuses_imm8 :
    (CmdFields.mk 1 0 1 0).imm8Allowed = false ∧ (CmdFields.mk 1 0 1 0).wf = false ∧ (CmdFields.mk 2 0 1 0).wf = true := by
  decide
theorem test_wf_refuses_rsv1 :
    (CmdFields.mk 3 0 0 0x8000).rsv1Zero = false ∧ (CmdFields.mk 3 0 0 0x8000).wf = false := by decide
theorem test_params_wf_bounds :
    { small with addrW := 0 }.wf = false ∧ { small with addrW := 65 }.wf = false ∧
    { small with addrW := 1 }.wf = true ∧ { small with addrW := 64 }.wf = true := by decide

/-! ## Decoding: words written bit by bit, RSV1 ++ IMM8 ++ RSV0 ++ OP (R80, R81) -/

theorem test_decode_nop : decode (0b0000000000000000#16 ++ 0b00000000#8 ++ 0b0000#4 ++ 0b0000#4) = .cmd .nop := by decide
theorem test_decode_init : decode (0b0000000000000000#16 ++ 0b00000000#8 ++ 0b0000#4 ++ 0b0001#4) = .cmd .init := by decide
theorem test_decode_step :
    decode (0b0000000000000000#16 ++ 0b01100001#8 ++ 0b0000#4 ++ 0b0010#4) = .cmd (.step 0x61#8) := by decide
theorem test_decode_hashN : decode (0b0000000000000000#16 ++ 0b00000000#8 ++ 0b0000#4 ++ 0b0011#4) = .cmd .hashN := by decide
theorem test_decode_hashZ : decode (0b0000000000000000#16 ++ 0b00000000#8 ++ 0b0000#4 ++ 0b0100#4) = .cmd .hashZ := by decide
theorem test_decode_clr : decode (0b0000000000000000#16 ++ 0b00000000#8 ++ 0b0000#4 ++ 0b0101#4) = .cmd .clr := by decide
theorem test_encode_step : encode (.step 0xFF#8) = 0x0000FF02#32 := by decide
theorem test_table_word : decodeTableWord 32 0x00006102 = some (.step 0x61#8) ∧ decodeTableWord 32 0x00010002 = none := by
  decide

/-! ## The datapath (TV-T, TV-S, TV-H) -/

theorem test_transform_compat_wraps : transform .foldCompat 0xE0#8 = 0x00#8 ∧ transform .foldCompat 0x60#8 = 0x80#8 := by decide
theorem test_transform_guarded_edges :
    transform .foldGuarded 0x40#8 = 0x40#8 ∧ transform .foldGuarded 0x41#8 = 0x61#8 ∧
    transform .foldGuarded 0x5A#8 = 0x7A#8 ∧ transform .foldGuarded 0x5B#8 = 0x5B#8 := by decide
theorem test_step_w32 :
    stepHash .w32 .identity 0xFFFFFFFF#64 0xFF#8 = 0xFFFE6D00#64 ∧
    stepHash .w32 .foldCompat 0x811C9DC5#64 0x61#8 = 0x840B920C#64 := by decide
theorem test_step_w64 :
    stepHash .w64 .identity 0xFFFFFFFFFFFFFFFF#64 0xFF#8 = 0xFFFEFFFFFFFE4D00#64 ∧
    stepHash .w64 .foldCompat 0xCBF29CE484222325#64 0x61#8 = 0xAF643C4C86028FAC#64 := by decide
theorem test_reference_hash :
    fnv1a .w32 .identity foobar = 0xBF9CF968#64 ∧ fnv1a .w64 .identity foobar = 0x85944171F73967E8#64 ∧
    fnv1a .w64 .foldCompat foobar = 0x13F521802C07AA28#64 := by decide

/-! ## Commands (TV-I, TV-N, TV-Z, TV-C) -/

theorem test_init_after_w64_clears_upper :
    after (exec .init { State.reset with wsel := .w32, psel := .reserved }) (fun s => (s.acc, s.count, statusWord s)) =
      some (0x00000000811C9DC5#64, 0#64, 0x2#32) := by decide
theorem test_init_raises_irq :
    after (exec .init { State.reset with wsel := .w32, ie := true }) (fun s => (statusWord s, s.irq)) =
      some (0x1002#32, true) := by decide
theorem test_step_reads_low_half :
    after (exec (.step 0x61#8) { State.reset with wsel := .w32 }) (fun s => (s.acc, s.count, statusWord s)) =
      some (0x0000000045BD840C#64, 1#64, 0x2#32) := by decide
theorem test_step_bad_cfg :
    after (exec (.step 0x61#8) { State.reset with psel := .reserved }) (fun s => (s.acc, s.count, statusWord s)) =
      some (0xCBF29CE484222325#64, 0#64, 0x204#32) := by decide
theorem test_nop_keeps_error :
    after (exec .nop { State.reset with err := true, ecode := .badCmd }) statusWord = some 0x104#32 := by decide
theorem test_clr_clears :
    after (exec .clr { State.reset with err := true, ecode := .nullPtr, ovr := true }) statusWord = some 0#32 := by decide
theorem test_clr_dropped : after (exec .clr running) statusWord = some 0x9#32 := by decide
theorem test_hashN_range :
    after (exec .hashN { ready with ptr := 0xFFFE, len := 3 }) (fun s => (s.acc, s.count, statusWord s)) =
      some (0x811C9DC5#64, 0#64, 0x404#32) := by decide
theorem test_hashN_to_the_top :
    after (exec .hashN { ready with ptr := 0xFFFE, len := 2 }) (fun s => (s.cur, s.rem, statusWord s)) =
      some (0xFFFE#64, 2#64, 0x1#32) := by decide
theorem test_hashZ_null : after (exec .hashZ State.reset) (fun s => (s.acc, statusWord s)) = some (0xCBF29CE484222325#64, 0x304#32) := by
  decide
theorem test_hashZ_starts :
    after (exec .hashZ ready) (fun s => (s.acc, s.cur, s.rem, statusWord s)) = some (0x811C9DC5#64, 0x1000#64, 0#64, 0x1#32) := by
  decide

/-! ## Micro-steps (P2, TV-Z, P7) -/

theorem test_batch :
    after (step running) (fun s => (s.acc, s.count, s.cur, s.rem)) = some (0x3F5076EF#64, 4#64, 0x1004#64, 2#64) := by decide
theorem test_last_byte_completes :
    after (step lastByte) (fun s => (s.acc, s.count, statusWord s)) = some (0xBF9CF968#64, 6#64, 0x2#32) := by decide
theorem test_batch_bus :
    after (step (answering 0x1000 3 running)) (fun s => (statusWord s, s.busMark)) = some (0x504#32, true) := by decide
theorem test_scan_folds :
    after (step (scanning [0x41, 0x00])) (fun s => (s.acc, s.count, s.cur)) = some (0xC40BF6CC#64, 1#64, 0xFFFF#64) := by decide
theorem test_scan_terminator :
    after (step (atTop 0x00)) (fun s => (s.acc, s.count, statusWord s)) = some (0xC40BF6CC#64, 1#64, 0x2#32) := by decide
theorem test_scan_top_range : after (step (atTop 0x42)) (fun s => (statusWord s, s.busMark)) = some (0x404#32, false) := by decide
theorem test_scan_raw_terminator_test :
    after (step { scanning [0xE0, 0x00] with psel := .foldCompat }) (fun s => (s.acc, s.count)) = some (0x050C5D1F#64, 1#64) := by
  decide
theorem test_device_read_refused :
    (match step { running with params := { small with devices := [⟨0x1003, 1⟩] } } with
      | .refused .sideEffectingRead => true
      | _ => false) = true := by decide

/-- Refused before `admit` is asked: the byte at 0x1000 is unadmitted and side-effecting (log entry 10). -/
theorem test_device_before_admit :
    (match step { running with params := { small with answered := [], devices := [⟨0x1000, 1⟩] } } with
      | .refused .sideEffectingRead => true
      | _ => false) = true := by decide
/-- R71: the read of a byte that the host wrote during the operation is a free value, and its neighbour's is not. -/
theorem test_raced_lane :
    readLane { running with raced := [0x1004] } 0x1004 0 = Config.freeByte 0 0x1004 ∧
    readLane { running with raced := [0x1004] } 0x1005 0 = 0x72#8 := ⟨rfl, by decide⟩

/-! ## The end of a host program (R240) -/

theorem test_started_is_not_ended :
    after (exec .hashN ready) State.ended = some false ∧ after (step lastByte) State.ended = some false := by decide
theorem test_ended_after_status_read :
    after (hostRead 0x04 { lastByte with phase := .idle, done := true }) State.ended = some true ∧
    after (hostRead 0x04 running) State.ended = some false ∧
    after (hostRead 0x20 { lastByte with phase := .idle, done := true }) State.ended = some false := by decide

/-! ## The register window (TV-C, R64, R178) -/

theorem test_cfg_all_ones :
    after (hostWrite 0x08 0xFFFFFFFF#32 State.reset) (fun s => (cfgWord s, statusWord s)) = some (0xF#32, 0#32) := by decide
theorem test_cfg_hardwired :
    after (hostWrite 0x08 0x1#32 (State.resetOf { small with widthMode := .only32 })) cfgWord = some 0#32 := by decide
theorem test_ptr_hi_above_addrW :
    after (hostWrite 0x14 0x1#32 (State.resetOf { small with addrW := 32 })) (fun s => s.ptr) = some 0#64 := by decide
theorem test_len_halves : after (hostWrite 0x1C 0x1#32 { State.reset with len := 7 }) (fun s => s.len) = some 0x100000007#64 := by
  decide
theorem test_write_dropped_while_busy :
    after (hostWrite 0x10 0x5000#32 running) (fun s => (s.ptr, statusWord s)) = some (0x1000#64, 0x9#32) := by decide
theorem test_status_write_ignored_while_busy : after (hostWrite 0x04 0xFFFFFFFF#32 running) statusWord = some 0x1#32 := by decide
theorem test_result_halves :
    after (hostRead 0x20 State.reset) (fun s => s.returned) = some [0x84222325#32] ∧
    after (hostRead 0x24 State.reset) (fun s => s.returned) = some [0xCBF29CE4#32] := by decide
theorem test_cmd_reads_zero : after (hostRead 0x00 State.reset) (fun s => s.returned) = some [0#32] := by decide
theorem test_params_word : paramsWord small = 0x00100004#32 ∧ paramsWord Params.launch = 0x00400108#32 := by decide
theorem test_narrow_access_refused :
    (match hostAccess ⟨.read, 0x104, 2⟩ (State.resetOf small) with
      | .refused .badHostAccess => true
      | _ => false) = true := by decide
theorem test_reset_values : statusWord (State.resetOf small) = 0#32 ∧ (State.resetOf small).acc = 0x811C9DC5#64 := by decide

/-! ## The buffer memory -/

theorem test_memory_write_then_read : memByte (memSetAll [] 0xFFFE [0x41, 0x42]) 0xFFFF = 0x42#8 := by decide
theorem test_memory_canonical : memSet (memSet [] 5 0x41#8) 5 0x00#8 = [] := by decide

/-! ## Host programs (P1, P3, R89, R90) -/

theorem test_expand_hashT :
    expandStmt 0 (.hashT 0x1000 6) =
      [.access ⟨.write 0x1000#32, 0x10, 4⟩, .access ⟨.write 0#32, 0x14, 4⟩, .access ⟨.write 6#32, 0x18, 4⟩,
        .access ⟨.write 0#32, 0x1C, 4⟩, .access ⟨.write 3#32, 0x00, 4⟩] := by decide
theorem test_parse_line :
    parseProgram "cfg w64, foldg ; P3\nhash.str 0x2000" = some [.cfg .w64 .foldGuarded false, .hashStr 0x2000] := by decide
theorem test_parse_offset : parseProgram "wr 0x30, 5" = some [.wr .reserved30 5] := by decide
theorem test_parse_refuses : parseProgram "step 256" = none := by decide
theorem test_disassemble : disassemble 0x00006102#32 = "step 0x61" ∧ disassemble 0x00000010#32 = ".cmd 0x00000010" := by decide

/-! ## Witnesses: states that meet the hypotheses of the obligations

`busy` and `idle` hypotheses are met by `running` and `ready`; the invariants by the states of P2 and TV-Z. -/

theorem inv_running : Inv running := by constructor <;> decide
theorem inv_lastByte : Inv lastByte := by constructor <;> decide
theorem inv_scanning : Inv (scanning [0x41, 0x00]) := by constructor <;> decide
theorem inv_atTop_zero : Inv (atTop 0x00) := by constructor <;> decide
theorem inv_atTop_letter : Inv (atTop 0x42) := by constructor <;> decide
theorem inv_racedByte : Inv { lastByte with raced := [0x1000] } := by constructor <;> decide
theorem inv_failing : Inv (answering 0x1000 3 running) := by constructor <;> decide
theorem inv_failing_scan : Inv (answering 0x1000 3 (scanning [0x41, 0x00])) := by constructor <;> decide
theorem inv_failing_top : Inv (answering 0x1000 3 (atTop 0x42)) := by constructor <;> decide
theorem not_scanEnded {s : State} (h : s.raced = []) : ¬ scanEnded s := by simp [scanEnded, h]
theorem hashInv_running : HashInv running := by unfold HashInv unracedSoFar; decide
theorem hashInv_lastByte : HashInv lastByte := by unfold HashInv unracedSoFar; decide
theorem hashInv_atTop : HashInv (atTop 0x42) := by unfold HashInv unracedSoFar; decide
theorem hashInv_atTop_zero : HashInv (atTop 0x00) := by unfold HashInv unracedSoFar; decide
theorem hashInv_racedByte : HashInv { lastByte with raced := [0x1000] } := fun _ h =>
  absurd (h 0x1000 (by decide)) (by decide)

/-- A scan of two bytes the second of which is 0 in memory, the first written since: no run leaves the 0 unnoticed, but
the free value of a raced byte cannot be exhibited. -/
def scanOver : State :=
  { holding 0x1000 [0x41, 0x00] with
    phase := .runZ, ptr := 0x1000, cur := 0x1002, count := 2, raced := [0x1000], awaitsIdle := true }

theorem inv_scanOver : Inv scanOver := by constructor <;> decide

/-- P2 with a side-effecting byte in its buffer. -/
def overDevice (s : State) : State := { s with params := { small with devices := [⟨0x1003, 1⟩] } }

theorem inv_overDevice : Inv (overDevice running) := by constructor <;> decide
theorem inv_scan_overDevice : Inv { overDevice (scanning [0x41, 0x00]) with ptr := 0x1003, cur := 0x1003 } := by
  constructor <;> decide
theorem not_quiet_overDevice : ¬ quietRange (overDevice running).params 0x1000 4 := fun h =>
  absurd (h 3 (by decide)) (by decide)

/-- A state in which the next step is this move of the outside world. -/
def moving (i : Input) (s : State) : State := { s with inputs := [i], turns := 1 }

theorem nextMove_moving (i : Input) (s : State) : nextMove (moving i s) i [] := ⟨rfl, by simp [sequencerTurn, moving]⟩

/-- The host write of a word to a register of P8's instance. -/
def writing (off : Nat) (v : Word32) : Input := .access ⟨.write v, 0x100 + off, 4⟩

theorem witness_DecodeFollowsOpcodeMap : decode 0x00000006#32 = .illegal 0x00000006#32 ∧ ready.busy = false := by decide
theorem witness_IllegalWordsByFields : decode 0x00000010#32 = .illegal 0x00000010#32 ∧ ready.busy = false := by decide
theorem witness_DecodeEncodeRoundTrip :
    (Instr.step 0xFF#8).wf = true ∧ decode 0x0000FF02#32 = .cmd (.step 0xFF#8) := by decide
theorem witness_StepRunsDecodedCommand_cmd :
    nextMove (moving (writing 0 0x00006102#32) ready) (.access ⟨.write 0x00006102#32, ready.params.base + 0x00, 4⟩) [] ∧
    decode 0x00006102#32 = .cmd (.step 0x61#8) := ⟨nextMove_moving _ _, by decide⟩
theorem witness_StepRunsDecodedCommand_illegal :
    nextMove (moving (writing 0 0x00000006#32) running) (.access ⟨.write 0x00000006#32, running.params.base + 0x00, 4⟩) [] ∧
    decode 0x00000006#32 = .illegal 0x00000006#32 := ⟨nextMove_moving _ _, by decide⟩
theorem witness_StepRunsDecodedCommand_table : decodeTableWord 32 0x00000003 = some .hashN := by decide
theorem witness_CaseFoldProperties :
    0x41#8 ≤ 0x41#8 ∧ 0x41#8 ≤ 0x5A#8 ∧ 0x5A#8 ≤ 0x5A#8 ∧ ¬(0x41#8 ≤ 0x40#8 ∧ 0x40#8 ≤ 0x5A#8) ∧
    ¬(0x41#8 ≤ 0x5B#8 ∧ 0x5B#8 ≤ 0x5A#8) := by decide
theorem witness_InitLoadsSeed : ready.busy = false ∧ ready.wsel = .w32 ∧ State.reset.busy = false ∧ State.reset.wsel = .w64 := by
  decide
theorem witness_StepFoldsItsByte :
    (ready.busy = false ∧ ready.psel ≠ .reserved ∧ ready.wsel = .w32) ∧
    (State.reset.busy = false ∧ State.reset.psel ≠ .reserved ∧ State.reset.wsel = .w64) ∧
    ({ ready with psel := .reserved }.busy = false ∧ { ready with psel := .reserved }.psel = .reserved) := by decide
theorem witness_NopChangesNothing :
    ready.busy = false ∧ running.busy = true ∧ (0x00000100#32).extractLsb' 0 4 = 0#4 ∧ 0x00000100#32 ≠ 0#32 := by decide
theorem witness_ClrClearsStatus : ready.busy = false ∧ running.busy = true ∧ ∃ t, exec .clr ready = .next t :=
  ⟨by decide, by decide, _, rfl⟩
theorem witness_CmdWriteIsAccepted :
    running.busy = true ∧ ready.busy = false ∧ decode 0x0000000F#32 = .illegal 0x0000000F#32 ∧
    decode 0x00000003#32 = .cmd .hashN ∧ decode 0x00000000#32 = .cmd .nop ∧ Instr.clr ≠ .nop ∧
    ∃ t, exec .hashN ready = .next t ∧ t.busy = true :=
  ⟨by decide, by decide, by decide, by decide, by decide, by decide, _, rfl, rfl⟩
/-- One past the top, exactly to the top, and LEN = 0 at the top address. -/
theorem witness_HashNAcceptance :
    ready.busy = false ∧ ready.psel ≠ .reserved ∧
    2 ^ small.addrW < (0xFFFE#64).toNat + (3#64).toNat ∧
    ((0xFFFE#64).toNat + (2#64).toNat = 2 ^ small.addrW ∧ 2#64 ≠ 0) ∧
    (0xFFFF#64).toNat + (0#64).toNat ≤ 2 ^ small.addrW := by decide
theorem witness_HashZAcceptance :
    ready.busy = false ∧ ready.psel ≠ .reserved ∧ ready.ptr ≠ 0 ∧ (State.resetOf small).busy = false ∧
    (State.resetOf small).psel ≠ .reserved ∧ (State.resetOf small).ptr = 0 := by decide
theorem witness_BadCfgOnReservedPolicy :
    ({ ready with psel := .reserved }.busy = false ∧ { ready with psel := .reserved }.psel = .reserved) ∧
    ∃ t, exec .hashZ { ready with psel := .reserved } = .next t ∧ t.ecode = .badCfg := ⟨by decide, _, rfl, rfl⟩
theorem witness_NullPtrOnlyForHashZ :
    (State.resetOf small).busy = false ∧ (State.resetOf small).psel ≠ .reserved ∧ (State.resetOf small).ptr = 0 ∧
    (0xFFFF#64).toNat ≤ 2 ^ small.addrW := by decide
theorem witness_NullPtrOnlyForHashZ_only :
    (∃ t, exec .hashZ (State.resetOf small) = .next t ∧ t.ecode = .nullPtr) ∧
    (decode 0x00000006#32 = .illegal 0x00000006#32 ∧ ∃ t, hostWrite 0x00 0x00000006#32 ready = .next t) ∧
    ({ running with ecode := .nullPtr }.busy = true ∧
      ∃ t, microStep { running with ecode := .nullPtr } = .next t ∧ t.ecode = .nullPtr) :=
  ⟨⟨_, rfl, rfl⟩, ⟨by decide, _, rfl⟩, rfl, _, rfl, rfl⟩
theorem witness_FirstCheckIsReported_write :
    (∃ t, hostWrite 0x00 0x00000006#32 running = .next t ∧ running.busy = true) ∧
    (∃ t, hostWrite 0x00 0x00000006#32 ready = .next t ∧ ready.busy = false) ∧
    (∃ t, hostWrite 0x00 0x00000003#32 ready = .next t ∧ ready.busy = false) := ⟨⟨_, rfl, rfl⟩, ⟨_, rfl, rfl⟩, _, rfl, rfl⟩
/-- A scan at the top of the address space whose byte there is unadmitted, which no raced byte has ended. -/
theorem witness_FirstCheckIsReported_microStep :
    let s := answering 0x1000 3 (atTop 0x42)
    Inv s ∧ s.phase = .runZ ∧ ¬ scanEnded s ∧ s.cur.toNat = 2 ^ s.params.addrW - 1 ∧
      admits s.params s.cur.toNat = false ∧ ∃ t, microStep s = .next t :=
  ⟨inv_failing_top, rfl, not_scanEnded rfl, by decide, by decide, _, rfl⟩
theorem witness_BusMarkIsNeverCleared :
    (∃ t, step (answering 0x1000 3 running) = .next t ∧ running.busMark = false ∧ t.busMark = true) ∧
    ∃ t, step (moving .rst { running with busMark := true }) = .next t := ⟨⟨_, rfl, rfl, rfl⟩, _, rfl⟩
theorem witness_CommandFrame :
    (∃ t, exec (.step 0x61#8) ready = .next t ∧ t.busy = ready.busy) ∧
    (∃ t, exec .hashZ (State.resetOf small) = .next t ∧ t.err = true) ∧
    (∃ t, exec .hashZ { State.resetOf small with err := true, ecode := .badCmd } = .next t ∧ t.err = true) ∧
    (∃ t, exec .clr running = .next t ∧ running.busy = true) :=
  ⟨⟨_, rfl, rfl⟩, ⟨_, rfl, rfl⟩, ⟨_, rfl, rfl⟩, _, rfl, rfl⟩
theorem witness_MicroStepFrame :
    (∃ t, microStep running = .next t ∧ t.ecode ≠ .bus) ∧ (∃ t, microStep ready = .next t ∧ ready.busy = false) :=
  ⟨⟨_, rfl, by decide⟩, _, rfl, rfl⟩
theorem witness_OnlyTheHostWritesMemory :
    ∃ t, step running = .next t ∧ ∀ addr bytes rest, ¬ nextMove running (.memWrite addr bytes) rest :=
  ⟨_, rfl, fun _ _ _ h => absurd h.1 (by simp [running, ready, holding, State.resetOf])⟩
theorem witness_StatusFlagsByCommand :
    ready.busy = false ∧ ready.psel ≠ .reserved ∧ (∃ t, exec .nop ready = .next t) ∧ (∃ t, exec .clr ready = .next t) ∧
    (∃ t, exec .init ready = .next t) ∧ (∃ t, exec (.step 0#8) ready = .next t) ∧
    (∃ t, exec .hashN { ready with ptr := 0xFFFF, len := 0 } = .next t) ∧
    (∃ t, exec .hashN ready = .next t ∧ ready.len ≠ 0 ∧ ready.ptr.toNat + ready.len.toNat ≤ 2 ^ ready.params.addrW) ∧
    (∃ t, exec .hashZ ready = .next t ∧ ready.ptr ≠ 0) := ⟨rfl, by decide, ⟨_, rfl⟩, ⟨_, rfl⟩, ⟨_, rfl⟩, ⟨_, rfl⟩, ⟨_, rfl⟩,
      ⟨_, rfl, by decide, by decide⟩, _, rfl, by decide⟩
theorem witness_StatusFlagsByCommand_errors :
    (∃ t, exec (.step 0#8) { ready with psel := .reserved } = .next t) ∧
    (∃ t, exec .hashZ (State.resetOf small) = .next t ∧ (State.resetOf small).ptr = 0) ∧
    (∃ t, exec .hashN { ready with ptr := 0xFFFE, len := 3 } = .next t ∧ 2 ^ small.addrW < (0xFFFE#64).toNat + (3#64).toNat) ∧
    (∃ t, hostWrite 0x00 0x00000006#32 ready = .next t) := ⟨⟨_, rfl⟩, ⟨_, rfl, rfl⟩, ⟨_, rfl, by decide⟩, _, rfl⟩
theorem witness_StatusFlagsByCommand_running :
    (Inv lastByte ∧ lastByte.busy = true ∧ ∃ t, microStep lastByte = .next t ∧ t.busy = false ∧ t.done = true) ∧
    (Inv (atTop 0x42) ∧ ∃ t, microStep (atTop 0x42) = .next t ∧ t.busy = false ∧ t.done = false) ∧
    (∃ t, hostWrite 0x1C 1#32 running = .next t ∧ running.busy = true) :=
  ⟨⟨inv_lastByte, rfl, _, rfl, rfl, rfl⟩, ⟨inv_atTop_letter, _, rfl, rfl, rfl⟩, _, rfl, rfl⟩
theorem witness_OvrIsSticky :
    (∃ t, step (moving (writing 0 5#32) { ready with ovr := true }) = .next t ∧ t.ovr = false) ∧
    (∃ t, step (moving .rst { running with ovr := true }) = .next t ∧ t.ovr = false) ∧
    (∃ t, step (moving (writing 0x1C 1#32) running) = .next t ∧ running.ovr = false ∧ t.ovr = true) :=
  ⟨⟨_, rfl, rfl⟩, ⟨_, rfl, rfl⟩, _, rfl, rfl, rfl⟩
theorem witness_OnlyTheseWriteAcc :
    (∃ t, step running = .next t ∧ t.acc ≠ running.acc) ∧
    (∃ t, step (moving .rst running) = .next t) ∧
    (∃ t, step (moving (writing 0 0x6102#32) ready) = .next t ∧ t.acc ≠ ready.acc) :=
  ⟨⟨_, rfl, by decide⟩, ⟨_, rfl⟩, _, rfl, by decide⟩
theorem witness_Width32ClearsUpperHalf :
    (∃ t, { State.reset with wsel := .w32 }.wsel = .w32 ∧ exec (.step 0x61#8) { State.reset with wsel := .w32 } = .next t ∧
      t.acc ≠ State.reset.acc) ∧
    (∃ t, running.wsel = .w32 ∧ microStep running = .next t ∧ t.acc ≠ running.acc ∧ t.err = false) :=
  ⟨⟨_, rfl, rfl, by decide⟩, _, rfl, rfl, by decide, by decide⟩
theorem witness_OperandsFixedWhileBusy :
    (∃ t, step running = .next t ∧ running.busy = true ∧ t.busy = true) ∧
    (∃ t, step (moving (writing 0x08 1#32) running) = .next t ∧ t.busy = true) := ⟨⟨_, rfl, rfl, rfl⟩, _, rfl, rfl⟩
theorem witness_CurMovesUpward : Inv running ∧ ∃ t, step running = .next t ∧ running.busy = true ∧ t.busy = true :=
  ⟨inv_running, _, rfl, rfl, rfl⟩
theorem witness_OnlyResetCancels :
    (Inv lastByte ∧ ∃ t, step lastByte = .next t ∧ lastByte.busy = true ∧ t.busy = false) ∧
    (∃ t, step (moving .rst running) = .next t ∧ t.busy = false) := ⟨⟨inv_lastByte, _, rfl, rfl, rfl⟩, _, rfl, rfl⟩
theorem witness_CfgWrite :
    ready.busy = false ∧ ready.params.widthMode = .both ∧
    (State.resetOf { small with widthMode := .only64 }).busy = false ∧
    (State.resetOf { small with widthMode := .only64 }).params.widthMode ≠ .both := by decide
theorem witness_PtrLenHalves : ready.busy = false ∧ running.busy = true := by decide
theorem witness_WritesWhileBusyAreDropped : running.busy = true := by decide
theorem witness_ReadOnlyWritesIgnored :
    ∃ off, off = 0x04 ∨ off = 0x0C ∨ off = 0x20 ∨ off = 0x24 ∨ off = 0x28 ∨ off = 0x2C ∨
      off = 0x30 ∨ off = 0x34 ∨ off = 0x38 ∨ off = 0x3C := ⟨0x3C, by decide⟩
theorem witness_HostReads : ready.busy = false ∧ running.busy = true := by decide
theorem witness_ParamsLayout : ready.params.wf = true ∧ State.reset.params.wf = true ∧ State.reset.params.addrW = 64 := by decide
/-- The last register of the window, the address above it and the one below the window. -/
theorem witness_BadAccessIsRefused :
    (small.base ≤ 0x13C ∧ 0x13C < small.base + 64 ∧ (0x13C - small.base) % 4 = 0) ∧ ¬ (0x140 < small.base + 64) ∧
    ¬ (small.base ≤ 0xFC) := by decide
theorem witness_CfgWordsSelect : ready.busy = false ∧ ready.params.widthMode = .both := by decide
theorem witness_ResetMove : nextMove (moving .rst running) .rst [] := nextMove_moving _ _
theorem witness_InvAtReset : { small with addrW := 1 }.wf = true ∧ { small with addrW := 64 }.wf = true := by decide
theorem witness_StepKeepsInv : Inv running ∧ (∃ t, step running = .next t) ∧ Inv lastByte ∧ ∃ t, step lastByte = .next t :=
  ⟨inv_running, ⟨_, rfl⟩, inv_lastByte, _, rfl⟩
theorem witness_StepKeepsHashInv :
    (Inv running ∧ HashInv running ∧ ∃ t, step running = .next t) ∧ unracedSoFar running ∧
    (Inv (atTop 0x42) ∧ HashInv (atTop 0x42) ∧ ∃ t, step (atTop 0x42) = .next t) :=
  ⟨⟨inv_running, hashInv_running, _, rfl⟩, by unfold unracedSoFar; decide, inv_atTop_letter, hashInv_atTop, _, rfl⟩
theorem witness_MemReadLanes :
    2 ^ small.addrW < 0xFFFF + 2 ∧ (∃ i, i < 4 ∧ admits (answering 0x1000 3 running).params (0x1000 + i) = false) ∧
    (0xFFFE + 2 ≤ 2 ^ small.addrW ∧ ∀ i, i < 2 → admits small (0xFFFE + i) = true) ∧ 0x1000 + 0 ∉ running.raced :=
  ⟨by decide, ⟨3, by decide⟩, by decide, by decide⟩
theorem witness_RacedBytesReadFreely :
    (running.busy = true ∧ 0xFFFF + [0x41#8].length ≤ 2 ^ running.params.addrW) ∧
    0x1003 + 1 ∈ { running with raced := [0x1004] }.raced ∧ 0x1004 + 1 ∉ { running with raced := [0x1004] }.raced := by decide
theorem witness_RacedBytesReadFreely_stored : memWf running.mem = true ∧ [0x41#8][0]? = some 0x41#8 := by decide
/-- A completed HASH_N whose first byte was written after it had been read, and a completed HASH_Z. -/
theorem witness_RacedBytesReadFreely_completed :
    (Inv { lastByte with raced := [0x1000] } ∧ HashInv { lastByte with raced := [0x1000] } ∧
      ∃ t, microStep { lastByte with raced := [0x1000] } = .next t ∧ t.done = true) ∧
    (Inv (atTop 0x00) ∧ HashInv (atTop 0x00) ∧ (atTop 0x00).phase = .runZ ∧
      ∃ t, microStep (atTop 0x00) = .next t ∧ t.done = true) :=
  ⟨⟨inv_racedByte, hashInv_racedByte, _, rfl, rfl⟩, inv_atTop_zero, hashInv_atTop_zero, rfl, _, rfl, rfl⟩
theorem witness_HostMemoryWrite :
    memWf ready.mem = true ∧ 0xFFFE + [0x41#8, 0x42#8].length ≤ 2 ^ ready.params.addrW ∧ ready.busy = false ∧
    2 ^ ready.params.addrW < 0xFFFF + [0x41#8, 0x42#8].length ∧ [0x41#8, 0x42#8][1]? = some 0x42#8 := by decide
theorem quiet_small (a n : Nat) : quietRange small a n := fun _ _ => rfl
/-- A batch with bytes left, a batch whose read fails, and the last byte. -/
theorem witness_RunNMicroStep :
    (Inv running ∧ running.phase = .runN ∧ quietRange running.params running.cur.toNat 4 ∧ 2 ≤ running.params.chunk.toNat ∧
      running.params.chunk.toNat ≤ running.rem.toNat ∧ ∃ bytes, memRead running running.cur.toNat 4 = some bytes) ∧
    (Inv (answering 0x1000 3 running) ∧ memRead (answering 0x1000 3 running) 0x1000 4 = none) ∧
    (Inv lastByte ∧ lastByte.phase = .runN ∧ lastByte.rem.toNat < lastByte.params.chunk.toNat ∧
      (∃ bytes, memRead lastByte lastByte.cur.toNat 1 = some bytes) ∧ lastByte.rem.toNat = 1 ∧ lastByte.raced = []) :=
  ⟨⟨inv_running, rfl, quiet_small _ _, by decide, by decide, readLanes running 0x1000 4, by decide⟩,
    ⟨inv_failing, by decide⟩, inv_lastByte, rfl, by decide, ⟨readLanes lastByte 0x1005 1, by decide⟩, by decide, rfl⟩
theorem witness_RunNMicroStep_refused :
    Inv (overDevice running) ∧ (overDevice running).phase = .runN ∧
    ¬ quietRange (overDevice running).params (overDevice running).cur.toNat 4 := ⟨inv_overDevice, rfl, not_quiet_overDevice⟩
theorem witness_RunZMicroStep_ended : Inv scanOver ∧ scanOver.phase = .runZ ∧ scanEnded scanOver :=
  ⟨inv_scanOver, rfl, ⟨0x1000, by decide, by decide⟩, 1, by decide, by decide⟩
theorem witness_RunZMicroStep_refused :
    let s := { overDevice (scanning [0x41, 0x00]) with ptr := 0x1003, cur := 0x1003 }
    Inv s ∧ s.phase = .runZ ∧ ¬ scanEnded s ∧ ¬ quietRange s.params s.cur.toNat 1 :=
  ⟨inv_scan_overDevice, rfl, not_scanEnded rfl, fun h => absurd (h 0 (by decide)) (by decide)⟩
/-- A failed read, the terminator at the top address, a letter there, and a letter below it. -/
theorem witness_RunZMicroStep :
    (Inv (answering 0x1000 3 (scanning [0x41, 0x00])) ∧ ¬ scanEnded (answering 0x1000 3 (scanning [0x41, 0x00])) ∧ admits (answering 0x1000 3 running).params 0xFFFE = false) ∧
    (Inv (atTop 0x00) ∧ ¬ scanEnded (atTop 0x00) ∧ admits small 0xFFFF = true ∧ readLane (atTop 0x00) 0xFFFF 0 = 0#8) ∧
    (Inv (atTop 0x42) ∧ ¬ scanEnded (atTop 0x42) ∧ (atTop 0x42).phase = .runZ ∧ readLane (atTop 0x42) 0xFFFF 0 ≠ 0#8 ∧
      (atTop 0x42).cur.toNat = 2 ^ small.addrW - 1) ∧
    (Inv (scanning [0x41, 0x00]) ∧ ¬ scanEnded (scanning [0x41, 0x00]) ∧ quietRange small 0xFFFE 1 ∧ readLane (scanning [0x41, 0x00]) 0xFFFE 0 ≠ 0#8 ∧
      (scanning [0x41, 0x00]).cur.toNat < 2 ^ small.addrW - 1) :=
  ⟨⟨inv_failing_scan, not_scanEnded rfl, by decide⟩, ⟨inv_atTop_zero, not_scanEnded rfl, by decide, by decide⟩,
    ⟨inv_atTop_letter, not_scanEnded rfl, by decide, by decide, by decide⟩, inv_scanning, not_scanEnded rfl, quiet_small _ _, by decide, by decide⟩
theorem witness_CompletionLeavesTheHash :
    Inv lastByte ∧ HashInv lastByte ∧ lastByte.phase = .runN ∧
    (∀ a ∈ lastByte.raced, a < lastByte.ptr.toNat ∨ lastByte.ptr.toNat + lastByte.len.toNat ≤ a) ∧
    ∃ t, microStep lastByte = .next t ∧ t.done = true :=
  ⟨inv_lastByte, hashInv_lastByte, rfl, by decide, _, rfl, rfl⟩
theorem witness_CompletionLeavesTheHash_scan :
    Inv (atTop 0x00) ∧ HashInv (atTop 0x00) ∧ (atTop 0x00).phase = .runZ ∧
    (∀ a ∈ (atTop 0x00).raced, a < (atTop 0x00).ptr.toNat ∨ (atTop 0x00).cur.toNat < a) ∧
    ∃ t, microStep (atTop 0x00) = .next t ∧ t.done = true :=
  ⟨inv_atTop_zero, hashInv_atTop_zero, rfl, by decide, _, rfl, rfl⟩
/-- A memory that differs at the byte after the buffer. -/
theorem witness_ReadsAreNotSpeculative :
    Inv lastByte ∧ lastByte.raced = [] ∧ lastByte.phase = .runN ∧ lastByte.cur.toNat + lastByte.rem.toNat = 0x1006 ∧
    (∀ a, 0x1005 ≤ a → a < 0x1005 + 1 → memByte (memSet lastByte.mem 0x1006 0x21) a = memByte lastByte.mem a) ∧
    ∃ t, microStep lastByte = .next t :=
  ⟨inv_lastByte, rfl, rfl, by decide, fun a h1 h2 => by obtain rfl : a = 0x1005 := by omega
                                                        decide, _, rfl⟩
theorem admits_small {a n : Nat} (h : a + n ≤ 0x10000) : admitsRange small a n := fun i hi => by
  simp [admits, small, Region.covers]
  omega
/-- "AB" up to the top of the address space, LEN = 2. -/
theorem witness_HashNComputesTheHash :
    let s := { holding 0xFFFE [0x41, 0x42] with ptr := 0xFFFE, len := 2 }
    s.params.wf = true ∧ s.busy = false ∧ s.inputs = [] ∧ s.psel ≠ .reserved ∧
    s.ptr.toNat + s.len.toNat = 2 ^ s.params.addrW ∧ admitsRange s.params s.ptr.toNat s.len.toNat ∧
    quietRange s.params s.ptr.toNat s.len.toNat :=
  ⟨by decide, by decide, by decide, by decide, by decide, admits_small (by decide), quiet_small _ _⟩
/-- "A", 0 with the terminator at the top address. -/
theorem witness_HashZComputesTheHash :
    let s := { holding 0xFFFE [0x41, 0x00] with ptr := 0xFFFE }
    s.params.wf = true ∧ s.busy = false ∧ s.inputs = [] ∧ s.psel ≠ .reserved ∧ s.ptr ≠ 0 ∧
    s.ptr.toNat + 1 < 2 ^ s.params.addrW ∧ admitsRange s.params s.ptr.toNat (1 + 1) ∧
    quietRange s.params s.ptr.toNat (1 + 1) ∧ (∀ i, i < 1 → memByte s.mem (s.ptr.toNat + i) ≠ 0#8) ∧
    memByte s.mem (s.ptr.toNat + 1) = 0#8 :=
  ⟨by decide, by decide, by decide, by decide, by decide, by decide, admits_small (by decide), quiet_small _ _, by decide, by decide⟩
theorem witness_EntryPointsAgree :
    ready.params.wf = true ∧ ready.busy = false ∧ ready.inputs = [] ∧ ready.psel ≠ .reserved ∧ ready.ptr ≠ 0 ∧
    ready.ptr.toNat + ready.len.toNat < 2 ^ ready.params.addrW ∧
    admitsRange ready.params ready.ptr.toNat (ready.len.toNat + 1) ∧
    quietRange ready.params ready.ptr.toNat (ready.len.toNat + 1) ∧
    (∀ i, i < ready.len.toNat → memByte ready.mem (ready.ptr.toNat + i) ≠ 0#8) ∧
    memByte ready.mem (ready.ptr.toNat + ready.len.toNat) = 0#8 :=
  ⟨by decide, by decide, by decide, by decide, by decide, by decide, admits_small (by decide), quiet_small _ _, by decide, by decide⟩
/-- All bytes admitted, and P7's unadmitted ones. -/
theorem witness_HashNEnds :
    (ready.params.wf = true ∧ ready.busy = false ∧ ready.inputs = [] ∧ ready.psel ≠ .reserved ∧
      ready.ptr.toNat + ready.len.toNat ≤ 2 ^ ready.params.addrW ∧ quietRange ready.params ready.ptr.toNat ready.len.toNat ∧
      admitsRange ready.params ready.ptr.toNat ready.len.toNat) ∧
    ((answering 0x1000 3 ready).params.wf = true ∧ (answering 0x1000 3 ready).busy = false ∧
      quietRange (answering 0x1000 3 ready).params 0x1000 6 ∧ ¬ admitsRange (answering 0x1000 3 ready).params 0x1000 6) :=
  ⟨⟨by decide, by decide, by decide, by decide, by decide, quiet_small _ _, admits_small (by decide)⟩,
    by decide, by decide, fun _ _ => rfl, fun h => absurd (h 3 (by decide)) (by decide)⟩
theorem witness_HashNEnds_refused :
    (overDevice ready).params.wf = true ∧ (overDevice ready).busy = false ∧ (overDevice ready).inputs = [] ∧
    (overDevice ready).psel ≠ .reserved ∧
    (overDevice ready).ptr.toNat + (overDevice ready).len.toNat ≤ 2 ^ (overDevice ready).params.addrW ∧
    ¬ quietRange (overDevice ready).params (overDevice ready).ptr.toNat (overDevice ready).len.toNat :=
  ⟨by decide, by decide, by decide, by decide, by decide, fun h => absurd (h 3 (by decide)) (by decide)⟩
theorem witness_HashZEnds_refused :
    (overDevice ready).ptr ≠ 0 ∧ (overDevice ready).ptr.toNat < 2 ^ (overDevice ready).params.addrW ∧
    ¬ quietRange (overDevice ready).params (overDevice ready).ptr.toNat
      (2 ^ (overDevice ready).params.addrW - (overDevice ready).ptr.toNat) :=
  ⟨by decide, by decide, fun h => absurd (h 3 (by decide)) (by decide)⟩
/-- PTR at the top address. -/
theorem witness_HashZEnds :
    let s := { ready with ptr := 0xFFFF }
    s.params.wf = true ∧ s.busy = false ∧ s.inputs = [] ∧ s.psel ≠ .reserved ∧ s.ptr ≠ 0 ∧
    s.ptr.toNat < 2 ^ s.params.addrW ∧ quietRange s.params s.ptr.toNat (2 ^ s.params.addrW - s.ptr.toNat) :=
  ⟨by decide, by decide, by decide, by decide, by decide, by decide, quiet_small _ _⟩
theorem witness_ChunkSizeIsInvisible :
    ready.params.wf = true ∧ ready.busy = false ∧ ready.inputs = [] ∧ ready.psel ≠ .reserved ∧
    ready.ptr.toNat + ready.len.toNat ≤ 2 ^ ready.params.addrW ∧ quietRange ready.params ready.ptr.toNat ready.len.toNat :=
  ⟨by decide, by decide, by decide, by decide, by decide, quiet_small _ _⟩
theorem witness_InitThenStepsComputesTheHash :
    let s := { ready with inputs := expandStmt ready.params.base (.hashBytes [0x61, 0x62]) }
    s.busy = false ∧ s.psel ≠ .reserved ∧ s.inputs = expandStmt s.params.base (.hashBytes [0x61, 0x62]) := by decide
theorem witness_SequencerIsNotStarved :
    (running.busy = true ∧ running.turns = 0) ∧ (moving .awaitIdle running).busy = true ∧
    0 < (moving .awaitIdle running).turns ∧ (moving .awaitIdle running).inputs ≠ [] ∧
    ∃ t, step (moving .awaitIdle running) = .next t := ⟨by decide, by decide, by decide, by decide, _, rfl⟩

end Sys2Proof.Tests
end

section
/-! What a command, a micro-step, a host move and a step leave unchanged, read off the case lemmas of Laws/: the operands, the buffer memory, the parameters, and CUR of a running operation. -/

namespace Sys2Proof.Machine

variable {s t : State} {i : Instr} {m : Input}

/-! Commands. -/

theorem ExecResult.operands_eq (h : ExecResult s i t) : sameOperands s t := by
  cases h <;> simp [sameOperands]

/-- No command stores (R13). -/
theorem ExecResult.mem_eq (h : ExecResult s i t) : t.mem = s.mem := by
  cases h <;> simp

/-- While BUSY every command is dropped (R172). -/
theorem ExecResult.eq_dropWrite (h : ExecResult s i t) (hb : s.busy = true) : t = dropWrite s := by
  cases h with
  | dropped _ => rfl
  | _ => simp_all

/-! Micro-steps. -/

theorem MicroResult.operands_eq (h : MicroResult s t) : sameOperands s t := by
  cases h <;> simp [sameOperands]

/-- The sequencer only reads the buffer (R153). -/
theorem MicroResult.mem_eq (h : MicroResult s t) : t.mem = s.mem := by
  cases h <;> simp

/-- A micro-step that leaves the operation running moves CUR up, by the bytes it read (R143, R144, R147). -/
theorem MicroResult.cur_le (hi : Inv s) (h : MicroResult s t) (ht : t.busy = true) : s.cur.toNat ≤ t.cur.toNat := by
  cases h with
  | idle _ => exact le_rfl
  | advance hp _ _ hrem =>
    have hleft : runNBytes s < s.rem.toNat := by
      rw [Ne, rem_eq_zero_iff, advanced_rem_toNat hi hp] at hrem
      omega
    rw [drawTurns_cur, advanced_cur_toNat hi hp hleft]
    omega
  | scan _ _ _ _ hc =>
    rw [drawTurns_cur, scan_cur_toNat hi hc]
    omega
  | bus | complete | cut | terminator | top => simp at ht

/-! Host moves. -/

theorem HostResult.params_eq (h : HostResult s m t) : t.params = s.params := by
  cases h with
  | command _ he => exact he.operands_eq.1
  | _ => simp

/-- Of the host's moves only a memory write reaches the buffer (R13, R60). -/
theorem HostResult.mem_eq (h : HostResult s m t) (hm : ∀ addr bytes, m ≠ .memWrite addr bytes) : t.mem = s.mem := by
  cases h with
  | command _ he => exact he.mem_eq
  | memWrite _ => exact absurd rfl (hm _ _)
  | _ => simp

/-- A host move that does not stop the running operation leaves its CUR. -/
theorem HostResult.cur_eq (h : HostResult s m t) (hb : s.busy = true) (ht : t.busy = true) : t.cur = s.cur := by
  cases h with
  | command _ he => rw [he.eq_dropWrite hb, dropWrite_cur]
  | rst => simp at ht
  | _ => simp

/-- A memory write inside the address space stores its bytes, and while BUSY its addresses race (R60, R71). -/
theorem hostMemWrite_inside {addr : Nat} {bytes : List Byte} (h : addr + bytes.length ≤ 2 ^ s.params.addrW) :
    hostMemWrite addr bytes s =
      .next { s with mem := memSetAll s.mem addr bytes
                     raced := if s.busy then addRaced s.raced addr bytes.length else s.raced } := by
  unfold hostMemWrite
  rw [if_neg (by omega)]
  cases s.busy <;> rfl

theorem hostMemWrite_outside {addr : Nat} {bytes : List Byte} (h : 2 ^ s.params.addrW < addr + bytes.length) :
    hostMemWrite addr bytes s = .fault .outsideBufferSpace := if_pos h

/-! Steps. -/

theorem StepResult.params_eq (h : StepResult s t) : t.params = s.params := by
  cases h with
  | micro _ _ hr => exact hr.operands_eq.1
  | host _ _ hr => exact hr.params_eq

end Sys2Proof.Machine
end

section
/-! The statements of 00_scope.md's family: who writes the buffer memory, and what no step changes. -/

namespace Sys2Proof.Machine

/-- Settles O24: a step is a micro-step or a host move, and of the two only a host memory write changes `mem`. -/
theorem onlyTheHostWritesMemory : Obligations.OnlyTheHostWritesMemory := by
  unfold Obligations.OnlyTheHostWritesMemory
  intro s t h hno a
  have hmem : t.mem = s.mem := by
    cases step_cases h with
    | micro _ _ hr => exact hr.mem_eq
    | @host i rest _ hn _ hr => exact hr.mem_eq fun addr bytes hi => hno addr bytes rest (hi ▸ hn)
  rw [hmem]

/-- Settles O30: the parameters stay on every step; CUR stays on a host move and moves up on a micro-step that goes on. -/
theorem curMovesUpward : Obligations.CurMovesUpward := by
  unfold Obligations.CurMovesUpward
  intro s t hi h
  have hs := step_cases h
  refine ⟨hs.params_eq, fun hb ht => ?_⟩
  cases hs with
  | micro _ _ hr => exact hr.cur_le hi ht
  | host _ _ hr => exact (congrArg BitVec.toNat (hr.cur_eq hb ht)).ge

/-- Settles O48, by the laws of `memSetAll`: the bytes written read back, the others are as before, the form stays canonical. -/
theorem hostMemoryWrite : Obligations.HostMemoryWrite := by
  unfold Obligations.HostMemoryWrite
  intro addr bytes s hwf
  refine ⟨fun hin => ⟨_, hostMemWrite_inside hin, memWf_memSetAll hwf addr bytes, ?_, ?_, ?_⟩, hostMemWrite_outside⟩
  · intro i b hb
    exact memByte_memSetAll_in hwf addr bytes hb
  · intro a ha
    exact memByte_memSetAll_other s.mem addr bytes ha
  · intro hidle
    simp [hidle]

end Sys2Proof.Machine
end

section
/-! The invariant: each shared update keeps it, then each command, micro-step and host move, and so each step. -/

namespace Sys2Proof.Machine

variable {s t : State} {i : Instr} {m : Input}

/-! Updates of fields the invariant does not read. -/

theorem inv_dropWrite (hi : Inv s) : Inv (dropWrite s) := { hi with }

theorem inv_clearOvr (hi : Inv s) : Inv (clearOvr s) := { hi with }

theorem inv_drawTurns (hi : Inv s) : Inv (drawTurns s) := { hi with }

theorem inv_taken (hi : Inv s) (rest : List Input) : Inv (taken s rest) := { hi with }

/-- A read or a poll: `awaitsIdle` stays while an operation runs (R240). -/
theorem inv_read (hi : Inv s) (rs : List Word32) (is : List Input) (d : Nat) {w : Bool}
    (hw : s.busy = true → w = s.awaitsIdle) :
    Inv { s with returned := rs, inputs := is, draws := d, awaitsIdle := w } :=
  { hi with awaits := fun hb => (hw hb).trans (hi.awaits hb) }

/-! The outcome flags. -/

theorem inv_clearOutcome (hi : Inv s) : Inv (clearOutcome s) :=
  { hi with
    outcome := fun _ => rfl
    ecode := iff_of_true rfl rfl
    busyClear := fun hb => ⟨rfl, rfl, (hi.busyClear hb).2.2⟩
    marked := nofun }

theorem inv_setDone (hi : Inv s) (hb : s.busy = false) (he : s.err = false) : Inv (setDone s) :=
  { hi with
    outcome := fun _ => he
    busyClear := fun h => absurd h (Bool.eq_false_iff.1 hb) }

/-- An error taken at acceptance leaves its code, which is not 0, and BUS leaves the mark (R207). -/
theorem inv_raiseAccept (hi : Inv s) (hb : s.busy = false) {c : ErrCode} (hc : c ≠ .none) :
    Inv (raiseError .acceptance c s) :=
  { hi with
    outcome := nofun
    ecode := iff_of_false hc nofun
    busyClear := fun h => absurd h (Bool.eq_false_iff.1 hb)
    marked := by rintro rfl; simp }

/-! ACC and COUNT of an idle machine are free, and so are its operands within their own bits. -/

theorem phase_ne_runN_of_idle (hb : s.busy = false) : s.phase ≠ .runN := by simp [(not_busy_iff s).1 hb]

theorem phase_ne_runZ_of_idle (hb : s.busy = false) : s.phase ≠ .runZ := by simp [(not_busy_iff s).1 hb]

theorem inv_result (hi : Inv s) (hb : s.busy = false) (a c : Word64) : Inv { s with acc := a, count := c } :=
  { hi with
    runN := fun hp => absurd hp (phase_ne_runN_of_idle hb)
    runZ := fun hp => absurd hp (phase_ne_runZ_of_idle hb)
    accWidth := fun h => absurd h (Bool.eq_false_iff.1 hb) }

/-- A CFG write leaves a hardwired WSEL (R26, R173). -/
theorem writeCfg_hardwired (v : Word32) (h : s.hardwired = true) : (writeCfg v s).hardwired = true := by
  unfold State.hardwired at h ⊢
  rw [writeCfg_params, writeCfg_wsel, writtenWsel]
  cases hm : s.params.widthMode with
  | both => rfl
  | only32 => simpa [hm] using h
  | only64 => simpa [hm] using h

theorem inv_writeCfg (hi : Inv s) (hb : s.busy = false) (v : Word32) : Inv (writeCfg v s) :=
  { hi with
    width := writeCfg_hardwired v hi.width
    busyClear := fun h => absurd h (Bool.eq_false_iff.1 hb)
    accWidth := fun h => absurd h (Bool.eq_false_iff.1 hb) }

theorem inv_writePtr (hi : Inv s) (hb : s.busy = false) (x : Word64) : Inv (writePtr x s) :=
  { hi with
    ptrBits := addrBits_lt s.params x
    runN := fun hp => absurd hp (phase_ne_runN_of_idle hb)
    runZ := fun hp => absurd hp (phase_ne_runZ_of_idle hb) }

theorem inv_writeLen (hi : Inv s) (hb : s.busy = false) (x : Word64) : Inv (writeLen x s) :=
  { hi with
    lenBits := addrBits_lt s.params x
    runN := fun hp => absurd hp (phase_ne_runN_of_idle hb) }

/-! Commands. -/

/-- An operation starts with the seed, nothing counted and nothing raced; what its phase says of PTR and LEN is checked at acceptance (R141, R146). -/
theorem inv_start (hi : Inv s) (hp : s.psel ≠ .reserved) (ph : Phase) {n : Word64} (hn : n.toNat < 2 ^ s.params.addrW)
    (hN : ph = .runN → n = s.len ∧ n ≠ 0 ∧ s.ptr.toNat + s.len.toNat ≤ 2 ^ s.params.addrW)
    (hZ : ph = .runZ → n = 0 ∧ s.ptr ≠ 0) : Inv (startOperation ph n (loadSeed (clearOutcome s))) :=
  { inv_clearOutcome hi with
    curBits := hi.ptrBits
    remBits := hn
    racedNodup := List.nodup_nil
    idleRaced := fun _ => rfl
    busyClear := fun _ => ⟨rfl, rfl, hp⟩
    runN := fun h => by
      obtain ⟨rfl, h0, hr⟩ := hN h
      rw [Ne, rem_eq_zero_iff] at h0
      simp
      omega
    runZ := fun h => by
      obtain ⟨rfl, h0⟩ := hZ h
      rw [Ne, rem_eq_zero_iff] at h0
      simp
      omega
    accWidth := fun _ hw => by
      have hw : s.wsel = .w32 := hw
      simpa [hw] using seed_w32_lt
    awaits := fun _ => rfl }

/-- Every command keeps the invariant: dropped, refused with an error, done at once, or started. -/
theorem ExecResult.inv (hi : Inv s) (h : ExecResult s i t) : Inv t := by
  have hc := inv_clearOutcome hi
  cases h with
  | dropped _ => exact inv_dropWrite hi
  | nop _ => exact hi
  | clr _ => exact inv_clearOvr hc
  | init hb => exact inv_setDone (inv_result hc hb _ _) hb rfl
  | step hb _ => exact inv_setDone (inv_result hc hb _ _) hb rfl
  | emptyN hb _ _ _ => exact inv_setDone (inv_result hc hb _ _) hb rfl
  | badCfg hb _ _ => exact inv_raiseAccept hc hb nofun
  | range hb _ _ => exact inv_raiseAccept hc hb nofun
  | nullPtr hb _ _ => exact inv_raiseAccept hc hb nofun
  | startN _ hp hr hl => exact inv_start hi hp .runN hi.lenBits (fun _ => ⟨rfl, hl, hr⟩) nofun
  | startZ _ hp hn => exact inv_start hi hp .runZ (Nat.two_pow_pos _) nofun fun _ => ⟨rfl, hn⟩

/-! Micro-steps. -/

/-- The machine is idle once an operation has ended: CUR and REM hold some values of their bits (R145, R207). -/
theorem inv_endOperation (hi : Inv s) : Inv (endOperation s) :=
  have hb : ¬ (endOperation s).busy = true := nofun
  { hi with
    curBits := addrBits_lt _ _
    remBits := addrBits_lt _ _
    racedNodup := List.nodup_nil
    idleRaced := fun _ => rfl
    busyClear := fun h => absurd h hb
    runN := nofun
    runZ := nofun
    accWidth := fun h => absurd h hb
    awaits := fun h => absurd h hb }

/-- A run-time error is the end of the operation and the error, with ACC and COUNT free (R207). -/
theorem inv_raiseRun (hi : Inv s) {c : ErrCode} (hc : c ≠ .none) : Inv (raiseError .microStep c s) :=
  inv_result (inv_raiseAccept (inv_endOperation hi) rfl hc) rfl _ _

theorem completeOperation_eq (s : State) :
    completeOperation s =
      setDone { endOperation s with acc := (settleRaces s).acc, count := (settleRaces s).count } := by
  unfold completeOperation settleRaces
  split <;> rfl

/-- A completed operation leaves the machine idle and done; ACC and COUNT are whatever its reads gave (R145, R147). -/
theorem inv_completed (hi : Inv s) (hb : s.busy = true) (a c : Word64) :
    Inv (setDone { endOperation s with acc := a, count := c }) :=
  inv_setDone (inv_result (inv_endOperation hi) rfl a c) rfl (hi.busyClear hb).2.1

theorem inv_completeOperation (hi : Inv s) (hb : s.busy = true) : Inv (completeOperation s) :=
  completeOperation_eq s ▸ inv_completed hi hb _ _

/-- The last read of a RUN_N ends as any completion does, since CUR and REM are drawn anew. -/
theorem inv_completeOperation_advanced (hi : Inv s) (hb : s.busy = true) (n : Nat) :
    Inv (completeOperation (advanced n s)) :=
  completeOperation_eq (advanced n s) ▸ inv_completed hi hb _ _

/-- While bytes are left, CUR, REM and COUNT move on by the bytes read (R143, R144). -/
theorem inv_advanced (hi : Inv s) (hp : s.phase = .runN) (hrem : (advanced (runNBytes s) s).rem ≠ 0) :
    Inv (advanced (runNBytes s) s) := by
  rw [Ne, rem_eq_zero_iff] at hrem
  have hr := advanced_rem_toNat hi hp
  have hc := advanced_cur_toNat hi hp (by omega)
  have hn := advanced_count_toNat hi hp
  obtain ⟨h0, h1, h2, h3, h4⟩ := hi.runN hp
  exact
  { hi with
    curBits := addrBits_lt _ _
    remBits := addrBits_lt _ _
    runN := fun _ => by
      rw [hr, hc, hn, advanced_ptr, advanced_len, advanced_params]
      omega
    runZ := fun h => by simp [hp] at h
    accWidth := fun hb hw => by
      have hw : s.wsel = .w32 := hw
      simpa [hw] using foldl_stepHash_lt s.psel _ (hi.accWidth hb hw) }

/-- A scan that goes on moves CUR and COUNT on by one byte (R147). -/
theorem inv_scanned (hi : Inv s) (hp : s.phase = .runZ) (hc : s.cur.toNat ≠ 2 ^ s.params.addrW - 1) :
    Inv { scanned s with cur := addrBits s.params (s.cur + 1) } := by
  have hcur := scan_cur_toNat hi hc
  have hn := scanned_count_toNat hi hp
  obtain ⟨h0, h1, h2, h3⟩ := hi.runZ hp
  exact
  { hi with
    curBits := addrBits_lt _ _
    runN := fun h => by simp [hp] at h
    runZ := fun _ => ⟨h0, h1, by simp only [hcur, scanned_ptr]; omega, by simp only [hcur, hn, scanned_ptr]; omega⟩
    accWidth := fun _ hw => by
      have hw : s.wsel = .w32 := hw
      simpa [hw] using stepHash_lt s.psel s.acc _ }

/-- Every micro-step keeps the invariant: the operation goes on, completes, or ends in an error. -/
theorem MicroResult.inv (hi : Inv s) (h : MicroResult s t) : Inv t := by
  cases h with
  | idle _ => exact hi
  | bus _ _ _ _ => exact inv_drawTurns (inv_raiseRun hi nofun)
  | advance hp _ _ hrem => exact inv_drawTurns (inv_advanced hi hp hrem)
  | complete hp _ _ _ => exact inv_drawTurns (inv_completeOperation_advanced hi (by simp [busy_iff, hp]) _)
  | cut hp _ => exact inv_drawTurns (inv_completeOperation hi (by simp [busy_iff, hp]))
  | terminator hp _ _ _ => exact inv_drawTurns (inv_completeOperation hi (by simp [busy_iff, hp]))
  | top _ _ _ _ _ => exact inv_drawTurns (inv_raiseRun hi nofun)
  | scan hp _ _ _ hc => exact inv_drawTurns (inv_scanned hi hp hc)

/-! Host moves. -/

/-- A host memory write keeps the memory's form, and races only with a running operation (R71). -/
theorem inv_memWrite (hi : Inv s) (addr : Nat) (bytes : List Byte) :
    Inv { s with mem := memSetAll s.mem addr bytes
                 raced := if s.busy then addRaced s.raced addr bytes.length else s.raced } :=
  { hi with
    mem := memWf_memSetAll hi.mem addr bytes
    racedNodup := by
      cases s.busy
      · exact hi.racedNodup
      · exact addRaced_nodup hi.racedNodup addr bytes.length
    idleRaced := fun hb => by
      have hb : s.busy = false := hb
      simpa [hb] using hi.idleRaced hb }

theorem resetOf_hardwired (p : Params) : (State.resetOf p).hardwired = true := by
  unfold State.hardwired State.resetOf resetWidth
  cases p.widthMode <;> rfl

theorem inv_resetOf {p : Params} (h : p.wf = true) : Inv (State.resetOf p) :=
  have hb : ¬ (State.resetOf p).busy = true := nofun
  { params := h
    ptrBits := Nat.two_pow_pos _
    lenBits := Nat.two_pow_pos _
    curBits := Nat.two_pow_pos _
    remBits := Nat.two_pow_pos _
    width := resetOf_hardwired p
    outcome := nofun
    ecode := iff_of_true rfl rfl
    mem := rfl
    racedNodup := List.nodup_nil
    idleRaced := fun _ => rfl
    busyClear := fun h => absurd h hb
    runN := nofun
    runZ := nofun
    accWidth := fun h => absurd h hb
    marked := nofun
    awaits := fun h => absurd h hb }

/-- Reset keeps the memory and the mark, of which an idle machine without an error asks only the form (R230). -/
theorem inv_applyReset (hi : Inv s) : Inv (applyReset s) :=
  have hb : ¬ (applyReset s).busy = true := nofun
  { inv_resetOf hi.params with
    mem := hi.mem
    marked := nofun
    awaits := fun h => absurd h hb }

theorem HostResult.inv (hi : Inv s) (h : HostResult s m t) : Inv t := by
  cases h with
  | command _ he => exact he.inv hi
  | badCmd _ hb => exact inv_raiseAccept (inv_clearOutcome hi) hb nofun
  | dropped _ _ => exact inv_dropWrite hi
  | cfg hb => exact inv_writeCfg hi hb _
  | ptr x hb => exact inv_writePtr hi hb x
  | len x hb => exact inv_writeLen hi hb x
  | ignored => exact hi
  | read _ rs d _ hw => exact inv_read hi rs s.inputs d hw
  | memWrite _ => exact inv_memWrite hi _ _
  | poll rs is _ hw => exact inv_read hi rs is s.draws hw
  | rst => exact inv_applyReset hi

/-! Steps. -/

theorem StepResult.inv (hi : Inv s) (h : StepResult s t) : Inv t := by
  cases h with
  | micro _ _ hr => exact hr.inv hi
  | host _ _ hr => exact hr.inv (inv_taken hi _)

theorem hashInv_of_idle (hb : s.busy = false) : HashInv s := fun h => by simp [hb] at h

end Sys2Proof.Machine
end

section
/-! What each command, micro-step and host move does to the flags of STATUS and to ACC, read off the case lemmas of Laws/. -/

namespace Sys2Proof.Machine

variable {s t : State} {i : Instr} {m : Input}

/-! Writes to CMD, CFG, PTR and LEN. -/

/-- CLR's word is the only one that decodes to it (R84). -/
theorem decode_clr {w : Word32} (h : decode w = .cmd .clr) : w = 0x00000005#32 := by
  unfold decode at h
  split_ifs at h <;> simp_all

/-- An illegal word written while BUSY = 0 is BAD_CMD (R209). -/
theorem writeCmd_illegal {w : Word32} (hb : s.busy = false) (hd : decode w = .illegal w) :
    writeCmd w s = .next (raiseError .acceptance .badCmd (clearOutcome s)) := by
  simp [writeCmd, hb, hd, acceptCommand_of_idle hb]

theorem unlessBusy_of_busy (hb : s.busy = true) (f : State → State) : unlessBusy f s = dropWrite s := if_pos hb

/-- While BUSY a write to CMD, CFG, PTR or LEN is dropped (R172, R174, R175). -/
theorem hostWrite_of_busy (v : Word32) {off : Nat} (hb : s.busy = true)
    (ho : off = 0x00 ∨ off = 0x08 ∨ off = 0x10 ∨ off = 0x14 ∨ off = 0x18 ∨ off = 0x1C) :
    hostWrite off v s = .next (dropWrite s) := by
  have hdrop (f : State → State) :
      (.next (unlessBusy f s) : Host.Outcome State Fault Refusal) = .next (dropWrite s) := by
    rw [unlessBusy_of_busy hb]
  rcases ho with rfl | rfl | rfl | rfl | rfl | rfl
  · exact (hostWrite_reg .cmd v s).trans (if_pos hb)
  · exact (hostWrite_reg .cfg v s).trans (hdrop _)
  · exact (hostWrite_reg .ptrLo v s).trans (hdrop _)
  · exact (hostWrite_reg .ptrHi v s).trans (hdrop _)
  · exact (hostWrite_reg .lenLo v s).trans (hdrop _)
  · exact (hostWrite_reg .lenHi v s).trans (hdrop _)

/-! OVR. -/

theorem MicroResult.ovr_eq (h : MicroResult s t) : t.ovr = s.ovr := by
  cases h <;> simp

/-- Of the commands only an accepted CLR clears OVR (R34, R171). -/
theorem ExecResult.clr_of_ovr_cleared (h : ExecResult s i t) (hs : s.ovr = true) (ht : t.ovr = false) :
    s.busy = false ∧ i = .clr := by
  cases h with
  | clr hb => exact ⟨hb, rfl⟩
  | _ => simp_all

/-- A command sets OVR only by being dropped (R208). -/
theorem ExecResult.busy_of_ovr_set (h : ExecResult s i t) (hs : s.ovr = false) (ht : t.ovr = true) :
    s.busy = true := by
  cases h with
  | dropped hb => exact hb
  | _ => simp_all

/-- Of the host's moves only reset and CLR's word, accepted, clear OVR (R34). -/
theorem HostResult.move_of_ovr_cleared (h : HostResult s m t) (hs : s.ovr = true) (ht : t.ovr = false) :
    m = .rst ∨ (s.busy = false ∧ m = .access ⟨.write 0x00000005#32, s.params.base + 0x00, 4⟩) := by
  cases h with
  | rst => exact .inl rfl
  | command hd he =>
    obtain ⟨hb, rfl⟩ := he.clr_of_ovr_cleared hs ht
    obtain rfl := decode_clr hd
    exact .inr ⟨hb, rfl⟩
  | _ => simp_all

/-- Of the host's moves only a dropped write to CMD, CFG, PTR or LEN sets OVR (R34). -/
theorem HostResult.move_of_ovr_set (h : HostResult s m t) (hs : s.ovr = false) (ht : t.ovr = true) :
    s.busy = true ∧ ∃ v off, m = .access ⟨.write v, s.params.base + off, 4⟩ ∧
      (off = 0x00 ∨ off = 0x08 ∨ off = 0x10 ∨ off = 0x14 ∨ off = 0x18 ∨ off = 0x1C) := by
  cases h with
  | @command w _ _ _ he => exact ⟨he.busy_of_ovr_set hs ht, w, 0x00, rfl, .inl rfl⟩
  | @dropped v off hb ho => exact ⟨hb, v, off, rfl, ho⟩
  | _ => simp_all

/-! DONE, ERR and ECODE. -/

/-- The end of an operation: completed with DONE, or failed with BUS or RANGE (R45). -/
theorem MicroResult.outcome_of_ended (h : MicroResult s t) (hb : s.busy = true) (ht : t.busy = false) :
    (t.done = true ∧ t.err = s.err ∧ t.ecode = s.ecode) ∨
      (t.done = false ∧ t.err = true ∧ (t.ecode = .bus ∨ t.ecode = .range)) := by
  cases h with
  | complete | cut | terminator => exact .inl (by simp)
  | bus | top => exact .inr (by simp)
  | idle hp | advance hp | scan hp => simp_all [State.busy]

/-! ACC. -/

/-- Of the commands only INIT, STEP, HASH_N and HASH_Z, accepted, change ACC (R23). -/
theorem ExecResult.command_of_acc_changed (h : ExecResult s i t) (ha : t.acc ≠ s.acc) :
    s.busy = false ∧ (i = .init ∨ (∃ b, i = .step b) ∨ i = .hashN ∨ i = .hashZ) := by
  cases h <;> simp_all

/-- Of the host's moves only reset and those commands change ACC (R23). -/
theorem HostResult.move_of_acc_changed (h : HostResult s m t) (ha : t.acc ≠ s.acc) :
    m = .rst ∨ (s.busy = false ∧ ∃ w i, m = .access ⟨.write w, s.params.base + 0x00, 4⟩ ∧
      decode w = .cmd i ∧ (i = .init ∨ (∃ b, i = .step b) ∨ i = .hashN ∨ i = .hashZ)) := by
  cases h with
  | rst => exact .inl rfl
  | @command w i _ hd he =>
    obtain ⟨hb, hi⟩ := he.command_of_acc_changed ha
    exact .inr ⟨hb, w, i, rfl, hd, hi⟩
  | _ => simp_all

/-- At width 32 the fold of at least one byte is below 2^32, whatever ACC held (R105, R109). -/
theorem foldl_stepHash_lt_of_ne_nil (p : Policy) (a : Word64) {bs : List Byte} (h : bs ≠ []) :
    (bs.foldl (stepHash .w32 p) a).toNat < 2 ^ 32 := by
  cases bs with
  | nil => exact absurd rfl h
  | cons b bs => exact foldl_stepHash_lt p bs (stepHash_lt p a b)

theorem fnv1a_w32_lt (p : Policy) (bs : List Byte) : (fnv1a .w32 p bs).toNat < 2 ^ 32 :=
  foldl_stepHash_lt p bs seed_w32_lt

/-- Settling races at width 32 leaves ACC as it is or below 2^32. -/
theorem settleRaces_acc_lt (hw : s.wsel = .w32) (ha : (settleRaces s).acc ≠ s.acc) :
    (settleRaces s).acc.toNat < 2 ^ 32 := by
  rw [(settleRaces_acc_cases s).resolve_left ha, hw]
  exact fnv1a_w32_lt _ _

theorem advanced_acc_lt (hw : s.wsel = .w32) : (advanced (runNBytes s) s).acc.toNat < 2 ^ 32 := by
  rw [advanced_acc, hw]
  refine foldl_stepHash_lt_of_ne_nil _ _ fun h => ?_
  have hlen := congrArg List.length h
  have hpos := runNBytes_pos s
  simp only [readLanes_length, List.length_nil] at hlen
  omega

/-- A command that changes ACC at width 32 leaves the seed or a step's result (R22). -/
theorem ExecResult.acc_lt (hw : s.wsel = .w32) (h : ExecResult s i t) (ha : t.acc ≠ s.acc) : t.acc.toNat < 2 ^ 32 := by
  cases h with
  | init | emptyN | startN | startZ => simpa [hw] using seed_w32_lt
  | step => simpa [hw] using stepHash_lt s.psel s.acc _
  | dropped | nop | clr | badCfg | range | nullPtr => simp at ha

/-- A micro-step that changes ACC at width 32 without an error leaves a fold's result (R22). -/
theorem MicroResult.acc_lt (hw : s.wsel = .w32) (h : MicroResult s t) (ha : t.acc ≠ s.acc) (he : t.err = false) :
    t.acc.toNat < 2 ^ 32 := by
  cases h with
  | idle => exact absurd rfl ha
  | bus | top => simp at he
  | advance => exact advanced_acc_lt hw
  | complete =>
    by_cases hr : (settleRaces (advanced (runNBytes s) s)).acc = (advanced (runNBytes s) s).acc
    · simpa [hr] using advanced_acc_lt hw
    · exact settleRaces_acc_lt hw hr
  | cut | terminator => exact settleRaces_acc_lt hw ha
  | scan => simpa [hw] using stepHash_lt s.psel s.acc _

/-! CFG, PTR and LEN. -/

/-- A host move that leaves the operation running leaves the operands (R43). -/
theorem HostResult.operands_eq_of_busy (h : HostResult s m t) (hb : s.busy = true) (ht : t.busy = true) :
    sameOperands s t := by
  cases h with
  | command _ he => exact he.operands_eq
  | rst => simp at ht
  | _ => simp_all [sameOperands]

end Sys2Proof.Machine
end

section
/-! The statements of 10_state.md's family: the invariant, the flags of STATUS, who writes each register, and the words the host reads. -/

namespace Sys2Proof.Machine

/-- Settles O44: a step is a micro-step or a host move, each of which keeps the invariant. -/
theorem stepKeepsInv : Obligations.StepKeepsInv := by
  unfold Obligations.StepKeepsInv
  intro s t hi h
  exact (step_cases h).inv hi

/-- Settles O43: after reset the machine is idle with zero operands, so only R8's bound is asked. -/
theorem invAtReset : Obligations.InvAtReset := by
  unfold Obligations.InvAtReset
  have hreset : ∀ p : Params, p.wf = true → Inv (State.resetOf p) ∧ HashInv (State.resetOf p) :=
    fun p hp => ⟨inv_resetOf hp, hashInv_of_idle rfl⟩
  have hlaunch := hreset .launch (by decide)
  exact ⟨hlaunch.1, hlaunch.2, hreset⟩

/-- Settles O25: each row of R45's table is one of the ways a command, a micro-step or a host write can end. -/
theorem statusFlagsByCommand : Obligations.StatusFlagsByCommand := by
  unfold Obligations.StatusFlagsByCommand
  refine ⟨fun i s t hb h => ?command, fun w s t hb hd h => ?illegal, fun s t _ hb h ht => ?ended,
    fun v off s t hb ho h => ?dropped, fun s => ⟨rfl, rfl, rfl, rfl, rfl⟩⟩
  case command =>
    cases exec_cases h with
    | dropped hd => simp [hb] at hd
    | nop | clr | init => simp [hb]
    | step _ hp => simp [hb, hp]
    | badCfg _ hp hi => rcases hi with ⟨b, rfl⟩ | rfl | rfl <;> simp [hb, hp]
    | range _ hp hr => simp [hb, hp, hr]
    | nullPtr _ hp hn => simp [hb, hp, hn]
    | emptyN _ hp hr hl => simp_all
    | startN _ hp hr hl => simp_all [State.busy]
    | startZ _ hp hn => simp_all [State.busy]
  case illegal =>
    have hw := (hostWrite_reg .cmd w s).trans (writeCmd_illegal hb hd)
    obtain rfl := Host.Outcome.next.inj (h.symm.trans hw)
    exact ⟨hb, rfl, rfl, rfl, rfl⟩
  case ended =>
    have hr := microStep_cases h
    exact ⟨hr.ovr_eq, hr.outcome_of_ended hb ht⟩
  case dropped =>
    obtain rfl := Host.Outcome.next.inj (h.symm.trans (hostWrite_of_busy v hb ho))
    exact ⟨hb, rfl, rfl, rfl, rfl⟩

/-- Settles O26: a micro-step keeps OVR, and the host moves that change it are those named. -/
theorem ovrIsSticky : Obligations.OvrIsSticky := by
  unfold Obligations.OvrIsSticky
  intro s t h
  cases step_cases h with
  | micro _ _ hr => simp_all [hr.ovr_eq]
  | @host m rest _ hn _ hr =>
    refine ⟨fun hs ht => ⟨rest, ?_⟩, fun hs ht => ?_⟩
    · rcases hr.move_of_ovr_cleared hs ht with rfl | ⟨hb, rfl⟩
      · exact .inl hn
      · exact .inr ⟨hb, hn⟩
    · obtain ⟨hb, v, off, rfl, ho⟩ := hr.move_of_ovr_set hs ht
      exact ⟨hb, v, off, rest, hn, ho⟩

/-- Settles O27: a step that changes ACC is a micro-step of a running operation, or one of the host moves named. -/
theorem onlyTheseWriteAcc : Obligations.OnlyTheseWriteAcc := by
  unfold Obligations.OnlyTheseWriteAcc
  intro s t h ha
  cases step_cases h with
  | micro _ hm _ =>
    refine .inl ⟨?_, hm⟩
    by_contra hb
    rw [microStep_of_idle ((not_busy_iff s).1 (by simpa using hb))] at hm
    cases hm
    exact ha rfl
  | @host m rest _ hn _ hr =>
    refine .inr ⟨rest, ?_⟩
    rcases hr.move_of_acc_changed ha with rfl | ⟨hb, w, i, rfl, hd, hi⟩
    · exact .inl hn
    · exact .inr ⟨hb, w, i, hn, hd, hi⟩

/-- Settles O28: at width 32 ACC takes the seed or a fold's result, both below 2^32. -/
theorem width32ClearsUpperHalf : Obligations.Width32ClearsUpperHalf := by
  unfold Obligations.Width32ClearsUpperHalf
  exact ⟨fun i s t hw h ha => (exec_cases h).acc_lt hw ha,
    fun s t hw h ha he => (microStep_cases h).acc_lt hw ha he⟩

/-- Settles O29: a micro-step never writes the operands, and the host's writes of them are dropped while BUSY. -/
theorem operandsFixedWhileBusy : Obligations.OperandsFixedWhileBusy := by
  unfold Obligations.OperandsFixedWhileBusy
  intro s t h hb ht
  cases step_cases h with
  | micro _ _ hr => exact hr.operands_eq
  | host _ _ hr => exact hr.operands_eq_of_busy hb ht

/-- Settles O37: each field is cut from the word's parts, from the low end. -/
theorem statusLayout : Obligations.StatusLayout := by
  unfold Obligations.StatusLayout
  intro s
  unfold statusWord
  refine ⟨?busy, ?done, ?err, ?ovr, ?low, ?ecode, ?irq, ?high, rfl⟩
  case busy =>
    rw [BitVec.getLsbD_append, if_pos (by decide)]
    rcases phase_cases s with hp | hp | hp <;> simp [State.busy, hp]
  case done =>
    rw [BitVec.getLsbD_append, if_neg (by decide)]
    rw [BitVec.getLsbD_append, if_pos (by decide)]
    simp
  case err =>
    iterate 2 rw [BitVec.getLsbD_append, if_neg (by decide)]
    rw [BitVec.getLsbD_append, if_pos (by decide)]
    simp
  case ovr =>
    iterate 3 rw [BitVec.getLsbD_append, if_neg (by decide)]
    rw [BitVec.getLsbD_append, if_pos (by decide)]
    simp
  case low =>
    iterate 4 rw [BitVec.extractLsb'_append_eq_of_le (by decide)]
    rw [BitVec.extractLsb'_append_eq_of_add_le (by decide)]
    rfl
  case ecode =>
    iterate 5 rw [BitVec.extractLsb'_append_eq_of_le (by decide)]
    rw [BitVec.extractLsb'_append_eq_of_add_le (by decide)]
    cases s.ecode <;> rfl
  case irq =>
    iterate 6 rw [BitVec.getLsbD_append, if_neg (by decide)]
    rw [BitVec.getLsbD_append, if_pos (by decide)]
    simp [State.irq]
  case high =>
    iterate 7 rw [BitVec.extractLsb'_append_eq_of_le (by decide)]
    rfl

/-- Settles O38: each field is cut from the word's parts; ADDR_W, at most 64, fits in its 7 bits. -/
theorem paramsLayout : Obligations.ParamsLayout := by
  unfold Obligations.ParamsLayout
  intro s h
  unfold paramsWord
  refine ⟨?chunk, ?native, ?mode, ?low, ?addrW, ?high, fun v => hostWrite_reg .params v s⟩
  case chunk =>
    rw [BitVec.extractLsb'_append_eq_of_add_le (by decide)]
    exact BitVec.extractLsb'_eq_self
  case native =>
    rw [BitVec.getLsbD_append, if_neg (by decide)]
    rw [BitVec.getLsbD_append, if_pos (by decide)]
    cases s.params.native <;> decide
  case mode =>
    iterate 2 rw [BitVec.extractLsb'_append_eq_of_le (by decide)]
    rw [BitVec.extractLsb'_append_eq_of_add_le (by decide)]
    cases s.params.widthMode <;> rfl
  case low =>
    iterate 3 rw [BitVec.extractLsb'_append_eq_of_le (by decide)]
    rw [BitVec.extractLsb'_append_eq_of_add_le (by decide)]
    rfl
  case addrW =>
    have haddrW : s.params.addrW < 2 ^ 7 := by
      simp only [Params.wf, Bool.and_eq_true, decide_eq_true_eq] at h
      omega
    iterate 4 rw [BitVec.extractLsb'_append_eq_of_le (by decide)]
    rw [BitVec.extractLsb'_append_eq_of_add_le (by decide)]
    simpa using haddrW
  case high =>
    iterate 5 rw [BitVec.extractLsb'_append_eq_of_le (by decide)]
    rfl

/-- Settles O41: the reset width is chosen by WIDTH_MODE, ACC is that width's seed, and the rest is 0. -/
theorem resetValues : Obligations.ResetValues := by
  unfold Obligations.ResetValues
  intro s
  refine ⟨?width, rfl, rfl, rfl, rfl, ?acc, rfl, rfl, rfl, rfl, rfl, rfl, rfl, rfl, rfl, rfl, rfl⟩
  case width =>
    show resetWidth s.params = _
    unfold resetWidth
    cases s.params.widthMode <;> rfl
  case acc =>
    rw [applyReset_acc, applyReset_wsel]
    cases resetWidth s.params <;> rfl

end Sys2Proof.Machine
end

section
/-! A command on its way through a step, MemRead's failures, what a completed operation leaves in ACC and COUNT when borrowed bytes were written, and that a micro-step reads no byte but those its operation still has to. -/

namespace Sys2Proof.Machine

variable {s t : State}

/-! A write to CMD. -/

/-- A legal word written to CMD runs its command, which while BUSY is dropped as the word is (R172). -/
theorem writeCmd_cmd {w : Word32} {i : Instr} (hd : decode w = .cmd i) (s : State) : writeCmd w s = exec i s := by
  cases hb : s.busy with
  | true =>
    obtain ⟨u, hu, hr⟩ := exec_result i s
    rw [hu, hr.eq_dropWrite hb]
    exact if_pos hb
  | false => simp [writeCmd, hb, hd]

/-- The host's write of a word to CMD as the next move is a CMD write on the state the move is taken from. -/
theorem step_of_cmd_write {w : Word32} {rest : List Input}
    (h : nextMove s (.access ⟨.write w, s.params.base + 0x00, 4⟩) rest) : step s = writeCmd w (taken s rest) :=
  (step_of_nextMove h).trans (hostWrite_reg .cmd w (taken s rest))

/-- A command placed for the next step is the next move, since it brings its own turn. -/
theorem nextMove_placeCommand (w : Word32) (s : State) :
    nextMove (placeCommand w s) (.access ⟨.write w, s.params.base + 0x00, 4⟩) s.inputs :=
  ⟨rfl, by simp [sequencerTurn, placeCommand]⟩

theorem taken_placeCommand (w : Word32) (s : State) : taken (placeCommand w s) s.inputs = s := rfl

theorem decode_of_decodeTableWord {nbits w : Nat} {i : Instr} (h : decodeTableWord nbits w = some i) :
    decode (BitVec.ofNat 32 (w % 2 ^ nbits)) = .cmd i := by
  unfold decodeTableWord at h
  split at h
  · rename_i hd
    rw [hd, Option.some.inj h]
  · cases h

/-! MemRead. -/

theorem memRead_outside {addr n : Nat} (h : 2 ^ s.params.addrW < addr + n) : memRead s addr n = none := if_pos h

theorem memRead_unadmitted {addr n i : Nat} (hi : i < n) (h : admits s.params (addr + i) = false) :
    memRead s addr n = none := by
  refine (memRead_cases s addr n).resolve_right fun ⟨_, _, ha⟩ => ?_
  simp [ha i hi] at h

theorem readLane_raced {addr i : Nat} (h : addr + i ∈ s.raced) :
    readLane s addr i = Config.freeByte s.borrow (addr + i) := if_pos h

theorem readLane_unraced {addr i : Nat} (h : addr + i ∉ s.raced) :
    readLane s addr i = memByte s.mem (addr + i) := if_neg h

theorem readLanes_getElem? {addr n i : Nat} (hi : i < n) : (readLanes s addr n)[i]? = some (readLane s addr i) := by
  simp [readLanes, hi]

theorem readLanes_add (s : State) (addr i n : Nat) :
    readLanes s addr (i + n) = readLanes s addr i ++ readLanes s (addr + i) n := by
  simp [readLanes, readLane, List.range_add, Function.comp_def, Nat.add_assoc]

theorem readLanes_one (s : State) (addr : Nat) : readLanes s addr 1 = [readLane s addr 0] := by simp [readLanes]

/-! The result of an operation whose bytes may have been written while borrowed (R71; log entry 7). -/

/-- Where no folded byte is raced, ACC is the hash of the folded lanes, and a scan has folded no 0: what settling relies on to leave ACC and COUNT alone. -/
def FoldsItsLanes (s : State) : Prop :=
  foldedByteRaced s = false →
    s.acc = fnv1a s.wsel s.psel (foldedLanes s) ∧ (s.phase = .runZ → ∀ b ∈ foldedLanes s, b ≠ 0)

theorem foldedByteRaced_eq_false_iff :
    foldedByteRaced s = false ↔ ∀ a ∈ s.raced, a < s.ptr.toNat ∨ s.ptr.toNat + s.count.toNat ≤ a := by
  simp only [foldedByteRaced, List.any_eq_false, Bool.and_eq_true, decide_eq_true_eq]
  refine forall₂_congr fun a _ => ?_
  omega

/-- COUNT counts the bytes from PTR up to CUR. -/
theorem running_count (hi : Inv s) (hb : s.busy = true) :
    s.ptr.toNat ≤ s.cur.toNat ∧ s.count.toNat = s.cur.toNat - s.ptr.toNat := by
  rcases phase_cases s with hp | hp | hp
  · simp [busy_iff, hp] at hb
  · obtain ⟨-, hle, -, -, hc⟩ := hi.runN hp
    exact ⟨hle, hc⟩
  · obtain ⟨-, -, hle, hc⟩ := hi.runZ hp
    exact ⟨hle, hc⟩

theorem foldsItsLanes_of_hashInv (hi : Inv s) (hh : HashInv s) (hb : s.busy = true) : FoldsItsLanes s := by
  intro hr
  obtain ⟨hle, hc⟩ := running_count hi hb
  have hout := foldedByteRaced_eq_false_iff.1 hr
  have hlanes : foldedLanes s = bytesAt s.mem s.ptr.toNat (s.cur.toNat - s.ptr.toNat) := by
    rw [foldedLanes, readLanes_unraced hout, hc]
  rw [hlanes]
  refine hh hb (unracedSoFar_iff.2 fun a ha => ?_)
  have := hout a ha
  omega

/-- Once the races are settled, ACC and COUNT are of the settled lanes, whether or not a folded byte was raced. -/
theorem settleRaces_eq (h : FoldsItsLanes s) :
    settleRaces s =
      { s with acc := fnv1a s.wsel s.psel (settledLanes s), count := BitVec.ofNat 64 (settledLanes s).length } := by
  cases hr : foldedByteRaced s with
  | true => exact if_pos hr
  | false =>
    obtain ⟨hacc, hz⟩ := h hr
    have hlanes : settledLanes s = foldedLanes s := by
      unfold settledLanes
      split
      next hp => exact List.takeWhile_eq_self_iff.2 fun b hb => by simpa using hz hp b hb
      next => rfl
    have hcount : BitVec.ofNat 64 (foldedLanes s).length = s.count := by
      rw [foldedLanes, readLanes_length]
      exact BitVec.eq_of_toNat_eq (toNat_ofNat_of_lt s.count.isLt)
    rw [hlanes, hcount, ← hacc]
    simp [settleRaces, hr]

theorem completeOperation_result (h : FoldsItsLanes s) :
    (completeOperation s).acc = fnv1a s.wsel s.psel (settledLanes s) ∧
      (completeOperation s).count = BitVec.ofNat 64 (settledLanes s).length := by
  rw [completeOperation_acc, completeOperation_count, settleRaces_eq h]
  exact ⟨rfl, rfl⟩

theorem settledLanes_length_le (s : State) : (settledLanes s).length ≤ s.count.toNat := by
  have hlen : (foldedLanes s).length = s.count.toNat := readLanes_length _ _ _
  unfold settledLanes
  split
  · exact hlen ▸ (List.takeWhile_sublist _).length_le
  · exact hlen.le

/-! A HASH_N's last read. -/

/-- The lanes of PTR..CUR-1 and those just read are the lanes folded after the read. -/
theorem foldedLanes_advanced (hi : Inv s) (hp : s.phase = .runN) :
    foldedLanes (advanced (runNBytes s) s) = foldedLanes s ++ readLanes s s.cur.toNat (runNBytes s) := by
  obtain ⟨-, hle, -, -, hc⟩ := hi.runN hp
  have hcur : s.cur.toNat = s.ptr.toNat + s.count.toNat := by omega
  rw [foldedLanes, foldedLanes, advanced_count_toNat hi hp, hcur, ← readLanes_add]
  rfl

theorem foldsItsLanes_advanced (hi : Inv s) (hp : s.phase = .runN) (h : FoldsItsLanes s) :
    FoldsItsLanes (advanced (runNBytes s) s) := by
  intro hr
  have hout := foldedByteRaced_eq_false_iff.1 hr
  have hcount := advanced_count_toNat hi hp
  have hs : foldedByteRaced s = false := foldedByteRaced_eq_false_iff.2 fun a ha => by
    have := hout a ha
    rw [hcount, advanced_ptr] at this
    omega
  refine ⟨?_, fun hz => by simp [hp] at hz⟩
  rw [foldedLanes_advanced hi hp, fnv1a_append, advanced_wsel, advanced_psel, ← (h hs).1]
  rfl

/-- At completion the lanes folded are the LEN lanes at PTR. -/
theorem settledLanes_advanced (hi : Inv s) (hp : s.phase = .runN) (hrem : (advanced (runNBytes s) s).rem = 0) :
    settledLanes (advanced (runNBytes s) s) = readLanes s s.ptr.toNat s.len.toNat := by
  obtain ⟨hpos, hle, hsum, -, hc⟩ := hi.runN hp
  have hn := runNBytes_le hpos
  rw [rem_eq_zero_iff, advanced_rem_toNat hi hp] at hrem
  have hcount : (advanced (runNBytes s) s).count.toNat = s.len.toNat := by
    rw [advanced_count_toNat hi hp]
    omega
  rw [settledLanes, if_neg (by simp [hp]), foldedLanes, hcount]
  rfl

/-- A completed HASH_N leaves the hash of what its LEN reads returned (R71, R145). -/
theorem MicroResult.runN_completed (hi : Inv s) (hh : HashInv s) (hp : s.phase = .runN) (h : MicroResult s t)
    (ht : t.done = true) :
    t.acc = fnv1a s.wsel s.psel (readLanes s s.ptr.toNat s.len.toNat) ∧ t.count = s.len := by
  have hb : s.busy = true := by simp [busy_iff, hp]
  have hdone := (hi.busyClear hb).1
  cases h with
  | complete _ _ _ hrem =>
    have hfolds := foldsItsLanes_advanced hi hp (foldsItsLanes_of_hashInv hi hh hb)
    obtain ⟨hacc, hcount⟩ := completeOperation_result hfolds
    rw [settledLanes_advanced hi hp hrem] at hacc hcount
    rw [readLanes_length] at hcount
    exact ⟨hacc, hcount.trans (BitVec.eq_of_toNat_eq (toNat_ofNat_of_lt s.len.isLt))⟩
  | _ => simp_all

/-! A HASH_Z's terminator. -/

/-- A scan's settled lanes are those before the first 0 of PTR..CUR, when the byte at CUR or an earlier one reads as 0. -/
theorem settledLanes_scan (hi : Inv s) (hp : s.phase = .runZ)
    (hz : foldedZero s = true ∨ readLane s s.cur.toNat 0 = 0) :
    settledLanes s = (readLanes s s.ptr.toNat (s.cur.toNat - s.ptr.toNat + 1)).takeWhile (· != 0) := by
  obtain ⟨-, -, hle, hc⟩ := hi.runZ hp
  have hcur : s.ptr.toNat + s.count.toNat = s.cur.toNat := by omega
  rw [settledLanes, if_pos hp, ← hc, readLanes_add, hcur, readLanes_one, ← foldedLanes]
  rw [List.takeWhile_append]
  split_ifs with hlen
  · have hall := List.takeWhile_eq_self_iff.1 ((List.takeWhile_prefix _).eq_of_length hlen)
    have hcur0 : readLane s s.cur.toNat 0 = 0 := by
      refine hz.resolve_left fun hzero => ?_
      simp only [foldedZero, Bool.and_eq_true, List.any_eq_true, beq_iff_eq] at hzero
      obtain ⟨-, b, hb, h0⟩ := hzero
      simpa [h0] using hall b hb
    simpa [hcur0] using hall
  · rfl

/-- A completed HASH_Z leaves the hash and the number of the bytes its reads returned before the first 0 (R71, R127, R147). -/
theorem MicroResult.runZ_completed (hi : Inv s) (hh : HashInv s) (hp : s.phase = .runZ) (h : MicroResult s t)
    (ht : t.done = true) :
    t.acc = fnv1a s.wsel s.psel
        ((readLanes s s.ptr.toNat (s.cur.toNat - s.ptr.toNat + 1)).takeWhile (· != 0)) ∧
      t.count.toNat = ((readLanes s s.ptr.toNat (s.cur.toNat - s.ptr.toNat + 1)).takeWhile (· != 0)).length := by
  have hb : s.busy = true := by simp [busy_iff, hp]
  have hdone := (hi.busyClear hb).1
  obtain ⟨hacc, hcount⟩ := completeOperation_result (foldsItsLanes_of_hashInv hi hh hb)
  have hlen := (settledLanes_length_le s).trans_lt s.count.isLt
  have hcount := (congrArg BitVec.toNat hcount).trans (toNat_ofNat_of_lt hlen)
  cases h with
  | cut _ hz => exact settledLanes_scan hi hp (.inl hz) ▸ ⟨hacc, hcount⟩
  | terminator _ _ _ hb0 => exact settledLanes_scan hi hp (.inr hb0) ▸ ⟨hacc, hcount⟩
  | _ => simp_all

/-! Another memory under the same state. -/

/-- The same state over another buffer memory. -/
def withMem (m : List Host.Cell) (s : State) : State := { s with mem := m }

theorem withMem_cur (m : List Host.Cell) (s : State) : (withMem m s).cur = s.cur := rfl

/-- An outcome whose next state, if there is one, has another buffer memory. -/
def outcomeWithMem (m : List Host.Cell) : Host.Outcome State Fault Refusal → Host.Outcome State Fault Refusal
  | .next s => .next (withMem m s)
  | .fault f => .fault f
  | .refused r => .refused r

theorem readLanes_withMem {m : List Host.Cell} {addr n : Nat} (hr : s.raced = [])
    (hm : ∀ a, addr ≤ a → a < addr + n → memByte m a = memByte s.mem a) :
    readLanes (withMem m s) addr n = readLanes s addr n := by
  have hnone : ∀ a ∈ s.raced, a < addr ∨ addr + n ≤ a := by simp [hr]
  rw [readLanes_unraced hnone, readLanes_unraced (s := withMem m s) hnone]
  exact bytesAt_congr hm

/-- Whether MemRead fails is not the memory's to say (R61, R66). -/
theorem memRead_withMem {m : List Host.Cell} {addr n : Nat}
    (h : readLanes (withMem m s) addr n = readLanes s addr n) : memRead (withMem m s) addr n = memRead s addr n := by
  unfold memRead
  rw [h]
  rfl

theorem settleRaces_of_raced_nil (hr : s.raced = []) : settleRaces s = s := settleRaces_of_unraced (by simp [hr])

theorem foldedZero_of_raced_nil (hr : s.raced = []) : foldedZero s = false := by simp [foldedZero, foldedByteRaced, hr]

/-- With nothing raced, completion reads no memory. -/
theorem completeOperation_withMem (m : List Host.Cell) (hr : s.raced = []) :
    completeOperation (withMem m s) = withMem m (completeOperation s) := by
  unfold completeOperation
  rw [settleRaces_of_raced_nil hr, settleRaces_of_raced_nil (s := withMem m s) hr]
  rfl

theorem afterMicroStep_withMem (m : List Host.Cell) (o : Host.Outcome State Fault Refusal) :
    afterMicroStep (outcomeWithMem m o) = outcomeWithMem m (afterMicroStep o) := by
  cases o <;> rfl

/-- The two memories need only agree on the n bytes read at CUR. -/
theorem readAndFold_withMem {m : List Host.Cell} {n : Nat} (hr : s.raced = [])
    (hm : ∀ a, s.cur.toNat ≤ a → a < s.cur.toNat + n → memByte m a = memByte s.mem a) :
    readAndFold n (withMem m s) = outcomeWithMem m (readAndFold n s) := by
  have hlanes := readLanes_withMem hr hm
  cases hd : touchesDevice s.params s.cur.toNat n with
  | true => rw [readAndFold_device hd, readAndFold_device (s := withMem m s) hd, outcomeWithMem]
  | false =>
    have hadv : advanced n (withMem m s) = withMem m (advanced n s) := by
      unfold advanced
      rw [withMem_cur, hlanes]
      rfl
    rw [readAndFold_eq hd, readAndFold_eq (s := withMem m s) hd, hadv,
      withMem_cur, memRead_withMem hlanes]
    cases memRead s s.cur.toNat n with
    | none => rfl
    | some bytes =>
      simp only [completeOperation_withMem m (s := advanced n s) hr, outcomeWithMem, apply_ite (withMem m)]
      rfl

theorem scanByte_withMem (m : List Host.Cell) (b : Byte) (hr : s.raced = []) :
    scanByte b (withMem m s) = withMem m (scanByte b s) := by
  by_cases hb : b = 0
  · rw [scanByte_zero _ hb, scanByte_zero _ hb, completeOperation_withMem m hr]
  · by_cases hc : s.cur.toNat = 2 ^ s.params.addrW - 1
    · rw [scanByte_top hb hc, scanByte_top (s := withMem m s) hb hc]
      rfl
    · rw [scanByte_on hb hc, scanByte_on (s := withMem m s) hb hc]
      rfl

/-- The two memories need only agree on the byte at CUR. -/
theorem runZMicroStep_withMem {m : List Host.Cell} (hr : s.raced = [])
    (hm : memByte m s.cur.toNat = memByte s.mem s.cur.toNat) :
    runZMicroStep (withMem m s) = outcomeWithMem m (runZMicroStep s) := by
  have hlanes : readLanes (withMem m s) s.cur.toNat 1 = readLanes s s.cur.toNat 1 :=
    readLanes_withMem hr fun a h1 h2 => by
      obtain rfl : a = s.cur.toNat := by omega
      exact hm
  have hlane : readLane (withMem m s) s.cur.toNat 0 = readLane s s.cur.toNat 0 := by
    simpa [readLanes_one] using hlanes
  have hz := foldedZero_of_raced_nil hr
  have hz' := foldedZero_of_raced_nil (s := withMem m s) hr
  cases hd : touchesDevice s.params s.cur.toNat 1 with
  | true => rw [runZMicroStep_device hz hd, runZMicroStep_device hz' hd, outcomeWithMem]
  | false =>
    rw [runZMicroStep_eq hz hd, runZMicroStep_eq hz' hd, withMem_cur,
      memRead_withMem hlanes, hlane, scanByte_withMem m _ hr]
    cases memRead s s.cur.toNat 1 <;> rfl

/-- A micro-step over two memories that agree on what its operation still has to read differs in the memory alone (R73). -/
theorem microStep_withMem {m : List Host.Cell} (hi : Inv s) (hr : s.raced = [])
    (hN : s.phase = .runN → ∀ a, s.cur.toNat ≤ a → a < s.cur.toNat + s.rem.toNat → memByte m a = memByte s.mem a)
    (hZ : s.phase = .runZ → memByte m s.cur.toNat = memByte s.mem s.cur.toNat) :
    microStep (withMem m s) = outcomeWithMem m (microStep s) := by
  rcases phase_cases s with hp | hp | hp
  · rw [microStep_of_idle hp, microStep_of_idle (s := withMem m s) hp, outcomeWithMem]
  · have hn := runNBytes_le (hi.runN hp).1
    have hfold := readAndFold_withMem (n := runNBytes s) hr fun a h1 h2 => hN hp a h1 (by omega)
    rw [microStep_of_runN hp, microStep_of_runN (s := withMem m s) hp, ← afterMicroStep_withMem]
    exact congrArg afterMicroStep hfold
  · rw [microStep_of_runZ hp, microStep_of_runZ (s := withMem m s) hp, ← afterMicroStep_withMem,
      runZMicroStep_withMem hr (hZ hp)]

end Sys2Proof.Machine
end

section
/-! The statements of 20_memory.md's family: the command a CMD write runs, MemRead's lanes, bytes written while borrowed, and what a micro-step does not read. -/

namespace Sys2Proof.Machine

/-- Settles O5: a step that takes a CMD write is that write, which runs a legal word's command and rejects or drops an illegal word. -/
theorem stepRunsDecodedCommand : Obligations.StepRunsDecodedCommand := by
  unfold Obligations.StepRunsDecodedCommand
  refine ⟨fun s w rest i hn hd => ?legal, fun s w rest hn hd => ?illegal, fun s nbits w i h => ?placed⟩
  case legal => rw [step_of_cmd_write hn, writeCmd_cmd hd]
  case illegal =>
    rw [step_of_cmd_write hn]
    cases hb : s.busy with
    | true => exact if_pos hb
    | false =>
      rw [writeCmd_illegal (s := taken s rest) hb hd]
      simp [raiseError, clearOutcome]
  case placed =>
    rw [State.withFetchWord, step_of_cmd_write (nextMove_placeCommand _ s), taken_placeCommand,
      writeCmd_cmd (decode_of_decodeTableWord h)]

/-- Settles O46: MemRead answers either nothing or all the lanes, and lane i is the memory's byte unless it is raced. -/
theorem memReadLanes : Obligations.MemReadLanes := by
  unfold Obligations.MemReadLanes
  intro s addr n
  refine ⟨memRead_outside, fun ⟨i, hi, ha⟩ => memRead_unadmitted hi ha, fun hin ha =>
    ⟨readLanes s addr n, memRead_of_admits hin ha, readLanes_length _ _ _, fun i hi hr => ?_⟩⟩
  rw [readLanes_getElem? hi, readLane_unraced hr]

/-- Settles O47: a host write adds its addresses to the raced ones, a raced lane is free, and completion leaves the hash of the lanes as they read, by settleRaces where a folded byte is raced and by HashInv where none is. -/
theorem racedBytesReadFreely : Obligations.RacedBytesReadFreely := by
  unfold Obligations.RacedBytesReadFreely
  refine ⟨fun addr bytes s hb hin => ?write, fun _ _ _ => readLane_raced, fun _ _ _ => readLane_unraced,
    fun s t hi hh hp h => (microStep_cases h).runN_completed hi hh hp,
    fun s t hi hh hp h ht => ⟨_, rfl, (microStep_cases h).runZ_completed hi hh hp ht⟩⟩
  case write =>
    refine ⟨_, hostMemWrite_inside hin, rfl, fun a => ?_, fun hwf i b => memByte_memSetAll_in hwf addr bytes⟩
    simp only [hb, if_true, mem_addRaced]

/-- Settles O52: with nothing raced a micro-step reads the bytes at CUR its phase names, and of the memory nothing else. -/
theorem readsAreNotSpeculative : Obligations.ReadsAreNotSpeculative := by
  unfold Obligations.ReadsAreNotSpeculative
  intro s t m hi hr hN hZ h
  exact (microStep_withMem hi hr hN hZ).trans (congrArg (outcomeWithMem m) h)

end Sys2Proof.Machine
end

section
/-! The decoder and the encoder as one relation: a word and its four fields (R80), STEP's mask (R84), the word each command decodes from, and the illegal words by their fields (R85). -/

namespace Sys2Proof

/-! The fields of a word. -/

/-- The four fields cover the word: read from the high end, each extends the one before it (R80). -/
theorem CmdFields.toWord_ofWord (w : Word32) : (CmdFields.ofWord w).toWord = w := by
  simp only [CmdFields.toWord, CmdFields.ofWord]
  iterate 3 rw [BitVec.extractLsb'_append_extractLsb'_eq_extractLsb' (by decide)]
  exact BitVec.extractLsb'_eq_self

theorem CmdFields.ofWord_inj {w v : Word32} : CmdFields.ofWord w = CmdFields.ofWord v ↔ w = v := by
  refine ⟨fun h => ?_, congrArg _⟩
  rw [← CmdFields.toWord_ofWord w, h, CmdFields.toWord_ofWord]

/-- The model's per-command lemmas as one: a command's word has the command's fields, and they are legal. -/
theorem wordFields (i : Instr) : Laws.WordFields.Statement i := by
  cases i with
  | nop => exact Laws.WordFields.nop
  | init => exact Laws.WordFields.init
  | step b => exact Laws.WordFields.step b
  | hashN => exact Laws.WordFields.hashN
  | hashZ => exact Laws.WordFields.hashZ
  | clr => exact Laws.WordFields.clr

theorem ofWord_eq_fields_iff {w : Word32} {i : Instr} : CmdFields.ofWord w = i.fields ↔ w = encode i := by
  rw [← (wordFields i).1, CmdFields.ofWord_inj]

/-- R85's checks, field by field. -/
theorem CmdFields.wf_iff (f : CmdFields) :
    f.wf = true ↔ f.op.toNat ≤ 5 ∧ f.rsv0 = 0 ∧ f.rsv1 = 0 ∧ (f.imm8 = 0 ∨ f.op = 2) := by
  simp only [CmdFields.wf, CmdFields.opDefined, CmdFields.rsv0Zero, CmdFields.imm8Allowed, CmdFields.rsv1Zero,
    Bool.and_eq_true, Bool.or_eq_true, beq_iff_eq, decide_eq_true_eq, and_assoc]
  rw [and_comm (b := f.rsv1 = 0), or_comm]

/-- The legal fields are those of the six commands: OP names the command, and IMM8 is free for STEP alone (R81, R82). -/
theorem CmdFields.wf_iff_exists_instr (f : CmdFields) : f.wf = true ↔ ∃ i : Instr, f = i.fields := by
  refine ⟨fun h => ?_, fun ⟨i, h⟩ => h ▸ (wordFields i).2⟩
  obtain ⟨op, rsv0, imm8, rsv1⟩ := f
  obtain ⟨hop, rfl, rfl, rfl | rfl⟩ := (CmdFields.wf_iff _).1 h
  · have hops : op = 0 ∨ op = 1 ∨ op = 2 ∨ op = 3 ∨ op = 4 ∨ op = 5 := by bv_omega
    rcases hops with rfl | rfl | rfl | rfl | rfl | rfl
    · exact ⟨.nop, rfl⟩
    · exact ⟨.init, rfl⟩
    · exact ⟨.step 0, rfl⟩
    · exact ⟨.hashN, rfl⟩
    · exact ⟨.hashZ, rfl⟩
    · exact ⟨.clr, rfl⟩
  · exact ⟨.step imm8, rfl⟩

/-! STEP's mask. -/

/-- The mask keeps every field but IMM8. -/
theorem ofWord_and_stepMask (w : Word32) :
    CmdFields.ofWord (w &&& 0xFFFF00FF#32) = { CmdFields.ofWord w with imm8 := 0 } := by
  have hop : (0xFFFF00FF#32).extractLsb' 0 4 = BitVec.allOnes 4 := by decide
  have hrsv0 : (0xFFFF00FF#32).extractLsb' 4 4 = BitVec.allOnes 4 := by decide
  have himm8 : (0xFFFF00FF#32).extractLsb' 8 8 = 0#8 := by decide
  have hrsv1 : (0xFFFF00FF#32).extractLsb' 16 16 = BitVec.allOnes 16 := by decide
  simp only [CmdFields.ofWord, BitVec.extractLsb'_and, hop, hrsv0, himm8, hrsv1, BitVec.and_allOnes, BitVec.and_zero]
  rfl

/-- R84's row for STEP names exactly the words of the 256 STEP commands. -/
theorem stepMask_iff {w : Word32} {b : Byte} :
    (w &&& 0xFFFF00FF#32 = 0x00000002#32 ∧ b = w.extractLsb' 8 8) ↔ w = encode (.step b) := by
  have htwo : CmdFields.ofWord 0x00000002#32 = ⟨2, 0, 0, 0⟩ := by decide
  rw [← CmdFields.ofWord_inj, ofWord_and_stepMask, htwo, ← ofWord_eq_fields_iff]
  simp only [CmdFields.ofWord, Instr.fields, CmdFields.mk.injEq, true_and]
  constructor
  · rintro ⟨⟨hop, hrsv0, hrsv1⟩, rfl⟩
    exact ⟨hop, hrsv0, rfl, hrsv1⟩
  · rintro ⟨hop, hrsv0, rfl, hrsv1⟩
    exact ⟨⟨hop, hrsv0, hrsv1⟩, rfl⟩

/-! The decoder. -/

theorem decode_of_stepMask {w : Word32} (h : w &&& 0xFFFF00FF#32 = 0x00000002#32) :
    decode w = .cmd (.step (w.extractLsb' 8 8)) := by
  have hnop : w ≠ 0x00000000#32 := by
    rintro rfl
    exact absurd h (by decide)
  have hinit : w ≠ 0x00000001#32 := by
    rintro rfl
    exact absurd h (by decide)
  rw [decode, if_neg hnop, if_neg hinit, if_pos h]

theorem decode_encode (i : Instr) : decode (encode i) = .cmd i := by
  cases i with
  | nop => exact decode_word_nop
  | init => exact decode_word_init
  | step b =>
    obtain ⟨hmask, hb⟩ := stepMask_iff.2 (rfl : encode (.step b) = _)
    rw [decode_of_stepMask hmask, ← hb]
  | hashN => exact decode_word_hashN
  | hashZ => exact decode_word_hashZ
  | clr => exact decode_word_clr

/-- A word answered by a command is that command's word: each row of R84 names its words. -/
theorem eq_encode_of_decode {w : Word32} {i : Instr} (h : decode w = .cmd i) : w = encode i := by
  unfold decode at h
  split_ifs at h with hnop hinit hstep hhashN hhashZ hclr <;> cases h
  · exact hnop
  · exact hinit
  · exact stepMask_iff.1 ⟨hstep, rfl⟩
  · exact hhashN
  · exact hhashZ
  · exact hclr

theorem decode_eq_cmd_iff {w : Word32} {i : Instr} : decode w = .cmd i ↔ w = encode i :=
  ⟨eq_encode_of_decode, fun h => h ▸ decode_encode i⟩

/-- Decoding is total: a command, or ILLEGAL of the word itself (R84). -/
theorem decode_cmd_or_illegal (w : Word32) : (∃ i, decode w = .cmd i) ∨ decode w = .illegal w := by
  cases h : decode w with
  | cmd i => exact .inl ⟨i, rfl⟩
  | illegal v => rw [Machine.decode_illegal h]; exact .inr rfl

/-- The words that decode to a command are those with legal fields (R81 to R83). -/
theorem exists_decode_eq_cmd_iff {w : Word32} : (∃ i, decode w = .cmd i) ↔ (CmdFields.ofWord w).wf = true := by
  simp only [CmdFields.wf_iff_exists_instr, decode_eq_cmd_iff, ofWord_eq_fields_iff]

theorem decode_eq_illegal_iff {w : Word32} : decode w = .illegal w ↔ ¬ (CmdFields.ofWord w).wf = true := by
  rw [← exists_decode_eq_cmd_iff]
  refine ⟨fun h ⟨i, hi⟩ => ?_, (decode_cmd_or_illegal w).resolve_left⟩
  rw [h] at hi
  cases hi

end Sys2Proof
end

section
/-! What accepting a word written to CMD leaves in ECODE, and the fields that a CFG word writes (R91). -/

namespace Sys2Proof.Machine

variable {s t : State}

theorem hostWrite_cmd {w : Word32} {i : Instr} (hd : decode w = .cmd i) : hostWrite 0x00 w s = exec i s :=
  (hostWrite_reg .cmd w s).trans (writeCmd_cmd hd s)

/-- An illegal word accepted changes DONE, ERR and ECODE, and nothing else (R84, R207). -/
theorem hostWrite_illegal {w : Word32} (hd : decode w = .illegal w) (hb : s.busy = false) :
    hostWrite 0x00 w s = .next { s with done := false, err := true, ecode := .badCmd } := by
  refine (hostWrite_reg .cmd w s).trans ((writeCmd_illegal hb hd).trans ?_)
  simp [raiseError, clearOutcome]

/-- BUS is raised by micro-steps only: no accepted command but NOP leaves it in ECODE (R172, R207). -/
theorem ExecResult.ecode_ne_bus {i : Instr} (h : ExecResult s i t) (hb : s.busy = false) (hi : i ≠ .nop) :
    t.ecode ≠ .bus := by
  cases h with
  | dropped hbusy => simp [hb] at hbusy
  | nop => exact absurd rfl hi
  | _ => simp [raiseError]

/-- A word other than NOP's, accepted, does not leave BUS in ECODE: it is another command, or BAD_CMD. -/
theorem ecode_ne_bus_of_accepted {w : Word32} (hw : w ≠ 0x00000000#32) (hb : s.busy = false)
    (h : hostWrite 0x00 w s = .next t) : t.ecode ≠ .bus := by
  rcases decode_cmd_or_illegal w with ⟨i, hd⟩ | hd
  · rw [hostWrite_cmd hd] at h
    refine (exec_cases h).ecode_ne_bus hb ?_
    rintro rfl
    exact hw (eq_encode_of_decode hd)
  · rw [hostWrite_illegal hd hb] at h
    cases h
    exact ErrCode.noConfusion

theorem hostWrite_nop (hb : s.busy = false) : hostWrite 0x00 0x00000000#32 s = .next s := by
  rw [hostWrite_cmd decode_word_nop]
  simp [exec, execNop, hb]

/-- After a BUS error: no operation runs, and only the acceptance of NOP leaves this state as it is (R206, R207). -/
def busFailed : State := { State.reset with err := true, ecode := .bus, busMark := true }

theorem eq_nop_of_busFailed_unchanged {w : Word32} (h : hostWrite 0x00 w busFailed = .next busFailed) :
    w = 0x00000000#32 := by
  by_contra hw
  exact ecode_ne_bus_of_accepted hw rfl h rfl

/-! CFG words. -/

theorem unlessBusy_of_idle (hb : s.busy = false) (f : State → State) : unlessBusy f s = f s :=
  if_neg (Bool.eq_false_iff.1 hb)

/-- The assembler's CFG word is the one the register reads as (R25, R91): IE, PSEL and WSEL from the high end. -/
theorem cfgWordOf_eq_append (ws : Width) (pol : Policy) (ie : Bool) :
    cfgWordOf ws pol ie = 0#28 ++ BitVec.ofBool ie ++ pselBits pol ++ wselBit ws := by
  cases ws <;> cases pol <;> cases ie <;> rfl

theorem wselOfBit_cfgWordOf (ws : Width) (pol : Policy) (ie : Bool) :
    wselOfBit ((cfgWordOf ws pol ie).getLsbD 0) = ws := by
  rw [cfgWordOf_eq_append, BitVec.getLsbD_append, if_pos (by decide)]
  cases ws <;> rfl

theorem pselOfBits_cfgWordOf (ws : Width) (pol : Policy) (ie : Bool) :
    pselOfBits ((cfgWordOf ws pol ie).extractLsb' 1 2) = pol := by
  rw [cfgWordOf_eq_append, BitVec.extractLsb'_append_eq_of_le (by decide), BitVec.extractLsb'_append_eq_right]
  cases pol <;> rfl

theorem getLsbD_cfgWordOf_ie (ws : Width) (pol : Policy) (ie : Bool) : (cfgWordOf ws pol ie).getLsbD 3 = ie := by
  rw [cfgWordOf_eq_append]
  iterate 2 rw [BitVec.getLsbD_append, if_neg (by decide)]
  rw [BitVec.getLsbD_append, if_pos (by decide)]
  simp

/-- A CFG word written selects its three fields (R173). -/
theorem writeCfg_cfgWordOf (hm : s.params.widthMode = .both) (ws : Width) (pol : Policy) (ie : Bool) :
    writeCfg (cfgWordOf ws pol ie) s = { s with wsel := ws, psel := pol, ie := ie } := by
  simp only [writeCfg, writtenWsel, hm, wselOfBit_cfgWordOf, pselOfBits_cfgWordOf, getLsbD_cfgWordOf_ie]

end Sys2Proof.Machine
end

section
/-! The statements of 30_encoding.md's family: decoding and encoding, the illegal words, and the CFG words. -/

namespace Sys2Proof.Machine

/-- Settles O4: a word decodes to a command exactly when it is the command's encoding. -/
theorem decodeEncodeRoundTrip : Obligations.DecodeEncodeRoundTrip := by
  unfold Obligations.DecodeEncodeRoundTrip
  exact ⟨fun i _ => decode_encode i, fun w i h => ⟨(eq_encode_of_decode h).symm, (wordFields i).2⟩⟩

/-- Settles O3: the illegal words are those whose fields fail a check; after a BUS error every word but NOP's changes ECODE. -/
theorem illegalWordsByFields : Obligations.IllegalWordsByFields := by
  unfold Obligations.IllegalWordsByFields
  refine ⟨fun w => ?fields, fun w s => hostWrite_illegal, fun w =>
    ⟨fun h => eq_nop_of_busFailed_unchanged (h busFailed rfl), ?nop⟩⟩
  case fields =>
    rw [decode_eq_illegal_iff, CmdFields.wf_iff]
    simp only [not_and_or, not_or, Nat.not_le]
    rfl
  case nop =>
    rintro rfl s hb
    exact hostWrite_nop hb

/-- Settles O40: the words are read off cfgWordOf, and writing one selects the fields it was made of. -/
theorem cfgWordsSelect : Obligations.CfgWordsSelect := by
  unfold Obligations.CfgWordsSelect
  refine ⟨rfl, rfl, rfl, rfl, rfl, rfl, rfl, rfl, fun ws pol => ?enable, fun ws pol ie s hb hm => ?write⟩
  case enable => cases ws <;> cases pol <;> rfl
  case write =>
    refine (hostWrite_reg .cfg _ s).trans (congrArg Host.Outcome.next ?_)
    rw [unlessBusy_of_idle hb, writeCfg_cfgWordOf hm]

/-- Settles O1: the sixteen words are decoded one by one. -/
theorem specWordsDecode : Obligations.SpecWordsDecode := by
  unfold Obligations.SpecWordsDecode
  decide

/-- Settles O2: R84's rows are the encodings of the six commands. -/
theorem decodeFollowsOpcodeMap : Obligations.DecodeFollowsOpcodeMap := by
  unfold Obligations.DecodeFollowsOpcodeMap
  exact fun w => ⟨decode_eq_cmd_iff, decode_eq_cmd_iff, fun b => decode_eq_cmd_iff.trans stepMask_iff.symm,
    decode_eq_cmd_iff, decode_eq_cmd_iff, decode_eq_cmd_iff, decode_cmd_or_illegal w, fun s => hostWrite_illegal⟩

end Sys2Proof.Machine
end

section
/-! The hash invariant: each command, micro-step and host move keeps it, and so each step. It reads ACC, PTR, CUR, PHASE, the width, the policy, the memory and the raced addresses. -/

namespace Sys2Proof.Machine

variable {s t : State} {i : Instr} {m : Input}

/-- Reading n more bytes keeps the invariant: ACC takes in the bytes that CUR passes (R143, R144, R147). -/
theorem hashInv_reads (hi : Inv s) (hh : HashInv s) (hb : s.busy = true) {n : Nat} {c : Word64}
    (hc : c.toNat = s.cur.toNat + n) (hz : s.phase = .runZ → ∀ b ∈ readLanes s s.cur.toNat n, b ≠ 0) (k r : Word64) :
    HashInv { s with acc := (readLanes s s.cur.toNat n).foldl (stepHash s.wsel s.psel) s.acc
                     count := k, cur := c, rem := r } := by
  intro _ hun
  have hout : ∀ a ∈ s.raced, a < s.ptr.toNat ∨ s.cur.toNat + n ≤ a := hc ▸ unracedSoFar_iff.1 hun
  have hle := (running_count hi hb).1
  obtain ⟨hacc, hnz⟩ := hh hb (unracedSoFar_iff.2 fun a ha => by have := hout a ha; omega)
  have hlanes : readLanes s s.cur.toNat n = bytesAt s.mem s.cur.toNat n :=
    readLanes_unraced fun a ha => by have := hout a ha; omega
  have hbytes : bytesAt s.mem s.ptr.toNat (c.toNat - s.ptr.toNat) =
      bytesAt s.mem s.ptr.toNat (s.cur.toNat - s.ptr.toNat) ++ readLanes s s.cur.toNat n := by
    rw [hlanes, show c.toNat - s.ptr.toNat = s.cur.toNat - s.ptr.toNat + n by omega, bytesAt_add,
      Nat.add_sub_cancel' hle]
  refine ⟨?_, fun hp => ?_⟩
  · simp only [hbytes, fnv1a_append, ← hacc]
  · simp only [hbytes]
    exact List.forall_mem_append.2 ⟨hnz hp, hz hp⟩

/-- An operation starts with the seed, the hash of no byte (R141, R146). -/
theorem hashInv_start (ph : Phase) (n : Word64) : HashInv (startOperation ph n (loadSeed s)) := by
  intro _ _
  simp [bytesAt, fnv1a]

/-- A host memory write changes no byte that is not raced afterwards (R71). -/
theorem hashInv_memWrite (hh : HashInv s) (addr : Nat) (bytes : List Byte) :
    HashInv { s with mem := memSetAll s.mem addr bytes
                     raced := if s.busy then addRaced s.raced addr bytes.length else s.raced } := by
  intro hb hun
  have hb : s.busy = true := hb
  have hout : ∀ a, a ∈ s.raced ∨ addr ≤ a ∧ a < addr + bytes.length → a < s.ptr.toNat ∨ s.cur.toNat ≤ a := by
    simpa only [hb, if_true, mem_addRaced] using unracedSoFar_iff.1 hun
  have hbytes : bytesAt (memSetAll s.mem addr bytes) s.ptr.toNat (s.cur.toNat - s.ptr.toNat) =
      bytesAt s.mem s.ptr.toNat (s.cur.toNat - s.ptr.toNat) :=
    bytesAt_congr fun a h1 h2 => memByte_memSetAll_other s.mem addr bytes (by have := hout a; omega)
  simpa only [hbytes] using hh hb (unracedSoFar_iff.2 fun a ha => hout a (.inl ha))

theorem ExecResult.hashInv (hh : HashInv s) (h : ExecResult s i t) : HashInv t := by
  cases h with
  | dropped | nop => exact hh
  | startN | startZ => exact hashInv_start _ _
  | clr hb | init hb | step hb | emptyN hb | badCfg hb | range hb | nullPtr hb => exact hashInv_of_idle hb

/-- A micro-step that goes on has read bytes; one that ends the operation leaves nothing to say. -/
theorem MicroResult.hashInv (hi : Inv s) (hh : HashInv s) (h : MicroResult s t) : HashInv t := by
  cases h with
  | idle _ => exact hh
  | bus | complete | cut | terminator | top => exact hashInv_of_idle rfl
  | advance hp _ _ hrem =>
    have hb : s.busy = true := by simp [busy_iff, hp]
    rw [Ne, rem_eq_zero_iff, advanced_rem_toNat hi hp] at hrem
    exact hashInv_reads hi hh hb (advanced_cur_toNat hi hp (by omega)) (fun hz => by simp [hp] at hz)
      (advanced (runNBytes s) s).count (advanced (runNBytes s) s).rem
  | scan hp _ _ hb0 hc =>
    have hb : s.busy = true := by simp [busy_iff, hp]
    have hread := hashInv_reads hi hh hb (scan_cur_toNat hi hc) (fun _ => by simpa [readLanes_one] using hb0)
      (s.count + 1) s.rem
    rw [readLanes_one] at hread
    exact hread

theorem HostResult.hashInv (hh : HashInv s) (h : HostResult s m t) : HashInv t := by
  cases h with
  | command _ he => exact he.hashInv hh
  | dropped | ignored | read | poll => exact hh
  | badCmd _ hb | cfg hb | ptr _ hb | len _ hb => exact hashInv_of_idle hb
  | memWrite _ => exact hashInv_memWrite hh _ _
  | rst => exact hashInv_of_idle rfl

theorem StepResult.hashInv (hi : Inv s) (hh : HashInv s) (h : StepResult s t) : HashInv t := by
  cases h with
  | micro _ _ hr => exact hr.hashInv hi hh
  | host _ _ hr => exact hr.hashInv (s := taken s _) hh

end Sys2Proof.Machine
end

section
/-! The accumulation core: the step in exact arithmetic, the words of INIT and STEP and what accepting them does, and what each command leaves unchanged. -/

namespace Sys2Proof.Machine

variable {s t : State} {i : Instr}

/-! The step. -/

/-- Both widths at once: the XOR on the low W bits, then the product mod 2^W (R104, R105, R109). -/
theorem stepHash_toNat (w : Width) (p : Policy) (a : Word64) (b : Byte) :
    (stepHash w p a b).toNat =
      ((a.toNat % 2 ^ w.bits) ^^^ (transform p b).toNat) * (prime w).toNat % 2 ^ w.bits := by
  have hdvd : 2 ^ w.bits ∣ 2 ^ 64 := by cases w <;> decide
  have hbyte : ((transform p b).setWidth 64).toNat = (transform p b).toNat :=
    BitVec.toNat_setWidth_of_le (by decide)
  rw [stepHash, mulTo, truncTo_toNat, BitVec.toNat_mul, Nat.mod_mod_of_dvd _ hdvd, BitVec.toNat_xor, truncTo_toNat,
    hbyte]

theorem stepHash_w32_toNat (p : Policy) (a : Word64) (b : Byte) :
    (stepHash .w32 p a b).toNat = ((a.toNat % 2 ^ 32) ^^^ (transform p b).toNat) * 16777619 % 2 ^ 32 :=
  stepHash_toNat .w32 p a b

theorem stepHash_w64_toNat (p : Policy) (a : Word64) (b : Byte) :
    (stepHash .w64 p a b).toNat = (a.toNat ^^^ (transform p b).toNat) * 1099511628211 % 2 ^ 64 := by
  have h := stepHash_toNat .w64 p a b
  rwa [Width.bits, Nat.mod_eq_of_lt a.isLt] at h

/-! INIT and STEP. -/

/-- STEP's words are 0x2 with the byte in bits [15:8] (R81, R108). -/
theorem encode_step (b : Byte) : encode (.step b) = 0x00000002#32 ||| (b.setWidth 32 <<< 8) := by
  revert b
  decide

theorem exec_init_of_idle (hb : s.busy = false) : exec .init s = .next (setDone (loadSeed (clearOutcome s))) := by
  rw [exec, execInit, acceptCommand_of_idle hb]

theorem exec_step_of_reserved (hb : s.busy = false) (hp : s.psel = .reserved) (b : Byte) :
    exec (.step b) s = .next (raiseError .acceptance .badCfg (clearOutcome s)) := by
  rw [exec, execStep, acceptCommand_of_idle hb, clearOutcome_psel, if_pos hp]

theorem exec_step_of_idle (hb : s.busy = false) (hp : s.psel ≠ .reserved) (b : Byte) :
    exec (.step b) s = .next (setDone (foldByte (clearOutcome s) b)) := by
  rw [exec, execStep, acceptCommand_of_idle hb, clearOutcome_psel, if_neg hp]

/-! What a command leaves unchanged. -/

theorem ExecResult.world_eq (h : ExecResult s i t) : sameWorld s t := by
  cases h <;> simp [sameWorld]

/-- No command raises BUS (R206). -/
theorem ExecResult.busMark_eq (h : ExecResult s i t) : t.busMark = s.busMark := by
  cases h <;> simp

/-- Only a HASH that starts moves the sequencer, and it sets BUSY (R141, R146). -/
theorem ExecResult.sequencer_eq (h : ExecResult s i t) (hb : t.busy = s.busy) : sameSequencer s t := by
  cases h with
  | startN hidle | startZ hidle => exact absurd (hb.trans hidle) (by simp [State.busy])
  | dropped | nop | clr | init | badCfg | step | range | emptyN | nullPtr => simp [sameSequencer]

/-- NOP, CLR, a dropped write and an error keep ACC and COUNT (R170, R171, R207); the other commands end without an error. -/
theorem ExecResult.result_eq (h : ExecResult s i t) (hi : i = .nop ∨ i = .clr ∨ s.busy = true ∨ t.err = true) :
    t.acc = s.acc ∧ t.count = s.count := by
  cases h with
  | dropped | nop | clr | badCfg | range | nullPtr => exact ⟨rfl, rfl⟩
  | init | step | emptyN | startN | startZ => simp_all

/-- An accepted command other than CLR keeps OVR (R34). -/
theorem ExecResult.ovr_eq (h : ExecResult s i t) (hb : s.busy = false) (hi : i ≠ .clr) : t.ovr = s.ovr := by
  cases h with
  | dropped hbusy => simp [hb] at hbusy
  | clr => exact absurd rfl hi
  | nop | init | badCfg | step | range | emptyN | startN | nullPtr | startZ => rfl

end Sys2Proof.Machine
end

section
/-! Runs with no host move in between: what folding a list of bytes leaves, an operation's micro-steps up to its completion (R149, R150), and the CMD writes of hash.bytes (R90). -/

namespace Sys2Proof.Machine

variable {s t u : State}

theorem run_zero (s : State) : Host.Core.run Sys2Proof.core 0 s = .next s := rfl

theorem run_succ {k : Nat} (h : step s = .next u) :
    Host.Core.run Sys2Proof.core (k + 1) s = Host.Core.run Sys2Proof.core k u := by
  have hcore : Sys2Proof.core.step s = .next u := h
  simp only [Host.Core.run, hcore]

/-! Folding a list of bytes. -/

/-- From s to t the bytes were folded into ACC and counted; the operands, the memory and ERR stayed. -/
structure Folds (s : State) (bs : List Byte) (t : State) : Prop where
  operands : sameOperands s t
  mem : t.mem = s.mem
  err : t.err = s.err
  acc : t.acc = bs.foldl (stepHash s.wsel s.psel) s.acc
  count : t.count = s.count + BitVec.ofNat 64 bs.length

theorem Folds.nil (ho : sameOperands s t) (hm : t.mem = s.mem) (he : t.err = s.err) (ha : t.acc = s.acc)
    (hc : t.count = s.count) : Folds s [] t :=
  ⟨ho, hm, he, ha, hc.trans (BitVec.add_zero _).symm⟩

theorem Folds.trans {as bs : List Byte} (h : Folds s as t) (h' : Folds t bs u) : Folds s (as ++ bs) u := by
  obtain ⟨hparams, hwsel, hpsel, hie, hptr, hlen⟩ := h.operands
  obtain ⟨hparams', hwsel', hpsel', hie', hptr', hlen'⟩ := h'.operands
  refine ⟨⟨hparams'.trans hparams, hwsel'.trans hwsel, hpsel'.trans hpsel, hie'.trans hie, hptr'.trans hptr,
    hlen'.trans hlen⟩, h'.mem.trans h.mem, h'.err.trans h.err, ?_, ?_⟩
  · rw [h'.acc, h.acc, hwsel, hpsel, List.foldl_append]
  · rw [h'.count, h.count, List.length_append, BitVec.ofNat_add, BitVec.add_assoc]

theorem Folds.drawTurns {bs : List Byte} (h : Folds s bs t) : Folds s bs (drawTurns t) :=
  ⟨h.operands, h.mem, h.err, h.acc, h.count⟩

/-! The operation runs by itself. -/

/-- The sequencer alone moves, and its next n bytes are inside the address space, answered, without side effects and not raced. -/
structure Undisturbed (s : State) (n : Nat) : Prop where
  params : s.params.wf = true
  inputs : s.inputs = []
  raced : s.raced = []
  inside : s.cur.toNat + n ≤ 2 ^ s.params.addrW
  admitted : admitsRange s.params s.cur.toNat n
  quiet : quietRange s.params s.cur.toNat n

theorem Undisturbed.mono {n k : Nat} (h : Undisturbed s n) (hk : k ≤ n) : Undisturbed s k where
  params := h.params
  inputs := h.inputs
  raced := h.raced
  inside := by have := h.inside; omega
  admitted := fun i hi => h.admitted i (by omega)
  quiet := fun i hi => h.quiet i (by omega)

/-- Once CUR has passed k of the bytes the others are still undisturbed. -/
theorem Undisturbed.advance {n k : Nat} (h : Undisturbed s (k + n)) (hp : t.params = s.params) (hin : t.inputs = [])
    (hr : t.raced = []) (hc : t.cur.toNat = s.cur.toNat + k) : Undisturbed t n where
  params := hp ▸ h.params
  inputs := hin
  raced := hr
  inside := by rw [hp, hc, Nat.add_assoc]; exact h.inside
  admitted := fun i hi => by rw [hp, hc, Nat.add_assoc]; exact h.admitted (k + i) (by omega)
  quiet := fun i hi => by rw [hp, hc, Nat.add_assoc]; exact h.quiet (k + i) (by omega)

theorem Undisturbed.drawTurns {n : Nat} (h : Undisturbed s n) : Undisturbed (drawTurns s) n := { h with }

theorem Undisturbed.memRead {n : Nat} (h : Undisturbed s n) :
    memRead s s.cur.toNat n = some (bytesAt s.mem s.cur.toNat n) := by
  rw [memRead_of_admits h.inside h.admitted, readLanes_unraced (by simp [h.raced])]

theorem two_pow_addrW_le {p : Params} (h : p.wf = true) : 2 ^ p.addrW ≤ 2 ^ 64 := by
  simp only [Params.wf, Bool.and_eq_true, decide_eq_true_eq] at h
  exact Nat.pow_le_pow_right (by decide) h.2

/-- CUR moves up by n without wrapping, where the address space has room above it. -/
theorem addrBits_add_toNat {p : Params} {x : Word64} {n : Nat} (hw : p.wf = true) (h : x.toNat + n < 2 ^ p.addrW) :
    (addrBits p (x + BitVec.ofNat 64 n)).toNat = x.toNat + n := by
  have h64 := two_pow_addrW_le hw
  rw [addrBits_toNat, BitVec.toNat_add, toNat_ofNat_of_lt (by omega), Nat.mod_eq_of_lt (a := _ + _) (by omega),
    Nat.mod_eq_of_lt h]

/-- REM falls by n ≥ 1 without borrowing, also from 2^ADDR_W. -/
theorem addrBits_sub_toNat {p : Params} {x : Word64} {n : Nat} (h0 : 1 ≤ n) (hn : n ≤ x.toNat)
    (h : x.toNat ≤ 2 ^ p.addrW) : (addrBits p (x - BitVec.ofNat 64 n)).toNat = x.toNat - n := by
  have hx := x.isLt
  rw [addrBits_toNat, BitVec.toNat_sub_of_le (by rw [BitVec.le_def, toNat_ofNat_of_lt (by omega)]; exact hn),
    toNat_ofNat_of_lt (by omega), Nat.mod_eq_of_lt (by omega)]

/-- An operation whose bytes the host left alone completes with ACC and COUNT as they are. -/
theorem folds_completeOperation (hr : s.raced = []) : Folds s [] (drawTurns (completeOperation s)) := by
  have hs := settleRaces_of_raced_nil hr
  exact .nil (by simp [sameOperands]) (by simp) (by simp) (by simp [hs]) (by simp [hs])

/-! HASH_N. -/

theorem step_of_runN (hp : s.phase = .runN) (h : Undisturbed s (runNBytes s)) :
    step s = .next (drawTurns (if (advanced (runNBytes s) s).rem = 0 then completeOperation (advanced (runNBytes s) s)
      else advanced (runNBytes s) s)) := by
  rw [step_of_no_inputs h.inputs, microStep_of_runN hp, readAndFold_eq (touchesDevice_of_quiet h.quiet), h.memRead]
  rfl

theorem folds_advanced (n : Nat) (hr : s.raced = []) : Folds s (bytesAt s.mem s.cur.toNat n) (advanced n s) where
  operands := ⟨rfl, rfl, rfl, rfl, rfl, rfl⟩
  mem := rfl
  err := rfl
  acc := by rw [advanced_acc, readLanes_unraced (by simp [hr])]
  count := by rw [advanced_count, bytesAt_length]

theorem Undisturbed.advanced_rem (h : Undisturbed s s.rem.toNat) (hpos : 0 < s.rem.toNat) :
    (advanced (runNBytes s) s).rem.toNat = s.rem.toNat - runNBytes s :=
  addrBits_sub_toNat (runNBytes_pos s) (runNBytes_le hpos) (by have := h.inside; omega)

theorem Undisturbed.advanced_cur (h : Undisturbed s s.rem.toNat) (hlt : runNBytes s < s.rem.toNat) :
    (advanced (runNBytes s) s).cur.toNat = s.cur.toNat + runNBytes s :=
  addrBits_add_toNat h.params (by have := h.inside; omega)

/-- Where bytes are left after a micro-step, they are undisturbed as before. -/
theorem Undisturbed.after_read (h : Undisturbed s s.rem.toNat) (hlt : runNBytes s < s.rem.toNat) :
    Undisturbed (advanced (runNBytes s) s) (advanced (runNBytes s) s).rem.toNat := by
  have hsum : runNBytes s + (advanced (runNBytes s) s).rem.toNat = s.rem.toNat := by
    have := h.advanced_rem (by omega)
    omega
  exact Undisturbed.advance (s := s) (hsum ▸ h) rfl h.inputs h.raced (h.advanced_cur hlt)

theorem microStepCount_zero (k : Nat) : microStepCount k 0 = 0 := by simp [microStepCount]

/-- R149's count goes down by one with each micro-step's bytes (R142). -/
theorem microStepCount_rem (hpos : 0 < s.rem.toNat) :
    microStepCount s.params.chunk.toNat s.rem.toNat =
      microStepCount s.params.chunk.toNat (s.rem.toNat - runNBytes s) + 1 := by
  unfold microStepCount runNBytes
  by_cases hk : 2 ≤ s.params.chunk.toNat
  · by_cases hle : s.params.chunk.toNat ≤ s.rem.toNat
    · rw [if_pos hk, if_pos hk, if_pos ⟨hk, hle⟩, Nat.div_eq_sub_div (by omega) hle, Nat.mod_eq_sub_mod hle]
      omega
    · rw [if_pos hk, if_pos hk, if_neg fun h => hle h.2, Nat.div_eq_of_lt (by omega), Nat.div_eq_of_lt (by omega),
        Nat.mod_eq_of_lt (by omega), Nat.mod_eq_of_lt (by omega)]
      omega
  · rw [if_neg hk, if_neg hk, if_neg fun h => hk h.1]
    omega

/-- A HASH_N folds the REM bytes at CUR and completes, in R149's number of micro-steps: by induction on REM. -/
theorem run_of_runN (hp : s.phase = .runN) (hpos : 0 < s.rem.toNat) (h : Undisturbed s s.rem.toNat) :
    ∃ t : State, Host.Core.run Sys2Proof.core (microStepCount s.params.chunk.toNat s.rem.toNat) s = .next t ∧
      t.busy = false ∧ t.done = true ∧ Folds s (bytesAt s.mem s.cur.toNat s.rem.toNat) t := by
  induction hr : s.rem.toNat using Nat.strong_induction_on generalizing s with
  | _ r ih =>
    have hn := runNBytes_pos s
    have hle := runNBytes_le hpos
    have hrem := h.advanced_rem hpos
    have hread := folds_advanced (runNBytes s) h.raced
    have hstep := step_of_runN hp (h.mono hle)
    rw [← hr, microStepCount_rem hpos, run_succ hstep, ← hrem]
    rcases Nat.eq_or_lt_of_le hle with hlast | hleft
    · rw [if_pos (rem_eq_zero_iff.2 (by omega)), hrem, ← hlast, Nat.sub_self, microStepCount_zero]
      refine ⟨_, run_zero _, rfl, rfl, ?_⟩
      simpa only [List.append_nil] using hread.trans (folds_completeOperation h.raced)
    · rw [if_neg (rem_eq_zero_iff.not.2 (by omega))]
      have hpos' : 0 < (advanced (runNBytes s) s).rem.toNat := by omega
      obtain ⟨t, hrun, hb, hd, hf⟩ := ih (advanced (runNBytes s) s).rem.toNat (by omega)
        (s := drawTurns (advanced (runNBytes s) s)) hp hpos' (h.after_read hleft).drawTurns rfl
      refine ⟨t, hrun, hb, hd, ?_⟩
      have hall := hread.drawTurns.trans hf
      rw [drawTurns_mem, drawTurns_cur, h.advanced_cur hleft, advanced_mem, ← bytesAt_add, hrem,
        Nat.add_sub_cancel' hle] at hall
      exact hall

/-! HASH_Z. -/

/-- The state once a scan has folded the byte at CUR and moved on (R147). -/
def scannedOn (s : State) : State := { scanned s with cur := addrBits s.params (s.cur + 1) }

theorem step_of_runZ (hp : s.phase = .runZ) (h : Undisturbed s 1) :
    step s = .next (drawTurns (scanByte (readLane s s.cur.toNat 0) s)) := by
  rw [step_of_no_inputs h.inputs, microStep_of_runZ hp,
    runZMicroStep_eq (foldedZero_of_raced_nil h.raced) (touchesDevice_of_quiet h.quiet), h.memRead]
  rfl

theorem folds_scannedOn (hr : s.raced = []) : Folds s (bytesAt s.mem s.cur.toNat 1) (drawTurns (scannedOn s)) where
  operands := ⟨rfl, rfl, rfl, rfl, rfl, rfl⟩
  mem := rfl
  err := rfl
  acc := by rw [← readLanes_unraced (s := s) (by simp [hr]), readLanes_one]; rfl
  count := rfl

/-- A HASH_Z folds the n bytes at CUR before the terminator and completes in n + 1 micro-steps: by induction on n. -/
theorem run_of_runZ {n : Nat} (hp : s.phase = .runZ) (h : Undisturbed s (n + 1))
    (hnz : ∀ i, i < n → memByte s.mem (s.cur.toNat + i) ≠ 0) (hz : memByte s.mem (s.cur.toNat + n) = 0) :
    ∃ t : State, Host.Core.run Sys2Proof.core (n + 1) s = .next t ∧
      t.busy = false ∧ t.done = true ∧ Folds s (bytesAt s.mem s.cur.toNat n) t := by
  induction n generalizing s with
  | zero =>
    have hstep := step_of_runZ hp h
    rw [readLane_unraced (by simp [h.raced]), scanByte_zero s hz] at hstep
    exact ⟨_, run_succ hstep, rfl, rfl, folds_completeOperation h.raced⟩
  | succ n ih =>
    have hin := h.inside
    have hstep := step_of_runZ hp (h.mono (by omega))
    have hbyte : readLane s s.cur.toNat 0 ≠ 0 := by
      rw [readLane_unraced (by simp [h.raced])]
      exact hnz 0 (by omega)
    rw [scanByte_on hbyte (by omega)] at hstep
    have hcur : (drawTurns (scannedOn s)).cur.toNat = s.cur.toNat + 1 :=
      addrBits_add_toNat (n := 1) h.params (by omega)
    have hsum (i : Nat) : s.cur.toNat + 1 + i = s.cur.toNat + (i + 1) := by omega
    have hnz' (i : Nat) (hi : i < n) : memByte s.mem ((drawTurns (scannedOn s)).cur.toNat + i) ≠ 0 := by
      rw [hcur, hsum]
      exact hnz (i + 1) (by omega)
    have hrest : Undisturbed (drawTurns (scannedOn s)) (n + 1) :=
      Undisturbed.advance (s := s) (Nat.add_comm (n + 1) 1 ▸ h) rfl h.inputs h.raced hcur
    obtain ⟨t, hrun, hb, hd, hf⟩ := ih (s := drawTurns (scannedOn s)) hp hrest hnz' (by rw [hcur, hsum]; exact hz)
    refine ⟨t, (run_succ hstep).trans hrun, hb, hd, ?_⟩
    have hall := (folds_scannedOn h.raced).trans hf
    rw [hcur] at hall
    rw [Nat.add_comm n 1, bytesAt_add]
    exact hall

/-! From acceptance on. -/

theorem folds_startOperation (ph : Phase) (n : Word64) : Folds s [] (startOperation ph n s) :=
  .nil ⟨rfl, rfl, rfl, rfl, rfl, rfl⟩ rfl rfl rfl rfl

theorem folds_setDone : Folds s [] (setDone s) := .nil ⟨rfl, rfl, rfl, rfl, rfl, rfl⟩ rfl rfl rfl rfl

/-- Folding from the state in which the seed is loaded leaves the reference hash and the number of bytes (R110, R150). -/
theorem Folds.result {bs : List Byte} (h : Folds (loadSeed (clearOutcome s)) bs t) :
    t.err = false ∧ t.acc = fnv1a s.wsel s.psel bs ∧ t.count = BitVec.ofNat 64 bs.length ∧
      sameOperands s t ∧ sameMemory s t :=
  ⟨h.err, h.acc, h.count.trans (BitVec.zero_add _), h.operands, fun a => congrArg (memByte · a) h.mem⟩

/-! hash.bytes. -/

/-- An idle machine takes a command of the host program at its next step. -/
theorem step_of_expandCommand {i : Instr} {rest : List Input} (hb : s.busy = false)
    (hin : s.inputs = expandCommand s.params.base i ++ rest) : step s = exec i (taken s rest) := by
  have hnext : nextMove s (.access ⟨.write (encode i), s.params.base + 0x00, 4⟩) rest :=
    ⟨hin, by simp [sequencerTurn, hb]⟩
  rw [step_of_cmd_write hnext, writeCmd_cmd (decode_encode i)]

/-- The state once STEP b, the next command of the host program, has folded its byte. -/
def afterStep (b : Byte) (rest : List Input) (s : State) : State := setDone (foldByte (clearOutcome (taken s rest)) b)

theorem step_eq_afterStep {b : Byte} {rest : List Input} (hb : s.busy = false) (hp : s.psel ≠ .reserved)
    (hin : s.inputs = expandCommand s.params.base (.step b) ++ rest) : step s = .next (afterStep b rest s) :=
  (step_of_expandCommand hb hin).trans (exec_step_of_idle (s := taken s rest) hb hp b)

theorem folds_afterStep (he : s.err = false) (b : Byte) (rest : List Input) : Folds s [b] (afterStep b rest s) :=
  ⟨⟨rfl, rfl, rfl, rfl, rfl, rfl⟩, rfl, he.symm, rfl, rfl⟩

/-- STEPs fold their bytes one by one: by induction on the list. -/
theorem run_of_steps {bs : List Byte} (hb : s.busy = false) (hp : s.psel ≠ .reserved) (hd : s.done = true)
    (he : s.err = false) (hin : s.inputs = bs.flatMap fun b => expandCommand s.params.base (.step b)) :
    ∃ t : State, Host.Core.run Sys2Proof.core bs.length s = .next t ∧ t.inputs = [] ∧ t.done = true ∧ Folds s bs t := by
  induction bs generalizing s with
  | nil => exact ⟨s, run_zero s, hin, hd, .nil ⟨rfl, rfl, rfl, rfl, rfl, rfl⟩ rfl rfl rfl rfl⟩
  | cons b bs ih =>
    rw [List.flatMap_cons] at hin
    obtain ⟨t, hrun, hinputs, hdone, hf⟩ :=
      ih (s := afterStep b (bs.flatMap fun b => expandCommand s.params.base (.step b)) s) hb hp rfl rfl rfl
    exact ⟨t, (run_succ (step_eq_afterStep hb hp hin)).trans hrun, hinputs, hdone, (folds_afterStep he b _).trans hf⟩

end Sys2Proof.Machine
end

section
/-! The statements of 40_accumulation_core.md's family: the hash invariant, the step, INIT and STEP, what each command leaves unchanged, and the operations from acceptance to completion. -/

namespace Sys2Proof.Machine

/-- Settles O45: bytes read are taken into ACC, bytes written by the host are raced, and every other move leaves both or ends the operation. -/
theorem stepKeepsHashInv : Obligations.StepKeepsHashInv := by
  unfold Obligations.StepKeepsHashInv
  intro s t hi hh h
  exact (step_cases h).hashInv hi hh

/-- Settles O7: the step's one equation over both widths, at each width. -/
theorem stepIsXorThenMultiply : Obligations.StepIsXorThenMultiply := by
  unfold Obligations.StepIsXorThenMultiply
  exact fun p a b => ⟨stepHash_w32_toNat p a b, stepHash_w64_toNat p a b⟩

/-- Settles O11: STEP's words encode it; accepted, it raises BAD_CFG or folds its byte, whose ACC is the step's exact product. -/
theorem stepFoldsItsByte : Obligations.StepFoldsItsByte := by
  unfold Obligations.StepFoldsItsByte
  intro s b hb
  refine ⟨hostWrite_cmd (encode_step b ▸ decode_encode (.step b)), fun hp => ?reserved, fun hp =>
    ⟨_, exec_step_of_idle hb hp b, fun hw => ?acc32, fun hw => ?acc64, BitVec.toNat_add _ _, rfl⟩⟩
  case reserved =>
    rw [exec_step_of_reserved hb hp]
    simp [raiseError, clearOutcome]
  case acc32 =>
    rw [setDone_acc, foldByte_acc, clearOutcome_wsel, hw]
    exact stepHash_w32_toNat s.psel s.acc b
  case acc64 =>
    rw [setDone_acc, foldByte_acc, clearOutcome_wsel, hw]
    exact stepHash_w64_toNat s.psel s.acc b

/-- Settles O22: each part of the frame over the cases of a command's result. -/
theorem commandFrame : Obligations.CommandFrame := by
  unfold Obligations.CommandFrame
  intro i s t h
  have hr := exec_cases h
  exact ⟨hr.operands_eq, fun a => congrArg (memByte · a) hr.mem_eq, hr.world_eq, hr.busMark_eq, hr.sequencer_eq,
    hr.result_eq, hr.ovr_eq, hr.eq_dropWrite⟩

/-- Settles O53: HASH_N starts with the seed, its micro-steps fold the LEN bytes at PTR, and an empty one is done at acceptance. -/
theorem hashNComputesTheHash : Obligations.HashNComputesTheHash := by
  unfold Obligations.HashNComputesTheHash
  intro s hwf hb hin hp hr hadmit hquiet
  obtain ⟨u, hu, hres⟩ := exec_result .hashN s
  have hlen : BitVec.ofNat 64 (bytesAt s.mem s.ptr.toNat s.len.toNat).length = s.len := by
    rw [bytesAt_length, BitVec.ofNat_toNat, BitVec.setWidth_eq]
  suffices ∃ t : State, Host.Core.run Sys2Proof.core (microStepCount s.params.chunk.toNat s.len.toNat) u = .next t ∧
      t.busy = false ∧ t.done = true ∧
      Folds (loadSeed (clearOutcome s)) (bytesAt s.mem s.ptr.toNat s.len.toNat) t by
    obtain ⟨t, hrun, hidle, hdone, hf⟩ := this
    obtain ⟨herr, hacc, hcount, hops, hmem⟩ := hf.result
    exact ⟨u, t, hu, hrun, hidle, hdone, herr, hacc, hcount.trans hlen, hops, hmem⟩
  cases hres with
  | dropped hbusy => simp [hb] at hbusy
  | badCfg _ hp' => exact absurd hp' hp
  | range _ _ hr' => exact absurd hr (Nat.not_le.2 hr')
  | emptyN _ _ _ hl =>
    rw [rem_eq_zero_iff.1 hl, microStepCount_zero]
    exact ⟨_, run_zero _, hb, rfl, folds_setDone⟩
  | startN _ _ _ hl =>
    have hpos : 0 < s.len.toNat := Nat.pos_of_ne_zero (rem_eq_zero_iff.not.1 hl)
    obtain ⟨t, hrun, hidle, hdone, hf⟩ :=
      run_of_runN (s := startOperation .runN s.len (loadSeed (clearOutcome s))) rfl hpos
        ⟨hwf, hin, rfl, hr, hadmit, hquiet⟩
    exact ⟨t, hrun, hidle, hdone, (folds_startOperation _ _).trans hf⟩

/-- Settles O54: HASH_Z starts with the seed, its micro-steps fold the n bytes at PTR and end at the terminator. -/
theorem hashZComputesTheHash : Obligations.HashZComputesTheHash := by
  unfold Obligations.HashZComputesTheHash
  intro s n hwf hb hin hp hptr hr hadmit hquiet hnz hz
  obtain ⟨u, hu, hres⟩ := exec_result .hashZ s
  have h64 := two_pow_addrW_le hwf
  cases hres with
  | dropped hbusy => simp [hb] at hbusy
  | badCfg _ hp' => exact absurd hp' hp
  | nullPtr _ _ hn => exact absurd hn hptr
  | startZ =>
    obtain ⟨t, hrun, hidle, hdone, hf⟩ :=
      run_of_runZ (s := startOperation .runZ 0 (loadSeed (clearOutcome s))) rfl
        ⟨hwf, hin, rfl, hr, hadmit, hquiet⟩ hnz hz
    obtain ⟨herr, hacc, hcount, hops, hmem⟩ := ((folds_startOperation _ _).trans hf).result
    refine ⟨_, t, hu, hrun, hidle, hdone, herr, hacc, ?_, hops, hmem⟩
    rw [hcount, List.nil_append, bytesAt_length]
    exact toNat_ofNat_of_lt (by omega)

/-- Settles O59: INIT loads the seed, and the STEPs fold the bytes one by one. -/
theorem initThenStepsComputesTheHash : Obligations.InitThenStepsComputesTheHash := by
  unfold Obligations.InitThenStepsComputesTheHash
  intro s bs hb hp hin
  have hinit := (step_of_expandCommand hb hin).trans (exec_init_of_idle (s := taken s _) hb)
  obtain ⟨t, hrun, hinputs, hdone, hf⟩ := run_of_steps (bs := bs)
    (s := setDone (loadSeed (clearOutcome (taken s (bs.flatMap fun b => expandCommand s.params.base (.step b))))))
    hb hp rfl rfl rfl
  obtain ⟨herr, hacc, hcount, -, -⟩ := (folds_setDone.trans hf).result
  exact ⟨t, (run_succ hinit).trans hrun, hinputs, hdone, herr, hacc, hcount⟩

/-- Settles O6: the two muxes and the select's bits, by their tables. -/
theorem seedAndPrimeMuxes : Obligations.SeedAndPrimeMuxes := by
  unfold Obligations.SeedAndPrimeMuxes
  decide

/-- Settles O10: INIT's word runs INIT, which loads the seed of the width and sets DONE. -/
theorem initLoadsSeed : Obligations.InitLoadsSeed := by
  unfold Obligations.InitLoadsSeed
  intro s hb
  refine ⟨hostWrite_cmd decode_word_init, (exec_init_of_idle hb).trans ?_⟩
  cases hw : s.wsel <;> simp [setDone, loadSeed, clearOutcome, seed, hw]

end Sys2Proof.Machine
end

section
/-! The byte transforms (spec/41_byte_transform.md): what each policy makes of a byte, and the statements of the family. -/

namespace Sys2Proof.Machine

@[simp] theorem transform_identity (b : Byte) : transform .identity b = b := rfl

@[simp] theorem transform_foldCompat (b : Byte) : transform .foldCompat b = b + 0x20#8 := rfl

theorem transform_foldGuarded_of_upper {b : Byte} (h : 0x41#8 ≤ b ∧ b ≤ 0x5A#8) :
    transform .foldGuarded b = b + 0x20#8 := if_pos h

theorem transform_foldGuarded_of_not_upper {b : Byte} (h : ¬(0x41#8 ≤ b ∧ b ≤ 0x5A#8)) :
    transform .foldGuarded b = b := if_neg h

/-- FOLD_COMPAT wraps mod 256 (R122). -/
theorem transform_foldCompat_toNat (b : Byte) : (transform .foldCompat b).toNat = (b.toNat + 0x20) % 256 :=
  BitVec.toNat_add b 0x20#8

/-- The guard keeps b + 0x20 below 256, so FOLD_GUARDED never wraps (R123). -/
theorem transform_foldGuarded_toNat (b : Byte) :
    (transform .foldGuarded b).toNat =
      if 0x41 ≤ b.toNat ∧ b.toNat ≤ 0x5A then b.toNat + 0x20 else b.toNat := by
  split
  case isTrue h =>
    rw [transform_foldGuarded_of_upper h]
    exact (transform_foldCompat_toNat b).trans (Nat.mod_eq_of_lt (by omega))
  case isFalse h => rw [transform_foldGuarded_of_not_upper h]

/-- FOLD_COMPAT adds a nonzero offset, so it changes every byte (R126). -/
theorem transform_foldCompat_ne (b : Byte) : transform .foldCompat b ≠ b :=
  add_eq_left.not.2 (by decide : 0x20#8 ≠ 0)

/-- FOLD_COMPAT is the translation of the bytes by 0x20 (R126). -/
theorem transform_foldCompat_bijective : Function.Bijective (transform .foldCompat) :=
  AddGroup.addRight_bijective 0x20#8

/-- Settles O8: the value of each policy on a byte, the policy reset selects, and the PSEL codes. -/
theorem byteTransforms : Obligations.ByteTransforms := by
  unfold Obligations.ByteTransforms
  exact ⟨fun b => ⟨transform_identity b, transform_foldCompat_toNat b, transform_foldGuarded_toNat b⟩,
    applyReset_psel, rfl, rfl, rfl⟩

/-- Settles O9: both folds add 0x20 to a capital; on any other byte FOLD_COMPAT still does, and FOLD_GUARDED keeps it. -/
theorem caseFoldProperties : Obligations.CaseFoldProperties := by
  unfold Obligations.CaseFoldProperties
  refine ⟨fun b hA hZ => ?_, transform_foldCompat_ne, fun _ => transform_foldGuarded_of_not_upper,
    by decide, by decide, by decide, by decide, by decide, by decide, transform_foldCompat_bijective, ?_, ?_⟩
  · exact ⟨transform_foldCompat b, transform_foldGuarded_of_upper ⟨hA, hZ⟩, transform_identity _⟩
  · exact transform_foldGuarded_of_upper (by decide)
  · exact transform_foldGuarded_of_not_upper (by decide)

end Sys2Proof.Machine
end

section
/-! The buffer processor (spec/42_buffer_processor.md): what accepting HASH_N and HASH_Z answers, each outcome of a RUN_N and a RUN_Z micro-step by its conditions, the first zero byte of a scan, and what a micro-step leaves unchanged. -/

namespace Sys2Proof.Machine

variable {s t : State} {i : Instr} {m : Input} {p : Params} {a n k : Nat}

/-! Acceptance. -/

theorem exec_hashN_of_idle (hb : s.busy = false) :
    exec .hashN s = .next (
      if s.psel = .reserved then raiseError .acceptance .badCfg (clearOutcome s)
      else if 2 ^ s.params.addrW < s.ptr.toNat + s.len.toNat then raiseError .acceptance .range (clearOutcome s)
      else if s.len = 0 then setDone (loadSeed (clearOutcome s))
      else startOperation .runN s.len (loadSeed (clearOutcome s))) := by
  rw [exec, execHashN, acceptCommand_of_idle hb]
  rfl

theorem exec_hashZ_of_idle (hb : s.busy = false) :
    exec .hashZ s = .next (
      if s.psel = .reserved then raiseError .acceptance .badCfg (clearOutcome s)
      else if s.ptr = 0 then raiseError .acceptance .nullPtr (clearOutcome s)
      else startOperation .runZ 0 (loadSeed (clearOutcome s))) := by
  rw [exec, execHashZ, acceptCommand_of_idle hb]
  rfl

/-- An error at acceptance changes DONE, ERR and ECODE only; BUS, which would leave the mark, is none (R206, R207). -/
theorem raiseAccept_clearOutcome {c : ErrCode} (hc : c ≠ .bus) :
    raiseError .acceptance c (clearOutcome s) = { s with done := false, err := true, ecode := c } := by
  simp [raiseError, clearOutcome, hc]

/-! Ranges of bytes. -/

theorem forall_offset_lt_add_iff {P : Nat → Prop} :
    (∀ i, i < n + k → P (a + i)) ↔ (∀ i, i < n → P (a + i)) ∧ ∀ i, i < k → P (a + n + i) := by
  refine ⟨fun h => ⟨fun i hi => h i (by omega), fun i hi => ?_⟩, fun ⟨hn, hk⟩ i hi => ?_⟩
  · rw [Nat.add_assoc]
    exact h (n + i) (by omega)
  · by_cases hin : i < n
    · exact hn i hin
    · have := hk (i - n) (by omega)
      rwa [show a + n + (i - n) = a + i by omega] at this

theorem admitsRange_add : admitsRange p a (n + k) ↔ admitsRange p a n ∧ admitsRange p (a + n) k :=
  forall_offset_lt_add_iff (P := fun x => admits p x = true)

theorem quietRange_add : quietRange p a (n + k) ↔ quietRange p a n ∧ quietRange p (a + n) k :=
  forall_offset_lt_add_iff (P := fun x => p.devices.any (fun r => r.covers x) = false)

theorem admitsRange_one : admitsRange p a 1 ↔ admits p a = true :=
  ⟨fun h => h 0 Nat.one_pos, fun h i hi => by rwa [Nat.lt_one_iff.1 hi]⟩

theorem touchesDevice_of_not_quiet (h : ¬ quietRange p a n) : touchesDevice p a n = true := by
  by_contra hd
  refine h fun i hi => ?_
  simp only [touchesDevice, Bool.not_eq_true, List.any_eq_false, List.mem_range] at hd
  simpa using hd i hi

theorem eq_readLanes_of_memRead {bytes : List Byte} (h : memRead s a n = some bytes) : bytes = readLanes s a n := by
  rcases memRead_cases s a n with hm | ⟨hm, -, -⟩
  · simp [hm] at h
  · exact Option.some.inj (h.symm.trans hm)

/-! The RUN_N micro-step (R142-R145). -/

section RunN

variable (hp : s.phase = .runN)
include hp

theorem microStep_runN_refused (hq : ¬ quietRange s.params s.cur.toNat (runNBytes s)) :
    microStep s = .refused .sideEffectingRead := by
  rw [microStep_of_runN hp, readAndFold_device (touchesDevice_of_not_quiet hq), afterMicroStep]

variable (hq : quietRange s.params s.cur.toNat (runNBytes s))
include hq

theorem microStep_runN_bus (hm : memRead s s.cur.toNat (runNBytes s) = none) :
    microStep s = .next (drawTurns (raiseError .microStep .bus s)) := by
  rw [microStep_of_runN hp, readAndFold_eq (touchesDevice_of_quiet hq), hm]
  rfl

theorem microStep_runN_read {bytes : List Byte} (hm : memRead s s.cur.toNat (runNBytes s) = some bytes) :
    microStep s = .next (drawTurns (
      if (advanced (runNBytes s) s).rem = 0 then completeOperation (advanced (runNBytes s) s)
      else advanced (runNBytes s) s)) := by
  rw [microStep_of_runN hp, readAndFold_eq (touchesDevice_of_quiet hq), hm]
  rfl

end RunN

/-- At completion COUNT is LEN, also where a byte was written while borrowed (R71, R145). -/
theorem count_completed_runN (hi : Inv s) (hp : s.phase = .runN) (hn : runNBytes s = s.rem.toNat) :
    (completeOperation (advanced (runNBytes s) s)).count = s.len := by
  obtain ⟨-, hle, hsum, -, hc⟩ := hi.runN hp
  rw [completeOperation_count, settleRaces_count_eq (by simp [hp])]
  refine BitVec.eq_of_toNat_eq ?_
  rw [advanced_count_toNat hi hp]
  omega

/-! The RUN_Z micro-step (R147, R148). -/

section RunZ

variable (hp : s.phase = .runZ) (hz : foldedZero s = false)
include hp hz

theorem microStep_runZ_refused (hq : ¬ quietRange s.params s.cur.toNat 1) :
    microStep s = .refused .sideEffectingRead := by
  rw [microStep_of_runZ hp, runZMicroStep_device hz (touchesDevice_of_not_quiet hq), afterMicroStep]

variable (hq : quietRange s.params s.cur.toNat 1)
include hq

theorem microStep_runZ_bus (ha : admits s.params s.cur.toNat = false) :
    microStep s = .next (drawTurns (raiseError .microStep .bus s)) := by
  have hm : memRead s s.cur.toNat 1 = none := memRead_unadmitted (i := 0) Nat.one_pos ha
  rw [microStep_of_runZ hp, runZMicroStep_eq hz (touchesDevice_of_quiet hq), hm]
  rfl

theorem microStep_runZ_read (hin : s.cur.toNat < 2 ^ s.params.addrW) (ha : admits s.params s.cur.toNat = true) :
    microStep s = .next (drawTurns (scanByte (readLane s s.cur.toNat 0) s)) := by
  rw [microStep_of_runZ hp, runZMicroStep_eq hz (touchesDevice_of_quiet hq),
    memRead_of_admits hin (admitsRange_one.2 ha)]
  rfl

end RunZ

/-! The first zero byte. -/

theorem readLanes_takeWhile_of_zero (h0 : readLane s a n = 0) (hnz : ∀ i, i < n → readLane s a i ≠ 0) (k : Nat) :
    (readLanes s a (n + (1 + k))).takeWhile (· != 0) = readLanes s a n := by
  have hpos : ∀ b ∈ readLanes s a n, (b != 0) = true := by
    intro b hb
    obtain ⟨i, hi, rfl⟩ := List.mem_map.1 hb
    simpa using hnz i (List.mem_range.1 hi)
  rw [readLanes_add, List.takeWhile_append_of_pos hpos, readLanes_add, readLanes_one]
  have h0 : readLane s (a + n) 0 = 0 := h0
  simp [h0]

/-- Lanes of which one is 0 have a first 0, and the lanes before it are those a scan folds (R127, R147). -/
theorem exists_first_zero (h : ∃ i, i < k ∧ readLane s a i = 0) :
    ∃ n, n < k ∧ readLane s a n = 0 ∧ (∀ i, i < n → readLane s a i ≠ 0) ∧
      (readLanes s a k).takeWhile (· != 0) = readLanes s a n := by
  have hfirst := Nat.find_spec h
  have hnz : ∀ i, i < Nat.find h → readLane s a i ≠ 0 := fun i hi h0 =>
    Nat.find_min h hi ⟨hi.trans hfirst.1, h0⟩
  refine ⟨Nat.find h, hfirst.1, hfirst.2, hnz, ?_⟩
  have htake := readLanes_takeWhile_of_zero hfirst.2 hnz (k - Nat.find h - 1)
  rwa [show Nat.find h + (1 + (k - Nat.find h - 1)) = k by omega] at htake

/-- A scan that a raced byte has ended leaves the hash and the number of the lanes before its first 0 (R71, R127). -/
theorem completeOperation_of_scanEnded (hi : Inv s) (hp : s.phase = .runZ) (h : scanEnded s) :
    ∃ n, n < s.cur.toNat - s.ptr.toNat ∧ readLane s s.ptr.toNat n = 0 ∧
      (∀ i, i < n → readLane s s.ptr.toNat i ≠ 0) ∧ (completeOperation s).count.toNat = n ∧
      (completeOperation s).acc = fnv1a s.wsel s.psel (readLanes s s.ptr.toNat n) := by
  obtain ⟨-, -, -, hc⟩ := hi.runZ hp
  obtain ⟨n, hlt, h0, hnz, htake⟩ := exists_first_zero h.2
  have hz := (foldedZero_iff hi hp).2 h
  have hraced : foldedByteRaced s = true := by
    rw [foldedZero, Bool.and_eq_true] at hz
    exact hz.1
  have hlanes : settledLanes s = readLanes s s.ptr.toNat n := by
    rw [settledLanes, if_pos hp, foldedLanes, hc, htake]
  refine ⟨n, hlt, h0, hnz, ?_, ?_⟩
  · rw [completeOperation_count, settleRaces, if_pos hraced, hlanes, readLanes_length]
    exact toNat_ofNat_of_lt (by omega)
  · rw [completeOperation_acc, settleRaces, if_pos hraced, hlanes]

/-! Completion in any interleaving. -/

/-- DONE appears with the end of the operation (R45). -/
theorem MicroResult.idle_of_done (hi : Inv s) (hb : s.busy = true) (h : MicroResult s t) (ht : t.done = true) :
    t.busy = false := by
  have hdone := (hi.busyClear hb).1
  cases h with
  | complete | cut | terminator => rfl
  | bus | top => simp at ht
  | idle | advance | scan => simp_all

/-- A scan completes at a byte from PTR up to CUR that was read as 0. -/
theorem MicroResult.exists_zero_of_done (hi : Inv s) (hp : s.phase = .runZ) (h : MicroResult s t)
    (ht : t.done = true) : ∃ i, i < s.cur.toNat - s.ptr.toNat + 1 ∧ readLane s s.ptr.toNat i = 0 := by
  have hdone := (hi.busyClear (by simp [busy_iff, hp])).1
  obtain ⟨-, -, hle, -⟩ := hi.runZ hp
  cases h with
  | cut _ hz =>
    obtain ⟨-, i, hlt, h0⟩ := (foldedZero_iff hi hp).1 hz
    exact ⟨i, by omega, h0⟩
  | terminator _ _ _ h0 =>
    refine ⟨s.cur.toNat - s.ptr.toNat, Nat.lt_succ_self _, ?_⟩
    simpa only [readLane, Nat.add_sub_cancel' hle, Nat.add_zero] using h0
  | _ => simp_all

/-! Frames. -/

theorem MicroResult.world_eq (h : MicroResult s t) : sameWorld s t := by
  cases h <;> simp [sameWorld]

/-- Only BUS leaves the mark (R206, R207). -/
theorem MicroResult.busMark_eq (h : MicroResult s t) (he : t.ecode ≠ .bus) : t.busMark = s.busMark := by
  cases h with
  | bus => simp at he
  | _ => simp

/-- A micro-step that leaves ERR = 0 raised no error, so that it left ECODE (R207). -/
theorem MicroResult.ecode_eq (h : MicroResult s t) (he : t.err = false) : s.err = false ∧ t.ecode = s.ecode := by
  cases h with
  | bus | top => simp at he
  | _ => simp_all

theorem ExecResult.ecode_eq_none (h : ExecResult s i t) (hb : s.busy = false) (hi : i ≠ .nop) (he : t.err = false) :
    t.ecode = .none := by
  cases h with
  | dropped hbusy => simp [hb] at hbusy
  | nop => exact absurd rfl hi
  | badCfg | range | nullPtr => simp at he
  | clr | init | step | emptyN | startN | startZ => simp

/-! The host's turns (R239). -/

/-- While an operation runs no host move draws turns: a command is dropped. -/
theorem HostResult.turns_eq (h : HostResult s m t) (hb : s.busy = true) : t.turns = s.turns := by
  cases h with
  | command _ he => rw [he.eq_dropWrite hb, dropWrite_turns]
  | _ => simp

theorem step_of_sequencerTurn (h : sequencerTurn s = true) : step s = microStep s := by
  unfold step stepOnce
  split
  · rfl
  · rw [if_pos h]

end Sys2Proof.Machine
end

section
/-! How an operation ends when the host makes no move (R152): each micro-step reads on, ends it, or is refused. -/

namespace Sys2Proof.Machine

variable {s t u : State} {k n : Nat}

theorem run_refused (h : step s = .refused .sideEffectingRead) (k : Nat) :
    Host.Core.run Sys2Proof.core (k + 1) s = .refused Refusal.sideEffectingRead := by
  have hcore : Sys2Proof.core.step s = .refused Refusal.sideEffectingRead := h
  simp only [Host.Core.run, hcore]

theorem exists_step_of_run_succ (h : Host.Core.run Sys2Proof.core (k + 1) s = .next t) :
    ∃ u, step s = .next u ∧ Host.Core.run Sys2Proof.core k u = .next t := by
  simp only [Host.Core.run] at h
  split at h
  case h_1 u hstep => exact ⟨u, hstep, h⟩
  all_goals cases h

/-! What a run of the sequencer alone keeps. -/

/-- What micro-steps keep of the fields STATUS shows: the enable, OVR, and ECODE where no error was raised. -/
structure KeepsStatus (s t : State) : Prop where
  inputs : t.inputs = s.inputs
  ie : t.ie = s.ie
  ovr : t.ovr = s.ovr
  ecode : t.err = false → s.err = false ∧ t.ecode = s.ecode

theorem MicroResult.keepsStatus (h : MicroResult s t) : KeepsStatus s t where
  inputs := h.world_eq.1
  ie := by
    obtain ⟨-, -, -, hie, -, -⟩ := h.operands_eq
    exact hie
  ovr := h.ovr_eq
  ecode := h.ecode_eq

theorem KeepsStatus.trans (h : KeepsStatus s t) (h' : KeepsStatus t u) : KeepsStatus s u where
  inputs := h'.inputs.trans h.inputs
  ie := h'.ie.trans h.ie
  ovr := h'.ovr.trans h.ovr
  ecode := fun he =>
    have ht := h'.ecode he
    ⟨(h.ecode ht.1).1, ht.2.trans (h.ecode ht.1).2⟩

/-- With no host move to come a run is micro-steps: by induction on their number. -/
theorem keepsStatus_of_run (hin : s.inputs = []) (h : Host.Core.run Sys2Proof.core k s = .next t) :
    KeepsStatus s t := by
  induction k generalizing s with
  | zero =>
    obtain rfl : s = t := Host.Outcome.next.inj h
    exact ⟨rfl, rfl, rfl, fun he => ⟨he, rfl⟩⟩
  | succ k ih =>
    obtain ⟨u, hstep, hrun⟩ := exists_step_of_run_succ h
    rw [step_of_no_inputs hin] at hstep
    have hu := (microStep_cases hstep).keepsStatus
    exact hu.trans (ih (hu.inputs.trans hin) hrun)

/-! Ends of an operation. -/

/-- The operation ended with DONE (R45). -/
def Completed (t : State) : Prop := t.done = true ∧ t.err = false

/-- The operation ended with the BUS error, which leaves the mark (R206, R207). -/
def FailedWithBus (t : State) : Prop := t.done = false ∧ t.err = true ∧ t.ecode = .bus ∧ t.busMark = true

theorem failedWithBus_raise (s : State) : FailedWithBus (drawTurns (raiseError .microStep .bus s)) :=
  ⟨rfl, rfl, rfl, by simp⟩

/-- Within n micro-steps the operation ends as `ends` says, or a read is refused, which only happens where `refusable` holds. -/
def EndsWithin (s : State) (n : Nat) (refusable : Prop) (ends : State → Prop) : Prop :=
  ∃ k, k ≤ n ∧ ((refusable ∧ Host.Core.run Sys2Proof.core k s = .refused Refusal.sideEffectingRead) ∨
    ∃ t, Host.Core.run Sys2Proof.core k s = .next t ∧ t.busy = false ∧ ends t)

section EndsWithin

variable {refusable refusable' : Prop} {ends ends' : State → Prop}

theorem EndsWithin.of_refused (h : step s = .refused .sideEffectingRead) (hn : 0 < n) (hr : refusable) :
    EndsWithin s n refusable ends := ⟨1, hn, .inl ⟨hr, run_refused h 0⟩⟩

theorem EndsWithin.of_idle (hb : s.busy = false) (he : ends s) : EndsWithin s n refusable ends :=
  ⟨0, Nat.zero_le n, .inr ⟨s, run_zero s, hb, he⟩⟩

theorem EndsWithin.of_last (h : step s = .next t) (hn : 0 < n) (hb : t.busy = false) (he : ends t) :
    EndsWithin s n refusable ends := ⟨1, hn, .inr ⟨t, run_succ h, hb, he⟩⟩

theorem EndsWithin.of_step (h : step s = .next u) (hu : EndsWithin u k refusable ends) (hn : k < n)
    (hr : refusable → refusable') (he : ∀ t, ends t → ends' t) : EndsWithin s n refusable' ends' := by
  obtain ⟨j, hj, ⟨href, hrun⟩ | ⟨t, hrun, hb, ht⟩⟩ := hu
  · exact ⟨j + 1, by omega, .inl ⟨hr href, (run_succ h).trans hrun⟩⟩
  · exact ⟨j + 1, by omega, .inr ⟨t, (run_succ h).trans hrun, hb, he t ht⟩⟩

theorem EndsWithin.of_not_refusable (h : EndsWithin s n refusable ends) (hr : ¬ refusable) :
    ∃ t k, k ≤ n ∧ Host.Core.run Sys2Proof.core k s = .next t ∧ t.busy = false ∧ ends t := by
  obtain ⟨k, hk, ⟨href, -⟩ | ⟨t, ht⟩⟩ := h
  · exact absurd href hr
  · exact ⟨t, k, hk, ht⟩

end EndsWithin

/-! HASH_N. -/

/-- A HASH_N runs by itself, its REM bytes inside the address space. -/
structure RunsN (s : State) : Prop where
  params : s.params.wf = true
  inputs : s.inputs = []
  phase : s.phase = .runN
  err : s.err = false
  pos : 0 < s.rem.toNat
  inside : s.cur.toNat + s.rem.toNat ≤ 2 ^ s.params.addrW

theorem RunsN.advanced_rem (h : RunsN s) : (advanced (runNBytes s) s).rem.toNat = s.rem.toNat - runNBytes s :=
  addrBits_sub_toNat (runNBytes_pos s) (runNBytes_le h.pos) (by have := h.inside; omega)

theorem RunsN.advanced_cur (h : RunsN s) (hlt : runNBytes s < s.rem.toNat) :
    (advanced (runNBytes s) s).cur.toNat = s.cur.toNat + runNBytes s :=
  addrBits_add_toNat h.params (by have := h.inside; omega)

theorem RunsN.advanced (h : RunsN s) (hlt : runNBytes s < s.rem.toNat) : RunsN (drawTurns (advanced (runNBytes s) s)) :=
  { h with
    pos := by rw [drawTurns_rem, h.advanced_rem]; omega
    inside := by
      have := h.inside
      rw [drawTurns_cur, drawTurns_rem, h.advanced_cur hlt, h.advanced_rem, drawTurns_params, advanced_params]
      omega }

/-- How a HASH_N of n bytes at a ends: completed if every byte is read and admitted, else failed with BUS (R144, R145). -/
def EndsN (p : Params) (a n : Nat) (t : State) : Prop :=
  (quietRange p a n ∧ admitsRange p a n ∧ Completed t) ∨ (¬ admitsRange p a n ∧ FailedWithBus t)

/-- A HASH_N ends within REM micro-steps: by induction on REM, which each micro-step that goes on lowers. -/
theorem RunsN.endsWithin (h : RunsN s) :
    EndsWithin s s.rem.toNat (¬ quietRange s.params s.cur.toNat s.rem.toNat)
      (EndsN s.params s.cur.toNat s.rem.toNat) := by
  induction hr : s.rem.toNat using Nat.strong_induction_on generalizing s with
  | _ r ih =>
    subst hr
    have hle := runNBytes_le h.pos
    have hsum : s.rem.toNat = runNBytes s + (s.rem.toNat - runNBytes s) := by omega
    have hstep := step_of_no_inputs h.inputs
    by_cases hq : quietRange s.params s.cur.toNat (runNBytes s)
    case neg =>
      refine .of_refused (hstep.trans (microStep_runN_refused h.phase hq)) h.pos fun hall => hq ?_
      rw [hsum] at hall
      exact (quietRange_add.1 hall).1
    by_cases ha : admitsRange s.params s.cur.toNat (runNBytes s)
    case neg =>
      have hnone : memRead s s.cur.toNat (runNBytes s) = none :=
        (memRead_cases s _ _).resolve_right fun hm => ha hm.2.2
      refine .of_last (hstep.trans (microStep_runN_bus h.phase hq hnone)) h.pos rfl
        (.inr ⟨fun hall => ha ?_, failedWithBus_raise s⟩)
      rw [hsum] at hall
      exact (admitsRange_add.1 hall).1
    have hread := microStep_runN_read h.phase hq (memRead_of_admits (by have := h.inside; omega) ha)
    have hrem := h.advanced_rem
    rcases Nat.eq_or_lt_of_le hle with hlast | hlt
    · rw [if_pos (rem_eq_zero_iff.2 (by omega))] at hread
      exact .of_last (hstep.trans hread) h.pos rfl
        (.inl ⟨hlast ▸ hq, hlast ▸ ha, rfl, (completeOperation_err _).trans h.err⟩)
    · rw [if_neg (rem_eq_zero_iff.not.2 (by omega))] at hread
      have hpos := runNBytes_pos s
      have hrest := ih _ (by rw [drawTurns_rem, hrem]; omega) (h.advanced hlt) rfl
      rw [drawTurns_rem, drawTurns_cur, drawTurns_params, advanced_params, hrem, h.advanced_cur hlt] at hrest
      refine .of_step (hstep.trans hread) hrest (by omega) ?_ fun t ht => ?_
      · intro hnq hall
        rw [hsum] at hall
        exact hnq (quietRange_add.1 hall).2
      · rw [EndsN, hsum, quietRange_add, admitsRange_add]
        rcases ht with ⟨hq', ha', hc⟩ | ⟨hna, hf⟩
        · exact .inl ⟨⟨hq, hq'⟩, ⟨ha, ha'⟩, hc⟩
        · exact .inr ⟨fun hall => hna hall.2, hf⟩

/-- A HASH_N that passes its checks ends within LEN micro-steps; an empty one at acceptance (R141). -/
theorem exec_hashN_endsWithin (hw : s.params.wf = true) (hb : s.busy = false) (hin : s.inputs = [])
    (hp : s.psel ≠ .reserved) (hr : s.ptr.toNat + s.len.toNat ≤ 2 ^ s.params.addrW) :
    ∃ u, exec .hashN s = .next u ∧
      EndsWithin u s.len.toNat (¬ quietRange s.params s.ptr.toNat s.len.toNat)
        (EndsN s.params s.ptr.toNat s.len.toNat) := by
  refine ⟨_, exec_hashN_of_idle hb, ?_⟩
  rw [if_neg hp, if_neg (Nat.not_lt.2 hr)]
  by_cases hl : s.len = 0
  · rw [if_pos hl, rem_eq_zero_iff.1 hl]
    exact .of_idle hb (.inl ⟨nofun, nofun, rfl, rfl⟩)
  · rw [if_neg hl]
    have hstart : RunsN (startOperation .runN s.len (loadSeed (clearOutcome s))) :=
      ⟨hw, hin, rfl, rfl, Nat.pos_of_ne_zero (rem_eq_zero_iff.not.1 hl), hr⟩
    exact hstart.endsWithin

/-! HASH_Z. -/

/-- A HASH_Z runs by itself, none of its bytes raced. -/
structure RunsZ (s : State) : Prop where
  params : s.params.wf = true
  inputs : s.inputs = []
  phase : s.phase = .runZ
  err : s.err = false
  raced : s.raced = []
  inside : s.cur.toNat < 2 ^ s.params.addrW

theorem RunsZ.scannedOn_cur (h : RunsZ s) (hc : s.cur.toNat ≠ 2 ^ s.params.addrW - 1) :
    (drawTurns (scannedOn s)).cur.toNat = s.cur.toNat + 1 :=
  addrBits_add_toNat (n := 1) h.params (by have := h.inside; omega)

theorem RunsZ.scannedOn (h : RunsZ s) : RunsZ (drawTurns (scannedOn s)) :=
  { h with inside := addrBits_lt s.params (s.cur + 1) }

/-- How a HASH_Z with n bytes up to the top at a ends: at a terminator, with BUS, or with RANGE once every byte is read (R147, R148). -/
def EndsZ (p : Params) (a n : Nat) (t : State) : Prop :=
  Completed t ∨ FailedWithBus t ∨ (quietRange p a n ∧ t.err = true ∧ t.ecode = .range)

/-- A HASH_Z ends within 2^ADDR_W - CUR micro-steps: by induction on them, since CUR moves up by one. -/
theorem RunsZ.endsWithin (h : RunsZ s) (hn : 2 ^ s.params.addrW - s.cur.toNat = n) :
    EndsWithin s n (¬ quietRange s.params s.cur.toNat n) (EndsZ s.params s.cur.toNat n) := by
  induction n generalizing s with
  | zero => have := h.inside; omega
  | succ n ih =>
    have hstep := step_of_no_inputs h.inputs
    have hz := foldedZero_of_raced_nil h.raced
    rw [Nat.add_comm n 1] at hn ⊢
    by_cases hq : quietRange s.params s.cur.toNat 1
    case neg =>
      exact .of_refused (hstep.trans (microStep_runZ_refused h.phase hz hq)) (by omega)
        fun hall => hq (quietRange_add.1 hall).1
    cases ha : admits s.params s.cur.toNat with
    | false =>
      exact .of_last (hstep.trans (microStep_runZ_bus h.phase hz hq ha)) (by omega) rfl
        (.inr (.inl (failedWithBus_raise s)))
    | true =>
      have hread := hstep.trans (microStep_runZ_read h.phase hz hq h.inside ha)
      by_cases hb : readLane s s.cur.toNat 0 = 0
      · rw [scanByte_zero s hb] at hread
        exact .of_last hread (by omega) rfl (.inl ⟨rfl, (completeOperation_err s).trans h.err⟩)
      by_cases hc : s.cur.toNat = 2 ^ s.params.addrW - 1
      · obtain rfl : n = 0 := by have := h.inside; omega
        rw [scanByte_top hb hc] at hread
        exact .of_last hread (by omega) rfl (.inr (.inr ⟨hq, rfl, rfl⟩))
      · rw [scanByte_on hb hc] at hread
        have hcur := h.scannedOn_cur hc
        have hleft : 2 ^ s.params.addrW - (s.cur.toNat + 1) = n := by omega
        have hrest := ih h.scannedOn (hcur ▸ hleft)
        rw [hcur] at hrest
        refine .of_step hread hrest (by omega) (fun hnq hall => hnq (quietRange_add.1 hall).2) fun t ht => ?_
        rcases ht with hc | hf | ⟨hq', hrange⟩
        · exact .inl hc
        · exact .inr (.inl hf)
        · exact .inr (.inr ⟨quietRange_add.2 ⟨hq, hq'⟩, hrange⟩)

/-- A HASH_Z that passes its checks ends within 2^ADDR_W - PTR micro-steps (R152). -/
theorem exec_hashZ_endsWithin (hw : s.params.wf = true) (hb : s.busy = false) (hin : s.inputs = [])
    (hp : s.psel ≠ .reserved) (h0 : s.ptr ≠ 0) (hr : s.ptr.toNat < 2 ^ s.params.addrW) :
    ∃ u, exec .hashZ s = .next u ∧
      EndsWithin u (2 ^ s.params.addrW - s.ptr.toNat)
        (¬ quietRange s.params s.ptr.toNat (2 ^ s.params.addrW - s.ptr.toNat))
        (EndsZ s.params s.ptr.toNat (2 ^ s.params.addrW - s.ptr.toNat)) := by
  refine ⟨_, exec_hashZ_of_idle hb, ?_⟩
  rw [if_neg hp, if_neg h0]
  have hstart : RunsZ (startOperation .runZ 0 (loadSeed (clearOutcome s))) := ⟨hw, hin, rfl, rfl, rfl, hr⟩
  exact hstart.endsWithin rfl

/-! STATUS at the end of a HASH_N. -/

theorem statusWord_congr (hie : t.ie = s.ie) (hd : t.done = s.done) (he : t.err = s.err) (ho : t.ovr = s.ovr)
    (hc : t.ecode = s.ecode) (hb : t.busy = s.busy) : statusWord t = statusWord s := by
  simp only [statusWord, State.irq, hie, hd, he, ho, hc, hb]

/-- A HASH_N's run that ends with no error or with BUS leaves in STATUS its DONE and ERR; IE and OVR are as before (R30, R34). -/
theorem statusWord_of_hashN_run (hu : exec .hashN s = .next u) (hrun : Host.Core.run Sys2Proof.core k u = .next t)
    (hb : s.busy = false) (hin : s.inputs = []) (hidle : t.busy = false) {d e : Bool} (hd : t.done = d) (he : t.err = e)
    (hbus : e = true → t.ecode = .bus) :
    statusWord t = statusWord { s with done := d, err := e, ecode := if e then .bus else .none } := by
  have hres := exec_cases hu
  obtain ⟨-, -, -, hie, -, -⟩ := hres.operands_eq
  have hkeep := keepsStatus_of_run (hres.world_eq.1.trans hin) hrun
  have hcode : t.ecode = if e then .bus else .none := by
    cases e with
    | true => exact hbus rfl
    | false =>
      obtain ⟨heu, hcode⟩ := hkeep.ecode he
      exact hcode.trans (hres.ecode_eq_none hb nofun heu)
  exact statusWord_congr (hkeep.ie.trans hie) hd he (hkeep.ovr.trans (hres.ovr_eq hb nofun)) hcode (hidle.trans hb.symm)

end Sys2Proof.Machine
end

section
/-! The statements of 42_buffer_processor.md's family: acceptance of HASH_N and HASH_Z, the micro-steps, what completion leaves, and how operations end. -/

namespace Sys2Proof.Machine

/-- Settles O15: the acceptance of HASH_N, branch by branch. -/
theorem hashNAcceptance : Obligations.HashNAcceptance := by
  unfold Obligations.HashNAcceptance
  intro s hb
  rw [exec_hashN_of_idle hb]
  refine ⟨fun hp => ?badCfg, fun hp hr => ?range, fun hp hr hl => ?empty, fun hp hr hl => ?starts⟩
  case badCfg => exact congrArg _ ((if_pos hp).trans (raiseAccept_clearOutcome nofun))
  case range =>
    rw [if_neg hp, if_pos hr]
    exact congrArg _ (raiseAccept_clearOutcome nofun)
  case empty =>
    rw [if_neg hp, if_neg (Nat.not_lt.2 hr), if_pos hl]
    rfl
  case starts =>
    rw [if_neg hp, if_neg (Nat.not_lt.2 hr), if_neg hl]
    exact ⟨_, rfl, rfl, rfl⟩

/-- Settles O16: the acceptance of HASH_Z, branch by branch. -/
theorem hashZAcceptance : Obligations.HashZAcceptance := by
  unfold Obligations.HashZAcceptance
  intro s hb
  rw [exec_hashZ_of_idle hb]
  refine ⟨fun hp => ?badCfg, fun hp h0 => ?nullPtr, fun hp h0 => ?starts⟩
  case badCfg => exact congrArg _ ((if_pos hp).trans (raiseAccept_clearOutcome nofun))
  case nullPtr =>
    rw [if_neg hp, if_pos h0]
    exact congrArg _ (raiseAccept_clearOutcome nofun)
  case starts =>
    rw [if_neg hp, if_neg h0]
    exact ⟨_, rfl, rfl, rfl⟩

/-- Settles O23: each part of the frame over the cases of a micro-step's result. -/
theorem microStepFrame : Obligations.MicroStepFrame := by
  unfold Obligations.MicroStepFrame
  intro s t h
  have hr := microStep_cases h
  refine ⟨hr.operands_eq, fun a => congrArg (memByte · a) hr.mem_eq, hr.world_eq, hr.ovr_eq, hr.busMark_eq,
    fun hb => ?_⟩
  rw [microStep_of_idle ((not_busy_iff s).1 hb)] at h
  exact (Host.Outcome.next.inj h).symm

/-- Settles O49: the read is refused, fails, or advances CUR, REM and COUNT by its bytes, and with the last of them the operation completes. -/
theorem runNMicroStep_spec : Obligations.RunNMicroStep := by
  unfold Obligations.RunNMicroStep
  intro s n hi hp hn
  obtain rfl : n = runNBytes s := hn
  have hrem := advanced_rem_toNat hi hp
  refine ⟨runNBytes_le (hi.runN hp).1, microStep_runN_refused hp, fun hq hm => ?bus,
    fun bytes hq hm hlt => ?advance, fun bytes hq hm hlast => ?complete⟩
  case bus => exact ⟨_, microStep_runN_bus hp hq hm, rfl, failedWithBus_raise s⟩
  case advance =>
    have hread := microStep_runN_read hp hq hm
    rw [if_neg (rem_eq_zero_iff.not.2 (by omega))] at hread
    exact ⟨_, hread, hp, by rw [eq_readLanes_of_memRead hm]; rfl, advanced_count_toNat hi hp,
      advanced_cur_toNat hi hp hlt, hrem⟩
  case complete =>
    have hread := microStep_runN_read hp hq hm
    rw [if_pos (rem_eq_zero_iff.2 (by omega))] at hread
    have herr := (hi.busyClear (by simp [busy_iff, hp])).2.1
    refine ⟨_, hread, rfl, rfl, (completeOperation_err _).trans herr, count_completed_runN hi hp hlast, fun hr => ?_⟩
    rw [drawTurns_acc, completeOperation_acc, settleRaces_of_raced_nil (s := advanced (runNBytes s) s) hr,
      eq_readLanes_of_memRead hm, advanced_acc]

/-- Settles O50: a scan that has ended completes; else the byte at CUR is refused, fails, or is read, and what it is decides. -/
theorem runZMicroStep_spec : Obligations.RunZMicroStep := by
  unfold Obligations.RunZMicroStep
  intro s hi hp
  have herr := (hi.busyClear (by simp [busy_iff, hp])).2.1
  have hcompleted := (completeOperation_err s).trans herr
  have hz (h : ¬ scanEnded s) : foldedZero s = false := by
    rwa [← Bool.not_eq_true, foldedZero_iff hi hp]
  refine ⟨fun he => ?ended, fun he hq => microStep_runZ_refused hp (hz he) hq,
    fun he hq ha => ⟨_, microStep_runZ_bus hp (hz he) hq ha, rfl, failedWithBus_raise s⟩,
    fun he hq ha hb => ?terminator, fun he hq ha hb hc => ?top, fun he hq ha hb hc => ?goesOn⟩
  case ended =>
    exact ⟨_, microStep_cut hp ((foldedZero_iff hi hp).2 he), rfl, rfl, hcompleted,
      completeOperation_of_scanEnded hi hp he⟩
  case terminator =>
    have hread := microStep_runZ_read hp (hz he) hq hi.curBits ha
    rw [scanByte_zero s hb] at hread
    exact ⟨_, hread, rfl, rfl, hcompleted, settleRaces_count_eq fun _ => hz he,
      fun hr => (completeOperation_acc s).trans (congrArg State.acc (settleRaces_of_raced_nil hr))⟩
  case top =>
    have hread := microStep_runZ_read hp (hz he) hq hi.curBits ha
    rw [scanByte_top hb hc] at hread
    exact ⟨_, hread, rfl, rfl, rfl, rfl, by simp⟩
  case goesOn =>
    have hread := microStep_runZ_read hp (hz he) hq hi.curBits ha
    have hc : s.cur.toNat ≠ 2 ^ s.params.addrW - 1 := by omega
    rw [scanByte_on hb hc] at hread
    exact ⟨_, hread, hp, rfl, scanned_count_toNat hi hp, scan_cur_toNat hi hc⟩

/-- Settles O51: a completed operation leaves the hash of what its reads returned, and with no borrowed byte written those are the bytes in memory. -/
theorem completionLeavesTheHash : Obligations.CompletionLeavesTheHash := by
  unfold Obligations.CompletionLeavesTheHash
  refine ⟨fun s t hi hh hp hout h ht => ?hashN, fun s t hi hh hp hout h ht => ?hashZ⟩
  all_goals
    have hb : s.busy = true := by simp [busy_iff, hp]
    have hr := microStep_cases h
    refine ⟨hr.idle_of_done hi hb ht, ?_⟩
  case hashN =>
    rw [← readLanes_unraced hout]
    exact hr.runN_completed hi hh hp ht
  case hashZ =>
    obtain ⟨-, -, hle, -⟩ := hi.runZ hp
    obtain ⟨hacc, hcount⟩ := hr.runZ_completed hi hh hp ht
    obtain ⟨n, hn, h0, hnz, htake⟩ := exists_first_zero (hr.exists_zero_of_done hi hp ht)
    rw [htake] at hacc hcount
    rw [readLanes_length] at hcount
    rw [readLanes_unraced fun a ha => by have := hout a ha; omega] at hacc
    have hlane (i : Nat) (h : i ≤ n) : readLane s s.ptr.toNat i = memByte s.mem (s.ptr.toNat + i) :=
      readLane_unraced fun hmem => by have := hout _ hmem; omega
    exact ⟨n, hlane n le_rfl ▸ h0, fun i hi => hlane i hi.le ▸ hnz i hi, hcount, hacc⟩

/-- Settles O55: both entry points leave the reference hash of the LEN bytes at PTR, and count them. -/
theorem entryPointsAgree : Obligations.EntryPointsAgree := by
  unfold Obligations.EntryPointsAgree
  intro s hw hb hin hp h0 hr ha hq hnz hz
  obtain ⟨u, t, hu, hrun, hidle, hdone, -, hacc, hcount, -, -⟩ :=
    hashNComputesTheHash s hw hb hin hp (by omega) (admitsRange_add.1 ha).1 (quietRange_add.1 hq).1
  obtain ⟨v, t', hv, hrun', hidle', hdone', -, hacc', hcount', -, -⟩ :=
    hashZComputesTheHash s s.len.toNat hw hb hin hp h0 hr ha hq hnz hz
  exact ⟨u, v, t, t', _, _, hu, hv, hrun, hrun', hidle, hidle', hdone, hdone', hacc.trans hacc'.symm, hcount,
    BitVec.eq_of_toNat_eq hcount'⟩

/-- Settles O56: a HASH_N that passes its checks ends within LEN micro-steps as EndsN says, refused only at a side-effecting byte. -/
theorem hashNEnds : Obligations.HashNEnds := by
  unfold Obligations.HashNEnds
  intro s hw hb hin hp hr
  obtain ⟨u, hu, hends⟩ := exec_hashN_endsWithin hw hb hin hp hr
  refine ⟨fun hq => ?quiet, fun hnq => ?device⟩
  case quiet =>
    obtain ⟨t, k, hk, hrun, hidle, ht⟩ := hends.of_not_refusable (not_not.2 hq)
    refine ⟨u, t, k, hu, hk, hrun, hidle, ?_⟩
    rcases ht with ⟨-, ha, hc⟩ | ⟨hna, hf⟩
    · exact ⟨fun _ => hc, fun hna => absurd ha hna⟩
    · exact ⟨fun ha => absurd ha hna, fun _ => hf⟩
  case device =>
    obtain ⟨k, hk, ⟨-, hrun⟩ | ⟨t, hrun, hidle, ⟨hq, -, -⟩ | ⟨-, -, herr, hcode, -⟩⟩⟩ := hends
    · exact ⟨u, k, hu, hk, .inl hrun⟩
    · exact absurd hq hnq
    · exact ⟨u, k, hu, hk, .inr ⟨t, hrun, hidle, herr, hcode⟩⟩

/-- Settles O57: a HASH_Z that passes its checks ends within 2^ADDR_W - PTR micro-steps as EndsZ says, and RANGE means that every byte was read. -/
theorem hashZEnds : Obligations.HashZEnds := by
  unfold Obligations.HashZEnds
  intro s hw hb hin hp h0 hr
  obtain ⟨u, hu, hends⟩ := exec_hashZ_endsWithin hw hb hin hp h0 hr
  refine ⟨fun hq => ?quiet, fun hnq => ?device⟩
  case quiet =>
    obtain ⟨t, k, hk, hrun, hidle, ht⟩ := hends.of_not_refusable (not_not.2 hq)
    refine ⟨u, t, k, hu, hk, hrun, hidle, ?_⟩
    rcases ht with hc | ⟨-, herr, hcode, -⟩ | ⟨-, herr, hcode⟩
    · exact .inl hc
    · exact .inr ⟨herr, .inl hcode⟩
    · exact .inr ⟨herr, .inr hcode⟩
  case device =>
    obtain ⟨k, hk, ⟨-, hrun⟩ | ⟨t, hrun, hidle, hc | ⟨-, herr, hcode, -⟩ | ⟨hq, -⟩⟩⟩ := hends
    · exact ⟨u, k, hu, hk, .inl hrun⟩
    · exact ⟨u, k, hu, hk, .inr ⟨t, hrun, hidle, .inl hc⟩⟩
    · exact ⟨u, k, hu, hk, .inr ⟨t, hrun, hidle, .inr ⟨herr, hcode⟩⟩⟩
    · exact absurd hq hnq

/-- Settles O58: with every byte admitted both complete with the reference hash, else both fail with BUS, since CHUNK does not bear on which bytes are answered. -/
theorem chunkSizeIsInvisible : Obligations.ChunkSizeIsInvisible := by
  unfold Obligations.ChunkSizeIsInvisible
  intro s c hw hb hin hp hr hq
  by_cases ha : admitsRange s.params s.ptr.toNat s.len.toNat
  · obtain ⟨u, t, hu, hrun, hidle, hdone, herr, hacc, hcount, -, -⟩ := hashNComputesTheHash s hw hb hin hp hr ha hq
    obtain ⟨v, t', hv, hrun', hidle', hdone', herr', hacc', hcount', -, -⟩ :=
      hashNComputesTheHash { s with params := { s.params with chunk := c } } hw hb hin hp hr ha hq
    have hst := statusWord_of_hashN_run hu hrun hb hin hidle hdone herr nofun
    have hst' := statusWord_of_hashN_run hv hrun' hb hin hidle' hdone' herr' nofun
    exact ⟨u, v, t, t', _, _, hu, hv, hrun, hrun', hidle, hidle', hst.trans hst'.symm,
      fun _ => ⟨hacc.trans hacc'.symm, hcount.trans hcount'.symm⟩⟩
  · obtain ⟨u, t, j, hu, -, hrun, hidle, -, hfail⟩ := (hashNEnds s hw hb hin hp hr).1 hq
    obtain ⟨v, t', k, hv, -, hrun', hidle', -, hfail'⟩ :=
      (hashNEnds { s with params := { s.params with chunk := c } } hw hb hin hp hr).1 hq
    obtain ⟨hdone, herr, hcode, -⟩ := hfail ha
    obtain ⟨hdone', herr', hcode', -⟩ := hfail' ha
    have hst := statusWord_of_hashN_run hu hrun hb hin hidle hdone herr fun _ => hcode
    have hst' := statusWord_of_hashN_run hv hrun' hb hin hidle' hdone' herr' fun _ => hcode'
    exact ⟨u, v, t, t', j, k, hu, hv, hrun, hrun', hidle, hidle', hst.trans hst'.symm, fun h => by simp [hdone] at h⟩

/-- Settles O60: with no turn left or no host move to come the step is a micro-step; a host move uses its turn and draws none. -/
theorem sequencerIsNotStarved : Obligations.SequencerIsNotStarved := by
  unfold Obligations.SequencerIsNotStarved
  refine ⟨fun s hb hw => ?micro, fun s t hb hturns hin h => ?host⟩
  case micro =>
    rcases hw with h0 | hin
    · exact step_of_sequencerTurn (by simp [sequencerTurn, hb, h0])
    · exact step_of_no_inputs hin
  case host =>
    cases step_cases h with
    | micro hw => simp [sequencerTurn, hin, hturns.ne'] at hw
    | host _ _ hr => exact hr.turns_eq hb

end Sys2Proof.Machine
end

section
/-! The register window (spec/43_control.md): acceptance of a write to CMD, the fields that writes to CFG, PTR and LEN set, what a read returns, and which accesses reach a register. -/

namespace Sys2Proof.Machine

variable {s t : State} {i : Instr} {r : Reg}

/-! Commands. -/

/-- While BUSY a command is dropped (R172). -/
theorem exec_of_busy (hb : s.busy = true) (i : Instr) : exec i s = .next (dropWrite s) := by
  obtain ⟨t, ht, hr⟩ := exec_result i s
  rw [ht, hr.eq_dropWrite hb]

theorem exec_nop_of_idle (hb : s.busy = false) : exec .nop s = .next s := by
  simp [exec, execNop, hb]

theorem exec_clr_of_idle (hb : s.busy = false) : exec .clr s = .next (clearOvr (clearOutcome s)) := by
  rw [exec, execClr, acceptCommand_of_idle hb]

/-- Every command but NOP acts through acceptance (R172). -/
theorem exists_exec_eq_acceptCommand (hi : i ≠ .nop) : ∃ f, ∀ s, exec i s = .next (acceptCommand f s) := by
  cases i with
  | nop => exact absurd rfl hi
  | init | step | hashN | hashZ | clr => exact ⟨_, fun _ => rfl⟩

/-- Acceptance clears DONE, ERR and ECODE, so a command but NOP does not read them (R172). -/
theorem exec_clearOutcome (hb : s.busy = false) (hi : i ≠ .nop) : exec i (clearOutcome s) = exec i s := by
  obtain ⟨f, hf⟩ := exists_exec_eq_acceptCommand hi
  rw [hf, hf, acceptCommand_of_idle hb, acceptCommand_of_idle (s := clearOutcome s) hb]
  rfl

/-- Only a HASH_N of at least one byte and a HASH_Z set BUSY (R141, R146). -/
theorem ExecResult.hash_of_started (h : ExecResult s i t) (hb : s.busy = false) (ht : t.busy = true) :
    (i = .hashN ∧ s.len ≠ 0) ∨ i = .hashZ := by
  cases h with
  | startN _ _ _ hl => exact .inl ⟨rfl, hl⟩
  | startZ => exact .inr rfl
  | dropped | nop | clr | init | badCfg | step | range | emptyN | nullPtr => simp_all

/-- OP = 0 names NOP, whose word is 0: with any other bit set the word is illegal (R170). -/
theorem decode_of_op_zero {w : Word32} (hop : w.extractLsb' 0 4 = 0#4) (hw : w ≠ 0#32) : decode w = .illegal w := by
  refine (decode_cmd_or_illegal w).resolve_left ?_
  rintro ⟨i, hd⟩
  have hword := eq_encode_of_decode hd
  have hfields : i.fields.op = 0#4 := by rw [← ofWord_eq_fields_iff.2 hword]; exact hop
  cases i with
  | nop => exact hw hword
  | init | step | hashN | hashZ | clr => exact absurd hfields (by simp [Instr.fields])

/-! Fields of CFG. -/

theorem pselBits_pselOfBits (c : BitVec 2) : pselBits (pselOfBits c) = c := by
  revert c
  decide

theorem wselOfBit_eq_w64_iff {b : Bool} : wselOfBit b = .w64 ↔ b = true := by
  cases b <;> decide

theorem wselBit_wselOfBit (b : Bool) : wselBit (wselOfBit b) = BitVec.ofBool b := by
  cases b <;> rfl

/-- WSEL is writable with WIDTH_MODE = BOTH only (R26). -/
theorem writtenWsel_of_both (hm : s.params.widthMode = .both) (v : Word32) :
    writtenWsel s v = wselOfBit (v.getLsbD 0) := by
  simp [writtenWsel, hm]

theorem writtenWsel_of_hardwired (hm : s.params.widthMode ≠ .both) (v : Word32) : writtenWsel s v = s.wsel := by
  unfold writtenWsel
  split
  case h_1 hboth => exact absurd hboth hm
  case h_2 | h_3 => rfl

/-- CFG bits [31:4] read 0 (R29). -/
theorem cfgWord_high (s : State) : (cfgWord s).extractLsb' 4 28 = 0#28 := by
  unfold cfgWord
  iterate 2 rw [BitVec.extractLsb'_append_eq_of_le (by decide)]
  exact BitVec.extractLsb'_append_eq_left

theorem ofBool_getLsbD {w : Nat} (v : BitVec w) (n : Nat) : BitVec.ofBool (v.getLsbD n) = v.extractLsb' n 1 := by
  ext k hk
  obtain rfl : k = 0 := by omega
  simp

/-- The four low bits of a word, with the CFG word's zeros above them. -/
theorem and_low4_eq_append (v : Word32) :
    v &&& 0x0000000F#32 =
      0#28 ++ BitVec.ofBool (v.getLsbD 3) ++ v.extractLsb' 1 2 ++ BitVec.ofBool (v.getLsbD 0) := by
  have hzero : (0x0000000F#32).extractLsb' 4 28 = 0#28 := by decide
  have hie : (0x0000000F#32).extractLsb' 3 1 = BitVec.allOnes 1 := by decide
  have hpsel : (0x0000000F#32).extractLsb' 1 2 = BitVec.allOnes 2 := by decide
  have hwsel : (0x0000000F#32).extractLsb' 0 1 = BitVec.allOnes 1 := by decide
  have hparts (u : Word32) :
      u = u.extractLsb' 4 28 ++ u.extractLsb' 3 1 ++ u.extractLsb' 1 2 ++ u.extractLsb' 0 1 := by
    iterate 3 rw [BitVec.extractLsb'_append_extractLsb'_eq_extractLsb' (by decide)]
    exact BitVec.extractLsb'_eq_self.symm
  rw [hparts (v &&& 0x0000000F#32)]
  simp only [BitVec.extractLsb'_and, hzero, hie, hpsel, hwsel, BitVec.and_allOnes, BitVec.and_zero, ofBool_getLsbD]

/-- With a writable WSEL, CFG reads the four bits written (R25, R173). -/
theorem cfgWord_writeCfg (hm : s.params.widthMode = .both) (v : Word32) :
    cfgWord (writeCfg v s) = v &&& 0x0000000F#32 := by
  rw [and_low4_eq_append]
  simp only [cfgWord, writeCfg, writtenWsel_of_both hm, pselBits_pselOfBits, wselBit_wselOfBit]

/-! Halves of the 64-bit registers. -/

theorem lowHalf_eq (x : Word64) : lowHalf x = BitVec.ofNat 32 x.toNat := rfl

theorem highHalf_eq (x : Word64) : highHalf x = BitVec.ofNat 32 (x.toNat / 2 ^ 32) :=
  congrArg _ (Nat.shiftRight_eq_div_pow _ _)

theorem append_toNat (h l : Word32) : (h ++ l : Word64).toNat = h.toNat * 2 ^ 32 + l.toNat := by
  rw [BitVec.toNat_append, ← Nat.shiftLeft_add_eq_or_of_lt l.isLt, Nat.shiftLeft_eq]

theorem setLowHalf_toNat (x : Word64) (v : Word32) :
    (setLowHalf x v).toNat = x.toNat / 2 ^ 32 * 2 ^ 32 + v.toNat := by
  have hhigh : x.toNat / 2 ^ 32 < 2 ^ 32 := by have := x.isLt; omega
  rw [setLowHalf, append_toNat, highHalf_eq, BitVec.toNat_ofNat, Nat.mod_eq_of_lt hhigh]

theorem setHighHalf_toNat (x : Word64) (v : Word32) :
    (setHighHalf x v).toNat = v.toNat * 2 ^ 32 + x.toNat % 2 ^ 32 := by
  rw [setHighHalf, append_toNat, lowHalf_eq, BitVec.toNat_ofNat]

theorem addrBits_setLowHalf (p : Params) (x : Word64) (v : Word32) :
    addrBits p (setLowHalf x v) =
      BitVec.ofNat 64 ((x.toNat / 2 ^ 32 * 2 ^ 32 + v.toNat) % 2 ^ p.addrW) := by
  rw [addrBits, setLowHalf_toNat]

theorem addrBits_setHighHalf (p : Params) (x : Word64) (v : Word32) :
    addrBits p (setHighHalf x v) =
      BitVec.ofNat 64 ((v.toNat * 2 ^ 32 + x.toNat % 2 ^ 32) % 2 ^ p.addrW) := by
  rw [addrBits, setHighHalf_toNat]

/-! Reads. -/

/-- A register whose read is not free returns its value, and only STATUS shows the host that BUSY = 0 (R67, R176). -/
theorem readReg_of_value (hf : s.busy = false ∨ readsFreely r = false) (hr : r ≠ .status) :
    readReg r s = { s with returned := regValue s r :: s.returned } := by
  have hfree : ¬(s.busy && readsFreely r) = true := by rcases hf with h | h <;> simp [h]
  rw [readReg, if_neg hfree, awaitsAfterRead, if_neg hr]

theorem readReg_status (s : State) :
    readReg .status s = { s with returned := statusWord s :: s.returned, awaitsIdle := s.awaitsIdle && s.busy } := by
  rw [readReg, if_neg (by simp [readsFreely])]
  rfl

/-- A RESULT or COUNT half read while BUSY is a draw (R176). -/
theorem readReg_of_free (hb : s.busy = true) (hr : readsFreely r = true) :
    readReg r s = { s with returned := Config.freeRead s.draws :: s.returned, draws := s.draws + 1 } :=
  if_pos (by simp [hb, hr])

theorem hostRead_of_value (hf : s.busy = false ∨ readsFreely r = false) (hr : r ≠ .status) :
    hostRead (regOffset r) s = .next { s with returned := regValue s r :: s.returned } := by
  rw [hostRead_reg, readReg_of_value hf hr]

theorem hostRead_of_free (hb : s.busy = true) (hr : readsFreely r = true) :
    hostRead (regOffset r) s =
      .next { s with returned := Config.freeRead s.draws :: s.returned, draws := s.draws + 1 } := by
  rw [hostRead_reg, readReg_of_free hb hr]

/-! Accesses. -/

/-- The offsets of registers are the multiples of 4 inside the window (R21, R65). -/
theorem exists_regOffset_eq_iff {n : Nat} : (∃ r, regOffset r = n) ↔ n < 64 ∧ n % 4 = 0 := by
  constructor
  · rintro ⟨r, rfl⟩
    cases r <;> decide
  · rintro ⟨hlt, hmod⟩
    have hword : ∀ k < 16, (regAt (4 * k)).isSome = true := by decide
    have hn : 4 * (n / 4) = n := by omega
    obtain ⟨r, hr⟩ := Option.isSome_iff_exists.1 (hword (n / 4) (by omega))
    exact ⟨r, (regAt_some (hn ▸ hr)).symm⟩

/-- A register is reached at its offset, 4 bytes wide, and no other way (R65, R178). -/
theorem accessedReg_eq_some_iff {p : Params} {a : Access} :
    accessedReg p a = some r ↔ a.size = 4 ∧ a.addr = p.base + regOffset r := by
  refine ⟨accessedReg_some, fun ⟨hsize, haddr⟩ => ?_⟩
  obtain ⟨dir, addr, size⟩ := a
  subst hsize haddr
  exact accessedReg_at p dir r

theorem writeCmd_next (w : Word32) (s : State) : ∃ t, writeCmd w s = .next t := by
  cases hb : s.busy with
  | true => exact ⟨_, if_pos hb⟩
  | false =>
    rcases decode_cmd_or_illegal w with ⟨i, hd⟩ | hd
    · obtain ⟨t, ht, -⟩ := exec_result i s
      exact ⟨t, (writeCmd_cmd hd s).trans ht⟩
    · exact ⟨_, writeCmd_illegal hb hd⟩

/-- Every register write answers a next state: no command is refused (R172). -/
theorem writeReg_next (r : Reg) (v : Word32) (s : State) : ∃ t, writeReg r v s = .next t := by
  cases r with
  | cmd => exact writeCmd_next v s
  | _ => exact ⟨_, rfl⟩

/-- An access that reaches a register answers a next state. -/
theorem hostAccess_next {a : Access} (h : accessedReg s.params a = some r) : ∃ t, hostAccess a s = .next t := by
  obtain ⟨dir, addr, size⟩ := a
  cases dir with
  | write v =>
    obtain ⟨t, ht⟩ := writeReg_next r v s
    exact ⟨t, by simp only [hostAccess, h, ht]⟩
  | read => exact ⟨readReg r s, by simp only [hostAccess, h]⟩

theorem hostAccess_refused {a : Access} (h : accessedReg s.params a = none) :
    hostAccess a s = .refused .badHostAccess := by
  simp only [hostAccess, h]

end Sys2Proof.Machine
end

section
/-! The statements of 43_control.md's family: acceptance, NOP and CLR, the writes of CFG, PTR and LEN, dropped and ignored writes, reads, and refused accesses. -/

namespace Sys2Proof.Machine

/-- Settles O14: a CMD write by BUSY and by what its word decodes to; acceptance clears the outcome, and only the two HASH cases start. -/
theorem cmdWriteIsAccepted : Obligations.CmdWriteIsAccepted := by
  unfold Obligations.CmdWriteIsAccepted
  exact fun w s => ⟨fun hb => hostWrite_of_busy w hb (.inl rfl), fun hb hd => hostWrite_illegal hd hb,
    fun i _ hd => hostWrite_cmd hd, fun hb hd => (hostWrite_cmd hd).trans (exec_nop_of_idle hb),
    fun i hb hi => (exec_clearOutcome hb hi).symm, fun i t hb h ht => (exec_cases h).hash_of_started hb ht⟩

/-- Settles O32: the state after the write is `writeCfg`'s, read field by field. -/
theorem cfgWrite : Obligations.CfgWrite := by
  unfold Obligations.CfgWrite
  intro v s hb
  refine ⟨writeCfg v s, ?write, rfl, fun hm => ?wsel, fun hm => writtenWsel_of_hardwired hm v,
    pselBits_pselOfBits _, rfl, fun hm => cfgWord_writeCfg hm v, cfgWord_high _⟩
  case write =>
    rw [← unlessBusy_of_idle hb (writeCfg v)]
    exact hostWrite_reg .cfg v s
  case wsel =>
    rw [writeCfg_wsel, writtenWsel_of_both hm]
    exact wselOfBit_eq_w64_iff

/-- Settles O33: while idle the register takes the half written, cut to ADDR_W bits; while BUSY the write is dropped. -/
theorem ptrLenHalves : Obligations.PtrLenHalves := by
  unfold Obligations.PtrLenHalves
  intro v s
  refine ⟨fun hb => ?idle, fun hb off ho => hostWrite_of_busy v hb (.inr (.inr ho))⟩
  case idle =>
    have hset (f : State → State) :
        (.next (unlessBusy f s) : Host.Outcome State Fault Refusal) = .next (f s) := by
      rw [unlessBusy_of_idle hb]
    simp only [← addrBits_setLowHalf, ← addrBits_setHighHalf]
    exact ⟨(hostWrite_reg .ptrLo v s).trans (hset _), (hostWrite_reg .ptrHi v s).trans (hset _),
      (hostWrite_reg .lenLo v s).trans (hset _), (hostWrite_reg .lenHi v s).trans (hset _)⟩

/-- Settles O34: the six writable offsets and every command are dropped. -/
theorem writesWhileBusyAreDropped : Obligations.WritesWhileBusyAreDropped := by
  unfold Obligations.WritesWhileBusyAreDropped
  exact fun s hb => ⟨fun v off ho => hostWrite_of_busy v hb ho, exec_of_busy hb⟩

/-- Settles O36: STATUS, a register that shows its value, and a free read, at each offset. -/
theorem hostReads : Obligations.HostReads := by
  unfold Obligations.HostReads
  intro s
  have hvalue (r : Reg) (hf : readsFreely r = false) (hr : r ≠ .status) := hostRead_of_value (s := s) (.inr hf) hr
  refine ⟨hvalue .cmd rfl nofun, ?status, hvalue .cfg rfl nofun, hvalue .params rfl nofun, hvalue .ptrLo rfl nofun,
    ?ptrHi, hvalue .lenLo rfl nofun, ?lenHi, fun hb => ?idle, fun hb off ho => ?free, fun off ho => ?reserved⟩
  case status =>
    rw [← readReg_status]
    exact hostRead_reg .status s
  case ptrHi =>
    rw [← highHalf_eq]
    exact hvalue .ptrHi rfl nofun
  case lenHi =>
    rw [← highHalf_eq]
    exact hvalue .lenHi rfl nofun
  case idle =>
    have hidle (r : Reg) (hr : r ≠ .status) := hostRead_of_value (s := s) (.inl hb) hr
    rw [← highHalf_eq, ← highHalf_eq]
    exact ⟨hidle .resultLo nofun, hidle .resultHi nofun, hidle .countLo nofun, hidle .countHi nofun⟩
  case free =>
    rcases ho with rfl | rfl | rfl | rfl
    · exact hostRead_of_free (r := .resultLo) hb rfl
    · exact hostRead_of_free (r := .resultHi) hb rfl
    · exact hostRead_of_free (r := .countLo) hb rfl
    · exact hostRead_of_free (r := .countHi) hb rfl
  case reserved =>
    rcases ho with rfl | rfl | rfl | rfl
    · exact hvalue .reserved30 rfl nofun
    · exact hvalue .reserved34 rfl nofun
    · exact hvalue .reserved38 rfl nofun
    · exact hvalue .reserved3C rfl nofun

/-- Settles O39: the accesses described are those that reach a register; they answer a next state and the others are refused. -/
theorem badAccessIsRefused : Obligations.BadAccessIsRefused := by
  unfold Obligations.BadAccessIsRefused
  refine fun a s => ⟨fun hbad => ?refused, fun hsize hbase hlt hmod => ?next⟩
  case refused =>
    refine hostAccess_refused (Option.eq_none_iff_forall_ne_some.2 fun r hr => hbad ?_)
    obtain ⟨hsize, haddr⟩ := accessedReg_some hr
    obtain ⟨hlt, hmod⟩ := exists_regOffset_eq_iff.1 ⟨r, rfl⟩
    have hoff : a.addr - s.params.base = regOffset r := by omega
    exact ⟨hsize, by omega, by omega, hoff ▸ hmod⟩
  case next =>
    obtain ⟨r, hr⟩ := exists_regOffset_eq_iff.2 ⟨(by omega : a.addr - s.params.base < 64), hmod⟩
    exact hostAccess_next ((accessedReg_eq_some_iff (r := r)).2 ⟨hsize, by omega⟩)

/-- Settles O12: NOP is taken as it is or dropped; any other word with OP = 0 decodes to no command. -/
theorem nopChangesNothing : Obligations.NopChangesNothing := by
  unfold Obligations.NopChangesNothing
  exact fun s => ⟨fun hb => ⟨exec_nop_of_idle hb, hostWrite_nop hb⟩,
    fun hb => ⟨exec_of_busy hb .nop, hostWrite_of_busy _ hb (.inl rfl)⟩,
    fun w hb hop hw => hostWrite_illegal (decode_of_op_zero hop hw) hb⟩

/-- Settles O13: an accepted CLR clears what `irq` reads; while BUSY it is dropped. -/
theorem clrClearsStatus : Obligations.ClrClearsStatus := by
  unfold Obligations.ClrClearsStatus
  refine fun s => ⟨hostWrite_cmd decode_word_clr, fun hb => ⟨exec_clr_of_idle hb, fun t ht => ?irq⟩,
    fun hb => exec_of_busy hb .clr⟩
  case irq =>
    obtain rfl := Host.Outcome.next.inj ((exec_clr_of_idle hb).symm.trans ht)
    simp [State.irq]

/-- Settles O35: at each of the ten offsets the write is answered by the state itself. -/
theorem readOnlyWritesIgnored : Obligations.ReadOnlyWritesIgnored := by
  unfold Obligations.ReadOnlyWritesIgnored
  intro v off s ho
  rcases ho with rfl | rfl | rfl | rfl | rfl | rfl | rfl | rfl | rfl | rfl
  · exact hostWrite_reg .status v s
  · exact hostWrite_reg .params v s
  · exact hostWrite_reg .resultLo v s
  · exact hostWrite_reg .resultHi v s
  · exact hostWrite_reg .countLo v s
  · exact hostWrite_reg .countHi v s
  · exact hostWrite_reg .reserved30 v s
  · exact hostWrite_reg .reserved34 v s
  · exact hostWrite_reg .reserved38 v s
  · exact hostWrite_reg .reserved3C v s

end Sys2Proof.Machine
end

section
/-! Errors (spec/60_exceptions.md): the first check that fails at the acceptance of a command and what it leaves (R203, R204, R209), the codes a micro-step raises, and what sets the BUS fault mark (R206). -/

namespace Sys2Proof.Machine

variable {s t : State} {i : Instr} {m : Input}

/-! Acceptance. -/

/-- The commands that fold bytes, and so read PSEL (R203). -/
theorem step_or_hashN_or_hashZ_iff :
    ((∃ b, i = .step b) ∨ i = .hashN ∨ i = .hashZ) ↔ i ≠ .nop ∧ i ≠ .init ∧ i ≠ .clr := by
  cases i <;> simp

/-- The code of the first check that fails at the acceptance of a command other than NOP, in R209's order; none where each passes. -/
def firstCheck (i : Instr) (s : State) : ErrCode :=
  if s.psel = .reserved ∧ i ≠ .init ∧ i ≠ .clr then .badCfg
  else if i = .hashZ ∧ s.ptr = 0 then .nullPtr
  else if i = .hashN ∧ 2 ^ s.params.addrW < s.ptr.toNat + s.len.toNat then .range
  else .none

theorem firstCheck_eq_badCfg_iff : firstCheck i s = .badCfg ↔ s.psel = .reserved ∧ i ≠ .init ∧ i ≠ .clr := by
  unfold firstCheck
  split_ifs <;> simp_all

theorem firstCheck_eq_nullPtr_iff :
    firstCheck i s = .nullPtr ↔ i = .hashZ ∧ s.ptr = 0 ∧ s.psel ≠ .reserved := by
  unfold firstCheck
  split_ifs <;> simp_all

theorem firstCheck_eq_range_iff :
    firstCheck i s = .range ↔
      i = .hashN ∧ s.psel ≠ .reserved ∧ 2 ^ s.params.addrW < s.ptr.toNat + s.len.toNat := by
  unfold firstCheck
  split_ifs <;> simp_all

theorem firstCheck_ne_bus : firstCheck i s ≠ .bus := by
  unfold firstCheck
  split_ifs <;> exact ErrCode.noConfusion

/-- An accepted command other than NOP passes every check and leaves no error, or fails at the first check that applies and changes DONE, ERR and ECODE only (R207, R209). -/
theorem ExecResult.reports_firstCheck (h : ExecResult s i t) (hb : s.busy = false) (hi : i ≠ .nop) :
    (firstCheck i s = .none ∧ t.err = false ∧ t.ecode = .none) ∨
      (firstCheck i s ≠ .none ∧ t = { s with done := false, err := true, ecode := firstCheck i s }) := by
  have hfails {c : ErrCode} (hc : firstCheck i s = c) (hn : c ≠ .none)
      (ht : t = raiseError .acceptance c (clearOutcome s)) :
      firstCheck i s ≠ .none ∧ t = { s with done := false, err := true, ecode := firstCheck i s } := by
    subst hc
    exact ⟨hn, ht.trans (raiseAccept_clearOutcome firstCheck_ne_bus)⟩
  cases h with
  | dropped hbusy => simp [hb] at hbusy
  | nop => exact absurd rfl hi
  | badCfg _ hp hcmd =>
    obtain ⟨-, hreads⟩ := step_or_hashN_or_hashZ_iff.1 hcmd
    exact .inr (hfails (firstCheck_eq_badCfg_iff.2 ⟨hp, hreads⟩) nofun rfl)
  | nullPtr _ hp hn => exact .inr (hfails (firstCheck_eq_nullPtr_iff.2 ⟨rfl, hn, hp⟩) nofun rfl)
  | range _ hp hr => exact .inr (hfails (firstCheck_eq_range_iff.2 ⟨rfl, hp, hr⟩) nofun rfl)
  | clr | init | step | emptyN | startN | startZ => exact .inl ⟨by simp_all [firstCheck], rfl, rfl⟩

theorem ExecResult.ecode_eq_firstCheck (h : ExecResult s i t) (hb : s.busy = false) (hi : i ≠ .nop) :
    t.ecode = firstCheck i s := by
  rcases h.reports_firstCheck hb hi with ⟨hc, -, ht⟩ | ⟨-, rfl⟩
  · rw [hc, ht]
  · rfl

theorem ExecResult.err_eq_false_iff (h : ExecResult s i t) (hb : s.busy = false) (hi : i ≠ .nop) :
    t.err = false ↔ t.ecode = .none := by
  rcases h.reports_firstCheck hb hi with ⟨-, hterr, hcode⟩ | ⟨hc, rfl⟩
  · exact iff_of_true hterr hcode
  · exact iff_of_false Bool.noConfusion hc

/-- A failed check is the command's whole effect (R207). -/
theorem exec_of_firstCheck {c : ErrCode} (hb : s.busy = false) (hi : i ≠ .nop) (hc : firstCheck i s = c)
    (hn : c ≠ .none) :
    exec i s = .next { s with done := false, err := true, ecode := c } := by
  subst hc
  obtain ⟨t, ht, hr⟩ := exec_result i s
  obtain ⟨-, rfl⟩ := (hr.reports_firstCheck hb hi).resolve_left fun hnone => hn hnone.1
  exact ht

/-- An ECODE after a command is that of its first failed check, or was there before an accepted NOP. -/
theorem firstCheck_or_nop_of_exec (hb : s.busy = false) (h : exec i s = .next t) :
    (i ≠ .nop ∧ firstCheck i s = t.ecode) ∨ (i = .nop ∧ t = s) := by
  by_cases hi : i = .nop
  · subst hi
    exact .inr ⟨rfl, (Host.Outcome.next.inj ((exec_nop_of_idle hb).symm.trans h)).symm⟩
  · exact .inl ⟨hi, ((exec_cases h).ecode_eq_firstCheck hb hi).symm⟩

/-! Micro-steps. -/

/-- The errors of a micro-step are BUS and RANGE (R207). -/
theorem MicroResult.ecode_cases (h : MicroResult s t) : t.ecode = s.ecode ∨ t.ecode = .bus ∨ t.ecode = .range := by
  cases h with
  | bus => exact .inr (.inl rfl)
  | top => exact .inr (.inr rfl)
  | idle | advance | complete | cut | terminator | scan => exact .inl (by simp)

/-- A scan that has not ended and reads an unadmitted byte is refused or fails with BUS, wherever CUR stands (R209, R220). -/
theorem microStep_runZ_unadmitted (hp : s.phase = .runZ) (hz : foldedZero s = false)
    (ha : admits s.params s.cur.toNat = false) (h : microStep s = .next t) :
    t = drawTurns (raiseError .microStep .bus s) := by
  by_cases hq : quietRange s.params s.cur.toNat 1
  · exact Host.Outcome.next.inj (h.symm.trans (microStep_runZ_bus hp hz hq ha))
  · rw [microStep_runZ_refused hp hz hq] at h
    cases h

/-! The BUS fault mark. -/

/-- A micro-step keeps the mark, or ends the operation with BUS and sets it (R206, R207). -/
theorem MicroResult.busMark_cases (h : MicroResult s t) :
    t.busMark = s.busMark ∨ (t.busMark = true ∧ s.busy = true ∧ t.busy = false ∧ t.err = true ∧ t.ecode = .bus) := by
  cases h with
  | bus _ hb => exact .inr ⟨by simp, hb, rfl, rfl, rfl⟩
  | idle | advance | complete | cut | terminator | top | scan => exact .inl (by simp)

/-- No move of the host touches the mark, `rst` included (R206; log entry 13). -/
theorem HostResult.busMark_eq (h : HostResult s m t) : t.busMark = s.busMark := by
  cases h with
  | command _ he => exact he.busMark_eq
  | _ => simp

end Sys2Proof.Machine
end

section
/-! The statements of 60_exceptions.md's family: the errors of acceptance and their order, `raise Error`, and the BUS fault mark. -/

namespace Sys2Proof.Machine

/-- Settles O19: while idle the word is illegal or reports its command's first check; in a scan the read comes before the top is asked for. -/
theorem firstCheckIsReported : Obligations.FirstCheckIsReported := by
  unfold Obligations.FirstCheckIsReported
  refine ⟨fun w s t h => ⟨fun hb => ?busy, fun hb hd => ?illegal, fun i hb hd hi => ?command⟩,
    fun s t hi hp he _ ha h => ?microStep⟩
  case busy => exact Host.Outcome.next.inj (h.symm.trans (hostWrite_of_busy w hb (.inl rfl)))
  case illegal =>
    obtain rfl := Host.Outcome.next.inj (h.symm.trans (hostWrite_illegal hd hb))
    exact ⟨rfl, rfl⟩
  case command =>
    have hr := exec_cases ((hostWrite_cmd hd).symm.trans h)
    exact ⟨hr.ecode_eq_firstCheck hb hi, hr.err_eq_false_iff hb hi⟩
  case microStep =>
    have hz : foldedZero s = false := by rwa [← Bool.not_eq_true, foldedZero_iff hi hp]
    obtain rfl := microStep_runZ_unadmitted hp hz ha h
    exact ⟨rfl, rfl⟩

/-- Settles O17: PSEL = 3 is the first check of STEP, HASH_N and HASH_Z and of no other command. -/
theorem badCfgOnReservedPolicy : Obligations.BadCfgOnReservedPolicy := by
  unfold Obligations.BadCfgOnReservedPolicy
  refine ⟨fun i s hb hp hi => ?raised, fun i s t hb h hc => ?only⟩
  case raised =>
    obtain ⟨hnop, hreads⟩ := step_or_hashN_or_hashZ_iff.1 hi
    exact exec_of_firstCheck hb hnop (firstCheck_eq_badCfg_iff.2 ⟨hp, hreads⟩) nofun
  case only =>
    refine (firstCheck_or_nop_of_exec hb h).imp_left fun ⟨hnop, he⟩ => ?_
    obtain ⟨hp, hreads⟩ := firstCheck_eq_badCfg_iff.1 (he.trans hc)
    exact ⟨hp, step_or_hashN_or_hashZ_iff.2 ⟨hnop, hreads⟩⟩

/-- Settles O18: only HASH_Z asks for PTR = 0; an illegal word is BAD_CMD, and a micro-step raises BUS or RANGE. -/
theorem nullPtrOnlyForHashZ : Obligations.NullPtrOnlyForHashZ := by
  unfold Obligations.NullPtrOnlyForHashZ
  refine ⟨fun s hb hp h0 => exec_of_firstCheck hb nofun (firstCheck_eq_nullPtr_iff.2 ⟨rfl, h0, hp⟩) nofun,
    fun s hb hp h0 hlen => ?hashN, fun i s t hb h hc => ?only, fun w s t hb hd h => ?illegal,
    fun s t _ h hc => ?microStep⟩
  case hashN =>
    obtain ⟨t, ht, hr⟩ := exec_result .hashN s
    have hpass : firstCheck .hashN s = .none := by simp [firstCheck, hp, h0, hlen]
    exact ⟨t, ht, (hr.err_eq_false_iff hb nofun).2 ((hr.ecode_eq_firstCheck hb nofun).trans hpass)⟩
  case only =>
    exact (firstCheck_or_nop_of_exec hb h).imp_left fun ⟨_, he⟩ => firstCheck_eq_nullPtr_iff.1 (he.trans hc)
  case illegal =>
    obtain rfl := Host.Outcome.next.inj (h.symm.trans (hostWrite_illegal hd hb))
    exact ErrCode.noConfusion
  case microStep =>
    rcases (microStep_cases h).ecode_cases with hkept | hbus | hrange
    · exact hkept.symm.trans hc
    · exact absurd (hbus.symm.trans hc) nofun
    · exact absurd (hrange.symm.trans hc) nofun

/-- Settles O21: a micro-step keeps the mark or ends with BUS; the host's moves keep it. -/
theorem busMarkIsNeverCleared : Obligations.BusMarkIsNeverCleared := by
  unfold Obligations.BusMarkIsNeverCleared
  intro s t h
  have hmark : t.busMark = s.busMark ∨
      (t.busMark = true ∧ s.busy = true ∧ t.busy = false ∧ t.err = true ∧ t.ecode = .bus) := by
    cases step_cases h with
    | micro _ _ hr => exact hr.busMark_cases
    | host _ _ hr => exact .inl (hr.busMark_eq.trans (taken_busMark s _))
  rcases hmark with hkept | ⟨hset, hbus⟩
  · exact ⟨hkept.trans, fun hs ht => absurd (hkept.symm.trans ht) (by simp [hs])⟩
  · exact ⟨fun _ => hset, fun _ _ => hbus⟩

/-- Settles O20: the update of `raiseError` at each site, field by field. -/
theorem raiseErrorEffect : Obligations.RaiseErrorEffect := by
  unfold Obligations.RaiseErrorEffect
  exact fun code s => ⟨rfl, raiseError .microStep code s, rfl, raiseRun_acc s code, raiseRun_count s code,
    raiseRun_busy s code, rfl⟩

end Sys2Proof.Machine
end

section
/-! The end of a running operation and the `rst` move (spec/70_reset_and_hazards.md R230-R232). -/

namespace Sys2Proof.Machine

variable {s t : State} {m : Input}

/-- Of the host's moves only `rst` stops a running operation: its commands and register writes are dropped while BUSY (R230). -/
theorem HostResult.eq_rst_of_ended (h : HostResult s m t) (hb : s.busy = true) (ht : t.busy = false) : m = .rst := by
  cases h with
  | rst => rfl
  | command _ he => simp [he.eq_dropWrite hb, hb] at ht
  | _ => simp_all [State.busy]

/-- The micro-step that ends an operation sets DONE or ERR, never both, since both are clear while it runs (R45, R145, R207). -/
theorem MicroResult.done_ne_err_of_ended (hi : Inv s) (h : MicroResult s t) (hb : s.busy = true)
    (ht : t.busy = false) : t.done ≠ t.err := by
  obtain ⟨-, hserr, -⟩ := hi.busyClear hb
  rcases h.outcome_of_ended hb ht with ⟨hdone, herr, -⟩ | ⟨hdone, herr, -⟩ <;> simp [hdone, herr, hserr]

end Sys2Proof.Machine
end

section
/-! The statements of 70_reset_and_hazards.md's family: what ends a running operation, and the `rst` move. -/

namespace Sys2Proof.Machine

/-- Settles O31: the step is the operation's last micro-step, or the one host move that stops an operation. -/
theorem onlyResetCancels : Obligations.OnlyResetCancels := by
  unfold Obligations.OnlyResetCancels
  intro s t hi h hb ht
  cases step_cases h with
  | micro _ hm hr => exact .inr ⟨hm, hr.done_ne_err_of_ended hi hb ht⟩
  | @host m rest _ hn _ hr =>
    obtain rfl := hr.eq_rst_of_ended hb ht
    exact .inl ⟨rest, hn⟩

/-- Settles O42: the step is the `rst` move on the taken state, and `applyReset` keeps of it the parameters, the memory, the mark and the model's own fields but `raced`. -/
theorem resetMove : Obligations.ResetMove := by
  unfold Obligations.ResetMove
  intro s rest hn
  have hreset : hostMove .rst (taken s rest) = .next (applyReset (taken s rest)) := rfl
  exact (step_of_nextMove hn).trans hreset

end Sys2Proof.Machine
end
